-- ==== Sys2Proof/Word.lean ====
section
/-! DEFINITION. The bit vectors of the block: quads, request and response words, opcode and codes, limb slots. -/

namespace Sys2Proof

/-- A quad: one packed 161-bit value (spec/10_state.md R20). -/
abbrev Quad := BitVec 161

/-- The 128-bit fraction `{hi, lo}` of a quad (R21). -/
abbrev Fraction := BitVec 128

/-- The 3-bit opcode field (spec/30_encoding.md R73). -/
abbrev Opcode := BitVec 3

/-- A 325-bit request word `{op, a, b}` (R70). -/
abbrev ReqWord := BitVec 325

/-- A 166-bit response word `{status, cls, r}` (R71). -/
abbrev RspWord := BitVec 166

/-- One 64-bit slot of a limb buffer; between primitives its value is below 2^32
(spec/40_limbs_and_rounding.md R102). -/
abbrev Slot := BitVec 64

/-- A limb buffer: its slots, the most significant first (R102). -/
abbrev Limbs := List Slot

end Sys2Proof
end

