-- ==== Sys2Proof/Syntax.lean ====
section
/-! DEFINITION. The commands of QARITH v1 (one constructor per row of spec/opcode_table.json), and the request and
response bundles, classes and codes they are made of. -/

namespace Sys2Proof

/-- The five commands (spec/00_scope.md R3, spec/30_encoding.md R73). Operands are whole quads, used as they stand
(R76); `a` is the left operand (R77). `qsqrt` carries the request's `b`, which its meaning never reads
(spec/44_sqrt.md R220). -/
inductive Instr where
  | qadd (a b : Quad)
  | qsub (a b : Quad)
  | qmul (a b : Quad)
  | qdiv (a b : Quad)
  | qsqrt (a b : Quad)
deriving DecidableEq, Repr

/-- A request bundle, and the contents of the latch `CMD` (spec/10_state.md R32, spec/30_encoding.md R70). Any 3-bit
`op` can be requested, the reserved ones included (R74). -/
structure Request where
  op : Opcode
  a : Quad
  b : Quad
deriving DecidableEq, Repr, Inhabited

/-- The five classes of quads (spec/10_state.md R22). -/
inductive QuadClass where
  | zero
  | subnormal
  | normal
  | infinity
  | nan
deriving DecidableEq, Repr

/-- The two statuses a response can have (spec/30_encoding.md R79). -/
inductive Status where
  | ok
  | illegalOp
deriving DecidableEq, Repr, Inhabited

/-- A response bundle, and the contents of the latch `RES` (spec/10_state.md R33, spec/30_encoding.md R71). `cls` is
the 3-bit code as the port carries it, because in an ILLEGAL_OP response it is any value (spec/60_exceptions.md R251). -/
structure Response where
  status : Status
  cls : BitVec 3
  r : Quad
deriving DecidableEq, Repr, Inhabited

/-- The transaction state `st` (spec/10_state.md R31). -/
inductive TxState where
  | idle
  | busy
  | done
deriving DecidableEq, Repr, Inhabited

/-- The kernel's hidden working storage (spec/10_state.md R34; sizes of spec/40_limbs_and_rounding.md R103 and
spec/42_multiply.md R174). -/
structure Scratch where
  divisor : Limbs
  remainder : Limbs
  product : Limbs
  sqrtRemainder : Limbs
  guardBit : Bool
  stickyBit : Bool
deriving DecidableEq, Repr, Inhabited

end Sys2Proof
end

