-- ==== Sys2Proof/Decode.lean ====
section
/-! DEFINITION. Decoding of request words, total on all 325-bit words, and the encoder (spec/30_encoding.md). -/

namespace Sys2Proof

/-- Why a request word is no instruction: its opcode is one of the reserved 101, 110 and 111 (R74). -/
inductive DecodeRefusal where
  | reservedOpcode (op : Opcode)
deriving DecidableEq, Repr

/-- The three fields of a request word: op in bits 324..322, a in 321..161, b in 160..0 (R70). -/
def requestOfWord (w : ReqWord) : Request :=
  { op := w.extractLsb' 322 3, a := w.extractLsb' 161 161, b := w.extractLsb' 0 161 }

/-- The request word `{op, a, b}` of a request (R70). -/
def requestWord (q : Request) : ReqWord := q.op ++ (q.a ++ q.b)

/-- The opcode map (R73): the command a request stands for, or its reserved opcode by name (R74). -/
def decodeRequest (q : Request) : Except DecodeRefusal Instr :=
  if q.op = 0b000#3 then .ok (.qadd q.a q.b)
  else if q.op = 0b001#3 then .ok (.qsub q.a q.b)
  else if q.op = 0b010#3 then .ok (.qmul q.a q.b)
  else if q.op = 0b011#3 then .ok (.qdiv q.a q.b)
  else if q.op = 0b100#3 then .ok (.qsqrt q.a q.b)
  else .error (.reservedOpcode q.op)

/-- The decoder: the command of a request word (R70, R72, R73). -/
def decode (w : ReqWord) : Except DecodeRefusal Instr := decodeRequest (requestOfWord w)

/-- The request that encodes an instruction (R70, R73). -/
def requestOf : Instr → Request
  | .qadd a b => ⟨0b000#3, a, b⟩
  | .qsub a b => ⟨0b001#3, a, b⟩
  | .qmul a b => ⟨0b010#3, a, b⟩
  | .qdiv a b => ⟨0b011#3, a, b⟩
  | .qsqrt a b => ⟨0b100#3, a, b⟩

/-- The encoder: the request word of an instruction (R70, R73). -/
def encode (i : Instr) : ReqWord := requestWord (requestOf i)

/-- The number of a table word whose bits above `nbits` are zero. -/
def tableWord (nbits w : Nat) : Nat := w % 2 ^ nbits

/-- The instruction the decoder reads from a table word: one 325-bit request (R72). The bits that pad it to whole bytes
are zero, and a word with one of them set is no request (log 16). -/
def decodeTableWord (nbits w : Nat) : Option Instr :=
  if tableWord nbits w < 2 ^ 325 then (decode (BitVec.ofNat 325 (tableWord nbits w))).toOption else none

end Sys2Proof
end

