-- ==== Sys2Proof/Config.lean ====
section
/-! DEFINITION. What an implementation of the block fixes (spec/00_scope.md R7, R8), and the free values: opaque
constants with no body, for what the spec leaves open. -/

namespace Sys2Proof.Config

/-- `FRAC_BITS` (R7, fixed). -/
abbrev fracBits : Nat := 128

/-- `PREC = FRAC_BITS + 1` (R7, fixed). -/
abbrev precision : Nat := 129

/-- `EXP_BITS` (R7, default; PRESUMED, log 1). -/
abbrev expBits : Nat := 32

/-- `BIAS = 2^31 - 1` (R7, default; PRESUMED, log 1). -/
def bias : Int := 0x7FFFFFFF

/-- `EXP_INF = 2^EXP_BITS - 1`, the sentinel of Infinity and NaN (R7, default; PRESUMED, log 1). -/
def expInf : Nat := 0xFFFFFFFF

/-- `EMAX_FIELD = EXP_INF - 1`, the largest exponent field of a finite normal value (R8). -/
def emaxField : Nat := expInf - 1

/-- `LSB_MIN = 1 - BIAS - FRAC_BITS`, the weight exponent of the lowest fraction bit of a subnormal (R8). -/
def lsbMin : Int := 1 - bias - 128

/-- `CANONICAL_NAN`, the pattern of every NaN the block produces (R7, spec/40_limbs_and_rounding.md R118, default;
PRESUMED, log 1). -/
def canonicalNaN : Quad := 0x0_FFFFFFFF_8000000000000000_0000000000000000#161

/-- `LIMB_BITS` (R7, fixed). -/
abbrev limbBits : Nat := 32

/-- `DIVISOR_WORDS` (R7, fixed). -/
abbrev divisorWords : Nat := 5

/-- `REMAINDER_WORDS` (R7, fixed). -/
abbrev remainderWords : Nat := 10

/-- `QUOTIENT_LIMBS` (R7, fixed). -/
abbrev quotientLimbs : Nat := 5

/-- The exponent difference from which the smaller operand of a sum cannot move the result
(spec/41_add_subtract.md R140, R143). -/
abbrev addCutoff : Nat := 131

/-- `P`, the bits a dividend is extended by (spec/43_divide.md R190). -/
abbrev divisionExtension : Nat := 260

/-- The bits a radicand is extended by (spec/44_sqrt.md R220). -/
abbrev sqrtExtension : Nat := 262

/-- FREE VALUE: `cls` of the ILLEGAL_OP response of draw `n`: any value, a fresh draw per response
(spec/60_exceptions.md R251, log 8). -/
opaque illegalClass : Nat → BitVec 3

/-- FREE VALUE: `r` of the ILLEGAL_OP response of draw `n` (R251, log 8). -/
opaque illegalResult : Nat → Quad

/-- FREE VALUE: the contents of the scratch storage at draw `n` (spec/10_state.md R34, log 3). -/
opaque scratchContents : Nat → Scratch

/-- FREE VALUE: `st` before the first reset, at draw `n` (spec/70_reset_and_hazards.md R284, log 9). -/
opaque unresetState : Nat → TxState

/-- FREE VALUE: `CMD` before the first reset, at draw `n` (R284, log 9). -/
opaque unresetCommand : Nat → Option Request

/-- FREE VALUE: `RES` before the first reset, at draw `n` (R284, log 9). DESIGN CHOICE: it is a `Response`, so where it holds
a value its status is OK or ILLEGAL_OP, never one of the codes 10 and 11, which R284 does not rule out here (log 9). -/
opaque unresetResponse : Nat → Option Response

end Sys2Proof.Config
end

