-- ==== Sys2Proof/Machine/State.lean ====
section
/-! DEFINITION. The block's state, the scheduler's choices beside it, the reasons a run stops, and reset. -/

namespace Sys2Proof.Machine

/-- Why a run stops with a fault. Each is a broken handshake or a bug by the spec's own words, which say that a model
faults there (spec/93_implementation_defined.md section 1). All are safe: the model stops, no value is made up. -/
inductive Fault where
  /-- Raised by the read of `CMD` when it holds no value (spec/10_state.md R46). Safe. -/
  | commandHasNoValue
  /-- Raised by the read of `RES` or of the response port when they hold no value (R46,
  spec/70_reset_and_hazards.md R287). Safe. -/
  | responseHasNoValue
  /-- Raised by an edge at which the host has changed or withdrawn a request it had to hold (R286). Safe. -/
  | requestNotHeld
  /-- Raised by an edge at which the host offers a request before the first reset (R284). Safe. -/
  | requestBeforeReset
  /-- Raised by taking or reading an OK response whose class code is one that is never produced
  (spec/30_encoding.md R78). Safe. -/
  | codeNeverProduced
deriving DecidableEq, Repr

/-- Why a function of the model refuses. None is reached by a run: the command rules meet every precondition. -/
inductive Refusal where
  /-- Raised only by an arm of `exec` whose instruction has no meaning; there is none. Safe. -/
  | notModelled (mnemonic : String)
  /-- Raised by `RoundPack` called with `st = true` and `m < 2^129` (spec/40_limbs_and_rounding.md R111). Safe. -/
  | roundPackPrecondition
  /-- Raised by `Unpack` of an Infinity or a NaN (R100). Safe. -/
  | unpackOfNonFinite
  /-- Raised by a limb primitive whose index or shift leaves the buffer, and by the comparison of buffers of unequal
  length (R107, R108, spec/20_memory.md R52, log 13, log 22). Safe. -/
  | scratchOutOfRange
  /-- Raised by the assembler for a literal that names no quad (spec/30_encoding.md R81). Safe. -/
  | literalIsNoQuad
  /-- Raised by the assembler for `@r` when no OK response stands behind it (R82). Safe. -/
  | noResultOperand
  /-- Raised by the assembler for a line that is not of the syntax (R80, R84). Safe. -/
  | lineNotUnderstood
deriving DecidableEq, Repr

/-- The state of the block: these four things and nothing else (spec/10_state.md R30). A latch that holds no value is
`none`, which is not zero (R46, log 2). `scr` is the number of the free draw that the scratch contents are (log 3). -/
structure Block where
  st : TxState
  cmd : Option Request
  res : Option Response
  scr : Nat
deriving DecidableEq, Repr

/-- The input ports sampled at one rising edge of `clk` (spec/10_state.md R36), and `completes`, the implementation's
choice whether a transaction that is BUSY completes at this edge (R41, R45, log 4). -/
structure Edge where
  rst : Bool
  reqValid : Bool
  reqOp : Opcode
  reqA : Quad
  reqB : Quad
  rspReady : Bool
  completes : Bool
deriving DecidableEq, Repr

/-- What can happen next: a rising clock edge, a look of the host at the response port (spec/70_reset_and_hazards.md
R287), or a loss of power, after which the block is in an unknown state again (R284, R263). -/
inductive Event where
  | edge (e : Edge)
  | readResponse
  | losePower
deriving DecidableEq, Repr

/-- The block and, beside it, the choices of the scheduler, which are no state of the block (spec/10_state.md R45,
log 5). `schedule` holds the events to come; `offered` is the request the host must keep offering
(spec/70_reset_and_hazards.md R286); `delivered` the responses delivered so far, the oldest first (R43); `resetSeen`
whether a reset edge has come since power did (R284); `draws` the argument of the free values. -/
structure State where
  block : Block
  schedule : List Event
  offered : Option Request
  delivered : List Response
  resetSeen : Bool
  draws : Nat
deriving DecidableEq, Repr

/-- The block just after a reset (spec/10_state.md R39): IDLE, and the latches hold no value. -/
def Block.reset : Block :=
  { st := .idle, cmd := none, res := none, scr := 0 }

/-- The machine just after a reset, before the first ACCEPT (R39): nothing is scheduled, offered or delivered. -/
def State.reset : State :=
  { block := Block.reset, schedule := [], offered := none, delivered := [], resetSeen := true, draws := 0 }

end Sys2Proof.Machine
end

