-- ==== Sys2Proof/Machine/Operands.lean ====
section
/-! DEFINITION. The quad format, classification, unpacking, special values and the integer functions of the rules. -/

namespace Sys2Proof.Machine

/-- The sign bit `x[160]` (spec/10_state.md R20, R21): true is negative. -/
def signOf (x : Quad) : Bool := x.getLsbD 160

/-- The exponent field `x[159:128]`, an unsigned biased integer (R20, R21, spec/90_conflicts.md C1). -/
def exponentOf (x : Quad) : Nat := (x.extractLsb' 128 32).toNat

/-- `mantissaHigh`, `x[127:64]` (R20). -/
def mantissaHigh (x : Quad) : BitVec 64 := x.extractLsb' 64 64

/-- `mantissaLow`, `x[63:0]` (R20). -/
def mantissaLow (x : Quad) : BitVec 64 := x.extractLsb' 0 64

/-- The fraction `f = {hi, lo}`, `x[127:0]` (R21). -/
def fractionOf (x : Quad) : Nat := (x.extractLsb' 0 128).toNat

/-- The quad of a sign, an exponent field and a 128-bit fraction (R20). -/
def packQuad (s : Bool) (e : BitVec 32) (f : Fraction) : Quad := BitVec.ofBool s ++ (e ++ f)

/-- `Class(x)` (R22), the tests in the rule's order. -/
def classOf (x : Quad) : QuadClass :=
  if exponentOf x = Config.expInf ∧ fractionOf x = 0 then .infinity
  else if exponentOf x = Config.expInf ∧ fractionOf x ≠ 0 then .nan
  else if exponentOf x = 0 ∧ fractionOf x = 0 then .zero
  else if exponentOf x = 0 ∧ fractionOf x ≠ 0 then .subnormal
  else .normal

/-- `Zero(s)` (spec/40_limbs_and_rounding.md R118). -/
def zeroQuad (s : Bool) : Quad := packQuad s 0 0

/-- `Inf(s)` (R118). -/
def infQuad (s : Bool) : Quad := packQuad s (BitVec.ofNat 32 Config.expInf) 0

/-- `NaN()` (R118). -/
def nanQuad : Quad := Config.canonicalNaN

/-- What `Unpack` gives: `val(x) = (-1)^sign * significand * 2^exponent` (R100). -/
structure Unpacked where
  sign : Bool
  significand : Nat
  exponent : Int
deriving DecidableEq, Repr

/-- `Unpack(x)` (R100); refused on an Infinity or a NaN (spec/93_implementation_defined.md). -/
def unpack (x : Quad) : Except Refusal Unpacked :=
  match classOf x with
  | .normal => .ok ⟨signOf x, 2 ^ 128 + fractionOf x, exponentOf x - Config.bias - 128⟩
  | .subnormal => .ok ⟨signOf x, fractionOf x, Config.lsbMin⟩
  | .zero => .ok ⟨signOf x, 0, Config.lsbMin⟩
  | .infinity => .error .unpackOfNonFinite
  | .nan => .error .unpackOfNonFinite

/-- `bitlen(m)` for `m >= 1` (spec/00_scope.md R10). -/
def bitLength (m : Nat) : Nat := Nat.log2 m + 1

/-- `Normalize(M, k)` for `M >= 1` (spec/40_limbs_and_rounding.md R101): the significand shifted to 129 bits, the
exponent held exactly. -/
def normalize (m : Nat) (k : Int) : Nat × Int :=
  (m <<< (129 - bitLength m), k - (129 - bitLength m : Nat))

/-- The `i` low bits of the root, below a root `r` found so far: each bit is kept where the square still fits. -/
def isqrtBits (x : Nat) : Nat → Nat → Nat
  | 0, r => r
  | i + 1, r => isqrtBits x i (if (r + 2 ^ i) * (r + 2 ^ i) ≤ x then r + 2 ^ i else r)

/-- `isqrt(x)`, the largest `q` with `q * q <= x` (spec/00_scope.md R10). -/
def isqrt (x : Nat) : Nat := isqrtBits x (Nat.log2 x / 2 + 1) 0

/-- A quad with its sign bit flipped, the other bits as they are (spec/41_add_subtract.md R150). -/
def flipSign (x : Quad) : Quad := x ^^^ packQuad true 0 0

end Sys2Proof.Machine
end

