-- ==== Sys2Proof/Machine/Flags.lean ====
section
/-! DEFINITION. The result class, the block's only flag-like output, and the status: their codes and the response
word (spec/10_state.md R38, spec/30_encoding.md R71, R78, R79). -/

namespace Sys2Proof.Machine

/-- `ClassCode(c)` (R78). -/
def classCode : QuadClass → BitVec 3
  | .zero => 0b000#3
  | .subnormal => 0b001#3
  | .normal => 0b010#3
  | .infinity => 0b011#3
  | .nan => 0b100#3

/-- The class of a class code; none for 101 to 111, which are never produced (R78). -/
def classOfCode (c : BitVec 3) : Option QuadClass :=
  if c = 0b000#3 then some .zero
  else if c = 0b001#3 then some .subnormal
  else if c = 0b010#3 then some .normal
  else if c = 0b011#3 then some .infinity
  else if c = 0b100#3 then some .nan
  else none

/-- The status code (R79). -/
def statusCode : Status → BitVec 2
  | .ok => 0b00#2
  | .illegalOp => 0b01#2

/-- The status of a status code; none for 10 and 11, which are never produced (R79). -/
def statusOfCode (c : BitVec 2) : Option Status :=
  if c = 0b00#2 then some .ok
  else if c = 0b01#2 then some .illegalOp
  else none

/-- The response word `RSP = {status, cls, r}` (R71). -/
def responseWord (p : Response) : RspWord := statusCode p.status ++ (p.cls ++ p.r)

/-- The response of a response word; none where its status code is never produced (R71, R79). -/
def responseOfWord (w : RspWord) : Option Response :=
  (statusOfCode (w.extractLsb' 164 2)).map fun s => ⟨s, w.extractLsb' 161 3, w.extractLsb' 0 161⟩

/-- The response of a successful command: status OK and the class of the result (R38, spec/10_state.md R42). -/
def okResponse (r : Quad) : Response := ⟨.ok, classCode (classOf r), r⟩

/-- The response to a reserved opcode: status ILLEGAL_OP; the other fields are free values, fresh for draw `n`
(spec/60_exceptions.md R251, log 8). DESIGN CHOICE: the draws depend on `n` alone, so two blocks of R61 whose counters are
equal give equal values (log 8, log 19). -/
def illegalResponse (n : Nat) : Response := ⟨.illegalOp, Config.illegalClass n, Config.illegalResult n⟩

/-- An OK response carries a class code that exists (R78; a model that sees another has a bug,
spec/93_implementation_defined.md). -/
def codesProduced (p : Response) : Bool :=
  match p.status with
  | .ok => (classOfCode p.cls).isSome
  | .illegalOp => true

end Sys2Proof.Machine
end

