-- ==== Sys2Proof/Machine/Ops.lean ====
section
/-! DEFINITION. The operations on the block and on the machine: the latches, ACCEPT, COMPLETE, DELIVER, RESET, the
output ports, the handshake, and the state before the first reset. The block has no memory, takes no trap and returns
from none (spec/20_memory.md R50, spec/60_exceptions.md R250, R256, R257); its one abnormal outcome is the ILLEGAL_OP
response, `State.respondIllegal`. -/

namespace Sys2Proof.Machine

/-! The block: latches and transaction steps (spec/10_state.md sections 2 and 3) -/

/-- Reading the latch `CMD`: a fault outside BUSY, where it holds no value (R32, R46). -/
def Block.readCommand (b : Block) : Except Fault Request :=
  match b.st, b.cmd with
  | .busy, some q => .ok q
  | _, _ => .error .commandHasNoValue

/-- Reading the latch `RES`, which the response port shows: a fault outside DONE, where it holds no value (R33, R37,
R46). -/
def Block.readResult (b : Block) : Except Fault Response :=
  match b.st, b.res with
  | .done, some p => .ok p
  | _, _ => .error .responseHasNoValue

/-- ACCEPT: `CMD` takes the request, whatever its opcode, and the block is BUSY (R40). -/
def Block.accept (b : Block) (q : Request) : Block := { b with st := .busy, cmd := some q }

/-- COMPLETE: `RES` takes the response, the block is DONE, and `CMD` holds no value any more (R32, R41). -/
def Block.complete (b : Block) (p : Response) : Block := { b with st := .done, cmd := none, res := some p }

/-- DELIVER: the block is IDLE, and `RES` holds no value any more (R33, R43). -/
def Block.deliver (b : Block) : Block := { b with st := .idle, res := none }

/-- `req_ready` (R37). -/
def Block.reqReady (b : Block) : Bool := b.st == .idle

/-- `rsp_valid` (R37). -/
def Block.rspValid (b : Block) : Bool := b.st == .done

/-- `rsp_status`, as the port's two bits; no value outside DONE (R37, R46). -/
def Block.rspStatus (b : Block) : Except Fault (BitVec 2) := b.readResult.map fun p => statusCode p.status

/-- `rsp_class`; no value outside DONE (R37, R46). -/
def Block.rspClass (b : Block) : Except Fault (BitVec 3) := b.readResult.map fun p => p.cls

/-- `rsp_r`; no value outside DONE (R37, R46). -/
def Block.rspR (b : Block) : Except Fault Quad := b.readResult.map fun p => p.r

/-- The hidden contents of `SCR` (R34, log 3). -/
def Block.scratch (b : Block) : Scratch := Config.scratchContents b.scr

/-! Edges -/

/-- The request on the request port at an edge (R36). -/
def Edge.request (e : Edge) : Request := ⟨e.reqOp, e.reqA, e.reqB⟩

/-- A quiet edge: no reset, no request, no response taken; a BUSY transaction completes. -/
def Edge.quiet : Edge :=
  { rst := false, reqValid := false, reqOp := 0, reqA := 0, reqB := 0, rspReady := false, completes := true }

/-- An edge at which the host offers a request. -/
def Edge.offer (q : Request) : Edge := { Edge.quiet with reqValid := true, reqOp := q.op, reqA := q.a, reqB := q.b }

/-- An edge at which the host is ready to take a response. -/
def Edge.take : Edge := { Edge.quiet with rspReady := true }

/-- An edge at which a BUSY transaction does not complete yet (R41). -/
def Edge.wait : Edge := { Edge.quiet with completes := false }

/-- An edge with `rst = 1`. -/
def Edge.reset : Edge := { Edge.quiet with rst := true }

/-! The machine -/

/-- The machine with the events still to come replaced. -/
def State.withSchedule (s : State) (es : List Event) : State := { s with schedule := es }

/-- Time passes one edge: the free values move to their next draw, and the scratch contents with them (log 3). -/
def State.tick (s : State) : State :=
  { s with block := { s.block with scr := s.draws }, draws := s.draws + 1 }

/-- ACCEPT (R40). -/
def State.accept (s : State) (q : Request) : State := { s with block := s.block.accept q }

/-- COMPLETE with a given response (R41). -/
def State.respond (s : State) (p : Response) : State := { s with block := s.block.complete p }

/-- COMPLETE of a reserved opcode: status ILLEGAL_OP, the other fields free values
(spec/30_encoding.md R74, spec/60_exceptions.md R251). -/
def State.respondIllegal (s : State) : State := s.respond (illegalResponse s.draws)

/-- COMPLETE of a command whose result is `r`: status OK and the result's class (R42). A refused precondition of a
primitive stops the run by its name. -/
def State.finish (s : State) (r : Except Refusal Quad) : Host.Outcome State Fault Refusal :=
  match r with
  | .ok q => .next (s.respond (okResponse q))
  | .error e => .refused e

/-- DELIVER: the host takes the response (R43). -/
def State.deliver (s : State) : Host.Outcome State Fault Refusal :=
  match s.block.readResult with
  | .error f => .fault f
  | .ok p =>
    if codesProduced p then .next { s with block := s.block.deliver, delivered := s.delivered ++ [p] }
    else .fault .codeNeverProduced

/-- The host looks at the response port, which changes nothing; a fault while `rsp_valid == 0`
(spec/70_reset_and_hazards.md R287). -/
def State.readResponse (s : State) : Host.Outcome State Fault Refusal :=
  match s.block.readResult with
  | .error f => .fault f
  | .ok p => if codesProduced p then .next s else .fault .codeNeverProduced

/-- RESET: the block takes the reset state, whatever it was doing, and the host owes no request any more
(R39, R44, spec/70_reset_and_hazards.md R280, R282, log 10). -/
def State.applyReset (s : State) : State :=
  { s.tick with block := { Block.reset with scr := s.draws }, offered := none, resetSeen := true }

/-- The host offers again what it had to hold (spec/70_reset_and_hazards.md R286). -/
def State.keepsOffer (s : State) (e : Edge) : Bool :=
  match s.offered with
  | none => true
  | some q => e.reqValid && e.request == q

/-- A request offered while `req_ready == 0` is one the host must hold (R286). -/
def State.noteOffer (s : State) (e : Edge) : State :=
  { s with offered := if e.reqValid && !s.block.reqReady then some e.request else none }

/-- Before the first reset `st` and every latch are unspecified: after each edge they are free values
(spec/70_reset_and_hazards.md R284, log 9). -/
def State.drift (s : State) : State :=
  { s.tick with
    block :=
      { st := Config.unresetState s.draws
        cmd := Config.unresetCommand s.draws
        res := Config.unresetResponse s.draws
        scr := s.draws } }

/-- A loss of power: the block is in an unknown state until the next reset edge (R284, spec/60_exceptions.md R263). -/
def State.losePower (s : State) : State := { s.drift with resetSeen := false, offered := none }

/-- The machine when power has just been applied, before any reset (R284). -/
def State.powerOn : State := State.reset.losePower

/-- The edge that happens when nothing is scheduled: the host holds what it has to hold, takes nothing, and a BUSY
transaction completes (log 6). -/
def State.idleEdge (s : State) : Edge :=
  match s.offered with
  | none => Edge.quiet
  | some q => Edge.offer q

/-- The machine with a request in `CMD`, BUSY, and an edge next at which it completes (log 7). -/
def State.placeCommand (s : State) (q : Request) : State :=
  { s with
    block := { s.block with st := .busy, cmd := some q, res := none }
    resetSeen := true
    schedule := .edge s.idleEdge :: s.schedule }

/-- `@r`: the result of the most recent response the host took, where its status is OK
(spec/30_encoding.md R82). -/
def State.resultOperand (s : State) : Option Quad :=
  match s.delivered.getLast? with
  | some p => if p.status = .ok then some p.r else none
  | none => none

end Sys2Proof.Machine
end

