-- ==== Sys2Proof/Machine/Rounding.lean ====
section
/-! DEFINITION. The mantissa_rounding_unit: RoundPack (spec/40_limbs_and_rounding.md section 3). -/

namespace Sys2Proof.Machine

/-- The weight exponent of the lowest bit RoundPack keeps of `m * 2^k`, where `2^n <= m < 2^(n+1)`: 129 significant
bits in the normal range, the fixed subnormal weight below it (R112). -/
def roundLsb (n : Nat) (k : Int) : Int :=
  if 1 ≤ n + k + Config.bias then n + k - 128 else Config.lsbMin

/-- The significand RoundPack keeps when `sh` bits of `m` lie below the kept ones: half to even, with the guard bit
and the sticky rest (R112). `2^n <= m < 2^(n+1)`. -/
def roundSignificand (m n : Nat) (sh : Int) (st : Bool) : Nat :=
  if sh ≤ 0 then m <<< (-sh).toNat
  else if n + 2 ≤ sh then 0
  else
    let h := sh.toNat
    let q := m >>> h
    let guard := m.testBit (h - 1)
    let rest := m % 2 ^ (h - 1) != 0 || st
    if guard && (rest || q.testBit 0) then q + 1 else q

/-- The quad of a rounded significand below 2^129 and the weight exponent of its lowest bit: zero, subnormal, Infinity
on overflow, or normal (R112, the last four branches). -/
def packSignificand (s : Bool) (q : Nat) (lsb : Int) : Quad :=
  if q = 0 then zeroQuad s
  else if q < 2 ^ 128 then packQuad s 0 (BitVec.ofNat 128 q)
  else
    let e := lsb + Config.bias + 128
    if (Config.expInf : Int) ≤ e then infQuad s
    else packQuad s (BitVec.ofInt 32 e) (BitVec.ofNat 128 (q - 2 ^ 128))

/-- A significand that rounding has carried out of its 129 bits goes back to 2^128, one binade up (R112). -/
def packRounded (s : Bool) (q : Nat) (lsb : Int) : Quad :=
  if q = 2 ^ 129 then packSignificand s (2 ^ 128) (lsb + 1) else packSignificand s q lsb

/-- `RoundPack` where its precondition holds (R112). -/
def roundPackValue (s : Bool) (m : Nat) (k : Int) (st : Bool) : Quad :=
  if m = 0 then zeroQuad s
  else
    let n := bitLength m - 1
    let lsb := roundLsb n k
    packRounded s (roundSignificand m n (lsb - k) st) lsb

/-- `RoundPack(s, m, k, st)`, refused where its precondition fails (R110, R111, R112). -/
def roundPack (s : Bool) (m : Nat) (k : Int) (st : Bool) : Except Refusal Quad :=
  if st = true ∧ m < 2 ^ 129 then .error .roundPackPrecondition else .ok (roundPackValue s m k st)

end Sys2Proof.Machine
end

