-- ==== Sys2Proof/Machine/AddSubtract.lean ====
section
/-! DEFINITION. QADD and QSUB, and the fp_quad_add_subtract datapath (spec/41_add_subtract.md). -/

namespace Sys2Proof.Machine

/-- The sum of two finite non-zero operands, the one of the larger weight exponent first: the exact signed integer sum,
rounded once; a sum whose smaller operand lies below the cutoff is the larger operand (R140 step 2, R142, R143). -/
def addOrdered (x y : Unpacked) : Except Refusal Quad :=
  let d := (x.exponent - y.exponent).toNat
  if Config.addCutoff ≤ d then roundPack x.sign x.significand x.exponent false
  else
    let t : Int :=
      if x.sign = y.sign then ((x.significand <<< d : Nat) : Int) + (y.significand : Int)
      else ((x.significand <<< d : Nat) : Int) - (y.significand : Int)
    if t = 0 then .ok (zeroQuad false)
    else roundPack (if 0 < t then x.sign else y.sign) t.natAbs y.exponent false

/-- The finite path of QADD (R140 step 2): zeros first, then the operands ordered by weight exponent. -/
def addFinite (a b : Quad) : Except Refusal Quad := do
  let x ← unpack a
  let y ← unpack b
  if x.significand = 0 ∧ y.significand = 0 then .ok (zeroQuad (x.sign && y.sign))
  else if x.significand = 0 then .ok b
  else if y.significand = 0 then .ok a
  else if x.exponent < y.exponent then addOrdered y x
  else addOrdered x y

/-- `QADD(a, b)` (R140, R141). -/
def qadd (a b : Quad) : Except Refusal Quad :=
  if classOf a = .nan ∨ classOf b = .nan then .ok nanQuad
  else if classOf a = .infinity ∧ classOf b = .infinity then
    if signOf a ≠ signOf b then .ok nanQuad else .ok (infQuad (signOf a))
  else if classOf a = .infinity then .ok (infQuad (signOf a))
  else if classOf b = .infinity then .ok (infQuad (signOf b))
  else addFinite a b

/-- `QSUB(a, b)`: the sign of b is flipped before any special case (R150, spec/90_conflicts.md C6). -/
def qsub (a b : Quad) : Except Refusal Quad := qadd a (flipSign b)

/-- QADD (R140): the COMPLETE of a QADD request. -/
def execQadd (a b : Quad) (s : State) : Host.Outcome State Fault Refusal := s.finish (qadd a b)

/-- QSUB (R150): the COMPLETE of a QSUB request. -/
def execQsub (a b : Quad) (s : State) : Host.Outcome State Fault Refusal := s.finish (qsub a b)

/-- `AddDatapath` on operands already ordered: `ka > kb`, or `ka = kb` and `Ma >= Mb` (R144). Three low bits stand for
guard, round and sticky; the bits shifted out are jammed into the lowest. -/
def addDatapathOrdered (x y : Unpacked) : Except Refusal Quad :=
  let dd := min (x.exponent - y.exponent).toNat 133
  let wide := y.significand <<< 3
  let sticky := wide % 2 ^ dd != 0
  let aligned := (wide >>> dd) ||| (if sticky then 1 else 0)
  let t := if x.sign = y.sign then (x.significand <<< 3) + aligned else (x.significand <<< 3) - aligned
  if t = 0 then .ok (zeroQuad false)
  else if t.testBit 0 = true ∧ 2 ^ 130 ≤ t then roundPack x.sign (t >>> 1) (x.exponent - 2) true
  else roundPack x.sign t (x.exponent - 3) false

/-- `AddDatapath` of two finite non-zero operands with their effective signs (R144). -/
def addDatapath (x y : Unpacked) : Except Refusal Quad :=
  if y.exponent < x.exponent ∨ (x.exponent = y.exponent ∧ y.significand ≤ x.significand) then addDatapathOrdered x y
  else addDatapathOrdered y x

end Sys2Proof.Machine
end

