-- ==== Sys2Proof/Machine/Limb.lean ====
section
/-! DEFINITION. Limb buffers and their primitives, the shared datapath of the kernels
(spec/40_limbs_and_rounding.md section 2). -/

namespace Sys2Proof.Machine

/-- `IntVal(L)`: slot `i` of an `n`-slot buffer weighs 2^(32*(n-1-i)) (R102). -/
def intVal : Limbs → Nat
  | [] => 0
  | x :: l => x.toNat * 2 ^ (32 * l.length) + intVal l

/-- The `n`-slot buffer of an integer below 2^(32n), 32 bits a slot, the most significant first (R102, R103). -/
def toLimbs : Nat → Nat → Limbs
  | 0, _ => []
  | n + 1, m => BitVec.ofNat 64 (m / 2 ^ (32 * n) % 2 ^ 32) :: toLimbs n m

/-- `isEmpty(L)`: every slot is 0 (R104). -/
def limbsEmpty (l : Limbs) : Bool := l.all fun x => x == 0

/-- The low half of a slot, the high half masked away (R105). -/
def lowHalf (t : Slot) : Slot := t &&& 0xFFFFFFFF#64

/-- The high half of a slot, where a borrow or a carry shows (R105, R106). -/
def highHalf (t : Slot) : Slot := t >>> 32

/-- Slot by slot subtraction with a borrow that enters at the right and is returned at the left, in 64-bit slot
arithmetic: a high half that is not zero is a borrow (R105). -/
def subtractSlots : List (Slot × Slot) → Bool → Limbs × Bool
  | [], borrow => ([], borrow)
  | (m, s) :: l, borrow =>
    let right := subtractSlots l borrow
    let t : Slot := m - s - (BitVec.ofBool right.2).zeroExtend 64
    (lowHalf t :: right.1, highHalf t != 0)

/-- Slot by slot addition with a carry that enters at the right and is returned at the left: the high half is the carry
(R106). -/
def addSlots : List (Slot × Slot) → Bool → Limbs × Bool
  | [], carry => ([], carry)
  | (m, s) :: l, carry =>
    let right := addSlots l carry
    let t : Slot := m + s + (BitVec.ofBool right.2).zeroExtend 64
    (lowHalf t :: right.1, highHalf t != 0)

/-- `S` aligned under `M` at offset `o`: the slots of `M` from 0 to the last slot of `S`, each beside its slot of `S`,
or beside 0 left of them (R105: slot `j` of `S` stands under slot `j + o` of `M`). -/
def alignedPairs (m s : Limbs) (o : Nat) : List (Slot × Slot) :=
  (m.take (o + s.length)).zip (List.replicate o 0 ++ s)

/-- `subtractAligned(M, S, o)`: the difference in place and the borrow out of slot 0; refused where `S` leaves `M`
(R105). -/
def subtractAligned (m s : Limbs) (o : Nat) : Except Refusal (Limbs × Bool) :=
  if o + s.length ≤ m.length then
    let d := subtractSlots (alignedPairs m s o) false
    .ok (d.1 ++ m.drop (o + s.length), d.2)
  else .error .scratchOutOfRange

/-- `addAligned(M, S, o)`: the sum in place and the carry out of slot 0; refused where `S` leaves `M` (R106). -/
def addAligned (m s : Limbs) (o : Nat) : Except Refusal (Limbs × Bool) :=
  if o + s.length ≤ m.length then
    let d := addSlots (alignedPairs m s o) false
    .ok (d.1 ++ m.drop (o + s.length), d.2)
  else .error .scratchOutOfRange

/-- The comparison of slots side by side: the first unequal pair from index 0 decides (R107). -/
def compareSlots : List (Slot × Slot) → Ordering
  | [] => .eq
  | (x, y) :: l => if x.toNat < y.toNat then .lt else if y.toNat < x.toNat then .gt else compareSlots l

/-- `compare(A, B)` of two buffers of equal length (R107). The rule defines no other; buffers of unequal length are
refused (DESIGN CHOICE, log 22). -/
def compareLimbs (a b : Limbs) : Except Refusal Ordering :=
  if a.length = b.length then .ok (compareSlots (a.zip b)) else .error .scratchOutOfRange

/-- `shiftLeft(L, d)`; refused where the result is not below 2^(32n) (R108). -/
def shiftLeftLimbs (l : Limbs) (d : Nat) : Except Refusal Limbs :=
  if intVal l = 0 then .ok l
  else if Nat.log2 (intVal l) + d < 32 * l.length then .ok (toLimbs l.length (intVal l <<< d))
  else .error .scratchOutOfRange

/-- `shiftRight(L, d)` and its sticky: whether a bit shifted out was 1 (R108). -/
def shiftRightLimbs (l : Limbs) (d : Nat) : Limbs × Bool :=
  (toLimbs l.length (intVal l >>> d), intVal l != (intVal l >>> d) <<< d)

end Sys2Proof.Machine
end

