-- ==== Sys2Proof/Machine/Divide.lean ====
section
/-! DEFINITION. QDIV and the fp_quad_divide_knuth kernel (spec/43_divide.md). -/

namespace Sys2Proof.Machine

/-- The finite path of QDIV: a quotient of 260 extra bits, its remainder as the sticky, rounded once (R190 step 2,
R193). -/
def divFinite (s : Bool) (a b : Quad) : Except Refusal Quad := do
  let x ← unpack a
  let y ← unpack b
  let n := x.significand <<< Config.divisionExtension
  roundPack s (n / y.significand) (x.exponent - y.exponent - Config.divisionExtension) (n % y.significand != 0)

/-- `QDIV(a, b)` (R190, R191, R192). -/
def qdiv (a b : Quad) : Except Refusal Quad :=
  let s := signOf a ^^ signOf b
  if classOf a = .nan ∨ classOf b = .nan then .ok nanQuad
  else if classOf a = .infinity ∧ classOf b = .infinity then .ok nanQuad
  else if classOf a = .infinity then .ok (infQuad s)
  else if classOf b = .infinity then .ok (zeroQuad s)
  else if classOf b = .zero then
    if classOf a = .zero then .ok nanQuad else .ok (infQuad s)
  else if classOf a = .zero then .ok (zeroQuad s)
  else divFinite s a b

/-- QDIV (R190): the COMPLETE of a QDIV request. -/
def execQdiv (a b : Quad) (s : State) : Host.Outcome State Fault Refusal := s.finish (qdiv a b)

/-- What the division kernel gives: the 129-bit quotient, the remainder, the round-up bit and the weight exponent
(R195). -/
structure DivResult where
  quotient : Nat
  remainder : Nat
  roundUp : Bool
  exponent : Int
deriving DecidableEq, Repr

/-- One limb of the kernel (R195 steps 2 to 4): the trial limb from the top 64 bits of the divisor, and one add-back
correction where it was too large. It gives the limb and the new remainder. -/
def divLimb (d r : Nat) : Nat × Int :=
  let n := r <<< 32
  let trial := (n >>> 65) / (d >>> 65)
  let r' : Int := (n : Int) - (trial * d : Nat)
  if r' < 0 then (trial - 1, r' + d) else (trial, r')

/-- The limbs still to come, stopping early when the remainder is zero (R195 steps 2 to 5, R198). -/
def divLimbs (d : Nat) : Nat → Nat → Nat → Nat × Nat
  | 0, q, r => (q, r)
  | n + 1, q, r =>
    if r = 0 then (q <<< (32 * (n + 1)), 0)
    else divLimbs d n ((q <<< 32) + (divLimb d r).1) (divLimb d r).2.toNat

/-- The pre-shift: a dividend below the divisor is doubled and the exponent lowered (R195, R200). -/
def divPreShift (ma mb : Nat) (k : Int) : Nat × Int := if ma < mb then (ma <<< 1, k - 1) else (ma, k)

/-- `DivKernel` of two normalized significands (R195, R199). -/
def divKernel (ma : Nat) (ka : Int) (mb : Nat) (kb : Int) : DivResult :=
  let p := divPreShift ma mb (ka - kb - 128)
  let l := divLimbs mb 4 1 (p.1 - mb)
  { quotient := l.1, remainder := l.2, roundUp := decide (mb ≤ 2 * l.2), exponent := p.2 }

/-- The caller's rounding of the kernel's output (R201). -/
def divAssemble (s : Bool) (d : Nat) (k : DivResult) : Except Refusal Quad :=
  roundPack s (2 * k.quotient + k.roundUp.toNat) (k.exponent - 1) (2 * k.remainder - k.roundUp.toNat * d != 0)

/-- The fp_quad_divide_knuth datapath of two finite non-zero operands (R195, R201). -/
def divDatapath (s : Bool) (x y : Unpacked) : Except Refusal Quad :=
  let a := normalize x.significand x.exponent
  let b := normalize y.significand y.exponent
  divAssemble s b.1 (divKernel a.1 a.2 b.1 b.2)

/-- One limb of the kernel on limb buffers (R197, log 17): `w` is the 10-slot remainder buffer, `o` the offset of the
limb; the product `qh * D` is a 6-slot buffer subtracted at `o`, and a borrow out of slot 0 takes back one divisor, whose
carry is dropped. -/
def divLimbBuffers (d : Nat) (w : Limbs) (o : Nat) : Except Refusal (Nat × Limbs) := do
  let trial := ((intVal w / 2 ^ (32 * (4 - o))) >>> 65) / (d >>> 65)
  let difference ← subtractAligned w (toLimbs 6 (trial * d)) o
  if difference.2 then
    let restored ← addAligned difference.1 (toLimbs 6 d) o
    .ok (trial - 1, restored.1)
  else .ok (trial, difference.1)

/-- The limbs still to come, on limb buffers: the same loop, the divisor moving one slot right a limb (R197, R198). -/
def divBuffers (d : Nat) : Nat → Nat → Limbs → Except Refusal (Nat × Limbs)
  | 0, q, w => .ok (q, w)
  | n + 1, q, w =>
    if limbsEmpty w then .ok (q <<< (32 * (n + 1)), w)
    else do
      let l ← divLimbBuffers d w (3 - n)
      divBuffers d n ((q <<< 32) + l.1) l.2

/-- What the kernel gives on limb buffers: the quotient, the 10-slot remainder buffer, which holds the remainder moved
one slot left, and the round-up bit. -/
structure DivBufferResult where
  quotient : Nat
  buffer : Limbs
  roundUp : Bool
deriving DecidableEq, Repr

/-- `DivKernel` on the 10-slot dividend/remainder buffer and the 5-slot divisor buffer, with the round-up bit from the
`compare` of the doubled remainder and the divisor (R195, R197, R199, log 17). -/
def divKernelBuffers (ma mb : Nat) : Except Refusal DivBufferResult := do
  let first ← subtractAligned (toLimbs Config.remainderWords ((divPreShift ma mb 0).1 * 2 ^ 160))
    (toLimbs Config.divisorWords mb) 0
  let l ← divBuffers mb 4 1 first.1
  let doubled ← shiftLeftLimbs l.2 1
  let order ← compareLimbs doubled (toLimbs Config.remainderWords (mb * 2 ^ 32))
  .ok
    { quotient := l.1
      buffer := l.2
      roundUp := order != .lt }

end Sys2Proof.Machine
end

