-- ==== Sys2Proof/Machine/Multiply.lean ====
section
/-! DEFINITION. QMUL and the fp_quad_multiply datapath (spec/42_multiply.md). -/

namespace Sys2Proof.Machine

/-- The finite path of QMUL: the exact product, rounded once (R170 step 2, R172, R173). -/
def mulFinite (s : Bool) (a b : Quad) : Except Refusal Quad := do
  let x ← unpack a
  let y ← unpack b
  if x.significand = 0 ∨ y.significand = 0 then .ok (zeroQuad s)
  else roundPack s (x.significand * y.significand) (x.exponent + y.exponent) false

/-- `QMUL(a, b)` (R170, R171, R172). -/
def qmul (a b : Quad) : Except Refusal Quad :=
  let s := signOf a ^^ signOf b
  if classOf a = .nan ∨ classOf b = .nan then .ok nanQuad
  else if (classOf a = .infinity ∧ classOf b = .zero) ∨ (classOf a = .zero ∧ classOf b = .infinity) then .ok nanQuad
  else if classOf a = .infinity ∨ classOf b = .infinity then .ok (infQuad s)
  else mulFinite s a b

/-- QMUL (R170): the COMPLETE of a QMUL request. -/
def execQmul (a b : Quad) (s : State) : Host.Outcome State Fault Refusal := s.finish (qmul a b)

/-- The value of slot `i` of a buffer, 0 beyond its end. -/
def limbAt (l : Limbs) (i : Nat) : Nat := (l.getD i 0).toNat

/-- The sum of the partial products of column `t`: `A[i] * B[j]` over all slots with `i + j = t` (R174). -/
def mulColumn (a b : Limbs) (t : Nat) : Nat :=
  ((List.range (t + 1)).map fun i => limbAt a i * limbAt b (t - i)).sum

/-- The columns left of column `n`, from the least significant on: each leaves 32 bits in its slot and carries the rest
(R174). `done` holds the slots already made. -/
def mulColumns (a b : Limbs) : Nat → Nat → Limbs → Limbs
  | 0, _, done => done
  | n + 1, carry, done =>
    mulColumns a b n ((carry + mulColumn a b n) >>> 32)
      (BitVec.ofNat 64 ((carry + mulColumn a b n) % 2 ^ 32) :: done)

/-- `MulLimbs(A, B)`: the 9-slot product buffer of two 5-slot buffers (R174). -/
def mulLimbs (a b : Limbs) : Limbs := mulColumns a b 9 0 []

/-- The fp_quad_multiply datapath of two finite non-zero operands: normalize, multiply the 5-slot buffers, round the
product buffer (R174). -/
def mulDatapath (s : Bool) (x y : Unpacked) : Except Refusal Quad :=
  let a := normalize x.significand x.exponent
  let b := normalize y.significand y.exponent
  roundPack s (intVal (mulLimbs (toLimbs Config.divisorWords a.1) (toLimbs Config.divisorWords b.1))) (a.2 + b.2) false

end Sys2Proof.Machine
end

