-- ==== Sys2Proof/Machine/Sqrt.lean ====
section
/-! DEFINITION. QSQRT and the fp_quad_sqrt kernel (spec/44_sqrt.md). -/

namespace Sys2Proof.Machine

/-- Exponent halving: an odd weight exponent is lowered by one and the significand doubled (R222). -/
def evenExponent (m : Nat) (k : Int) : Nat × Int := if k % 2 = 1 then (m <<< 1, k - 1) else (m, k)

/-- The root of a positive finite non-zero operand: an integer root of 262 extra bits, the inexactness as the sticky,
rounded once (R220 step 2, R223). -/
def sqrtFinite (a : Quad) : Except Refusal Quad := do
  let u ← unpack a
  let e := evenExponent u.significand u.exponent
  let x := e.1 <<< Config.sqrtExtension
  let q := isqrt x
  roundPack false q (e.2 / 2 - 131) (q * q != x)

/-- `QSQRT(a)` (R220, R221, spec/90_conflicts.md C5). -/
def qsqrt (a : Quad) : Except Refusal Quad :=
  if classOf a = .nan then .ok nanQuad
  else if classOf a = .zero then .ok a
  else if signOf a = true then .ok nanQuad
  else if classOf a = .infinity then .ok (infQuad false)
  else sqrtFinite a

/-- QSQRT (R220): the COMPLETE of a QSQRT request. `_b`, the request's second operand, is not read. -/
def execQsqrt (a _b : Quad) (s : State) : Host.Outcome State Fault Refusal := s.finish (qsqrt a)

/-- What the square-root kernel gives (R225). -/
structure SqrtResult where
  root : Nat
  remainder : Nat
  roundUp : Bool
  exponent : Int
deriving DecidableEq, Repr

/-- The output bits still to come, the most significant first: bring down a bit pair, try the next bit, keep it where it
fits (R225). -/
def sqrtBits (x : Nat) : Nat → Nat → Nat → Nat × Nat
  | 0, root, rem => (root, rem)
  | i + 1, root, rem =>
    let r := (rem <<< 2) + (x >>> (2 * i)) % 4
    if (root <<< 2) + 1 ≤ r then sqrtBits x i ((root <<< 1) + 1) (r - ((root <<< 2) + 1))
    else sqrtBits x i (root <<< 1) r

/-- `SqrtKernel` of a normalized significand (R225, R226). -/
def sqrtKernel (m : Nat) (k : Int) : SqrtResult :=
  let e := evenExponent m k
  let b := sqrtBits (e.1 <<< 128) 129 0 0
  { root := b.1, remainder := b.2, roundUp := decide (b.1 < b.2), exponent := e.2 }

/-- The fp_quad_sqrt datapath of a positive finite non-zero operand (R225, R227). -/
def sqrtDatapath (u : Unpacked) : Except Refusal Quad :=
  let n := normalize u.significand u.exponent
  let k := sqrtKernel n.1 n.2
  roundPack false (2 * k.root + k.roundUp.toNat) (k.exponent / 2 - 65) (k.remainder != 0)

end Sys2Proof.Machine
end

