-- ==== Sys2Proof/Machine/Dispatch.lean ====
section
/-! DEFINITION. The meaning of each instruction: the COMPLETE of its request (spec/10_state.md R41, R42). -/

namespace Sys2Proof.Machine

def exec (i : Instr) (s : State) : Host.Outcome State Fault Refusal :=
  match i with
  | .qadd a b => Sys2Proof.Machine.execQadd a b s
  | .qsub a b => Sys2Proof.Machine.execQsub a b s
  | .qmul a b => Sys2Proof.Machine.execQmul a b s
  | .qdiv a b => Sys2Proof.Machine.execQdiv a b s
  | .qsqrt a b => Sys2Proof.Machine.execQsqrt a b s

end Sys2Proof.Machine
end

