-- ==== Sys2Proof/Machine/Clock.lean ====
section
/-! DEFINITION. What happens at one event: a rising clock edge, a look at the response port, a loss of power
(spec/10_state.md section 3, spec/70_reset_and_hazards.md). -/

namespace Sys2Proof.Machine

/-- COMPLETE (R41, R42): the request in `CMD` is decoded and executed; a reserved opcode gives ILLEGAL_OP, before any
operand is looked at (spec/60_exceptions.md R253). -/
def State.completeCommand (s : State) : Host.Outcome State Fault Refusal :=
  match s.block.readCommand with
  | .error f => .fault f
  | .ok q =>
    match decodeRequest q with
    | .ok i => exec i s
    | .error _ => .next s.respondIllegal

/-- The transaction step of an edge without reset: ACCEPT in IDLE, COMPLETE in BUSY at the edge the implementation
chooses, DELIVER in DONE; at most one of them (R40, R41, R43). -/
def State.transact (s : State) (e : Edge) : Host.Outcome State Fault Refusal :=
  match s.block.st with
  | .idle => .next (if e.reqValid then s.accept e.request else s)
  | .busy => if e.completes then s.completeCommand else .next s
  | .done => if e.rspReady then s.deliver else .next s

/-- A rising clock edge: reset first (R44), then the host's obligations (R284, R286), then the transaction step. -/
def State.clockEdge (s : State) (e : Edge) : Host.Outcome State Fault Refusal :=
  if e.rst then .next s.applyReset
  else if s.resetSeen = false then
    if e.reqValid then .fault .requestBeforeReset else .next s.drift
  else if s.keepsOffer e then (s.tick.noteOffer e).transact e
  else .fault .requestNotHeld

/-- One event. -/
def State.event (s : State) (v : Event) : Host.Outcome State Fault Refusal :=
  match v with
  | .edge e => s.clockEdge e
  | .readResponse => s.readResponse
  | .losePower => .next s.losePower

/-- The next event: the first one scheduled, or an idle edge where none is (log 5, log 6). -/
def State.nextEvent (s : State) : Host.Outcome State Fault Refusal :=
  match s.schedule with
  | [] => s.clockEdge s.idleEdge
  | v :: vs => (s.withSchedule vs).event v

end Sys2Proof.Machine
end

