-- ==== Sys2Proof/Machine/Step.lean ====
section
/-! DEFINITION. One step of the machine, and the placing of a request where the next step completes it. -/

namespace Sys2Proof.Machine

/-- One step: one event of the schedule (log 5). -/
def step (s : State) : Host.Outcome State Fault Refusal := s.nextEvent

/-- The state whose very next step runs the instruction of the table word `w`: its request in `CMD`, the block BUSY, and
an edge next at which it completes (log 7). -/
def State.withFetchWord (s : State) (nbits w : Nat) : State :=
  s.placeCommand (requestOfWord (BitVec.ofNat 325 (tableWord nbits w)))

end Sys2Proof.Machine
end

