-- ==== Sys2Proof/Machine/Value.lean ====
section
/-! DEFINITION. The real values of quads and what it means to be correctly rounded (spec/00_scope.md R12,
spec/10_state.md R23 to R26, spec/40_limbs_and_rounding.md R113). No instruction's meaning uses these; claims do. -/

namespace Sys2Proof.Machine

/-- `(-1)^s` (spec/00_scope.md R12). -/
def signFactor (s : Bool) : ℚ := if s then -1 else 1

/-- `val(x)` of a finite quad; none on Infinity and NaN, which have no real value (spec/10_state.md R23 to R27). -/
def valueOf (x : Quad) : Option ℚ :=
  match classOf x with
  | .normal => some (signFactor (signOf x) * (1 + fractionOf x * 2 ^ (-128 : ℤ)) * 2 ^ ((exponentOf x : ℤ) - Config.bias))
  | .subnormal => some (signFactor (signOf x) * (fractionOf x * 2 ^ (-128 : ℤ)) * 2 ^ (1 - Config.bias))
  | .zero => some 0
  | .infinity => none
  | .nan => none

/-- `MIN_SUBNORMAL` (spec/00_scope.md R8). -/
def minSubnormal : ℚ := 2 ^ Config.lsbMin

/-- `MIN_NORMAL` (R8). -/
def minNormal : ℚ := 2 ^ (1 - Config.bias)

/-- `MAX_FINITE` (R8). -/
def maxFinite : ℚ := (2 - 2 ^ (-128 : ℤ)) * 2 ^ ((Config.emaxField : ℤ) - Config.bias)

/-- `OV = 2^(EMAX_FIELD - BIAS + 1)`, the point beyond the grid that a rounded overflow stands for
(spec/40_limbs_and_rounding.md R113). -/
def overflowPoint : ℚ := 2 ^ ((Config.emaxField : ℤ) - Config.bias + 1)

/-- The magnitude of the point of `G ∪ {OV}` that a quad stands for: its value's for a finite quad, `OV` for an
Infinity; a NaN stands for none (R113). -/
def gridPoint (x : Quad) : Option ℚ :=
  match classOf x with
  | .infinity => some overflowPoint
  | .nan => none
  | .normal => (valueOf x).map abs
  | .subnormal => (valueOf x).map abs
  | .zero => (valueOf x).map abs

/-- The quad `r` stands for the point of `G ∪ {OV}` nearest to the magnitude `v`; where another point is as near, the
integer significand of `r` is even. The significand's lowest bit is the fraction's, and `OV` counts as 2^128 (R113). -/
def NearestEven (v : ℝ) (r : Quad) : Prop :=
  ∃ g, gridPoint r = some g ∧
    ∀ x p, gridPoint x = some p →
      |v - (g : ℝ)| ≤ |v - (p : ℝ)| ∧ (|v - (g : ℝ)| = |v - (p : ℝ)| → p ≠ g → r.getLsbD 0 = false)

end Sys2Proof.Machine
end

