-- ==== Sys2Proof/Machine/Assembler.lean ====
section
/-! DEFINITION. The assembler: literals, command lines and the raw form (spec/30_encoding.md section 4, log 18). -/

namespace Sys2Proof.Machine

/-- The named literals (R81). -/
inductive QuadName where
  | posInf
  | negInf
  | nan
  | maxFinite
  | minNormal
  | minSubnormal
  | maxSubnormal
deriving DecidableEq, Repr

/-- A quad literal (R81): packed hexadecimal (its 41 digits as a number), a tuple of the four fields, an exact binary
rational `[-]n*2^k`, or a name with an optional `-` before it. -/
inductive Literal where
  | packed (digits : Nat)
  | tuple (sign exponent high low : Nat)
  | rational (negative : Bool) (n : Nat) (k : Int)
  | named (negative : Bool) (name : QuadName)
deriving DecidableEq, Repr

/-- An operand of a command line: a literal, or `@r` (R80, R82). -/
inductive AsmOperand where
  | literal (l : Literal)
  | lastResult
deriving DecidableEq, Repr

/-- A line: a two-operand command, `QSQRT <a>`, or the raw form `.req`, whose operands are literals (R80, R84). -/
inductive AsmLine where
  | binary (op : Opcode) (a b : AsmOperand)
  | root (a : AsmOperand)
  | raw (op : Opcode) (a b : Literal)
deriving DecidableEq, Repr

/-- The quad of a name (R81). -/
def quadOfName : QuadName → Quad
  | .posInf => infQuad false
  | .negInf => infQuad true
  | .nan => nanQuad
  | .maxFinite => packQuad false (BitVec.ofNat 32 Config.emaxField) (BitVec.allOnes 128)
  | .minNormal => packQuad false 1 0
  | .minSubnormal => packQuad false 0 1
  | .maxSubnormal => packQuad false 0 (BitVec.allOnes 128)

/-- The quad `RoundPack(s, n, k, false)` where it is exactly `n * 2^k`; refused where it is not (R81). -/
def exactQuad (s : Bool) (n : Nat) (k : Int) : Except Refusal Quad := do
  let r ← roundPack s n k false
  if n = 0 then .ok r
  else
    match unpack r with
    | .error _ => .error .literalIsNoQuad
    | .ok u =>
      if u.significand = 0 then .error .literalIsNoQuad
      else if n <<< (k - u.exponent).toNat = u.significand <<< (u.exponent - k).toNat then .ok r
      else .error .literalIsNoQuad

/-- The quad of a literal; refused where it names none (R81). -/
def literalQuad : Literal → Except Refusal Quad
  | .packed d => if d < 2 ^ 161 then .ok (BitVec.ofNat 161 d) else .error .literalIsNoQuad
  | .tuple s e h l =>
    if s < 2 ∧ e < 2 ^ 32 ∧ h < 2 ^ 64 ∧ l < 2 ^ 64 then
      .ok (packQuad (s == 1) (BitVec.ofNat 32 e) (BitVec.ofNat 64 h ++ BitVec.ofNat 64 l))
    else .error .literalIsNoQuad
  | .rational s n k => exactQuad s n k
  | .named s m => .ok (if s then quadOfName m ||| packQuad true 0 0 else quadOfName m)

/-- The quad of an operand; `@r` is the last OK result, refused where there is none (R82). -/
def operandQuad (last : Option Quad) : AsmOperand → Except Refusal Quad
  | .literal l => literalQuad l
  | .lastResult =>
    match last with
    | some q => .ok q
    | none => .error .noResultOperand

/-- The request a line assembles to; `QSQRT <a>` takes b = +0 (R80, R84). -/
def assemble (last : Option Quad) : AsmLine → Except Refusal Request
  | .binary op a b => do .ok ⟨op, ← operandQuad last a, ← operandQuad last b⟩
  | .root a => do .ok ⟨0b100#3, ← operandQuad last a, zeroQuad false⟩
  | .raw op a b => do .ok ⟨op, ← literalQuad a, ← literalQuad b⟩

/-! The text of a line -/

/-- The value of a digit, in either case of its letter. -/
def digitValue (c : Char) : Option Nat :=
  if '0' ≤ c ∧ c ≤ '9' then some (c.toNat - 48)
  else if 'a' ≤ c ∧ c ≤ 'f' then some (c.toNat - 87)
  else if 'A' ≤ c ∧ c ≤ 'F' then some (c.toNat - 55)
  else none

/-- The number of a string of digits in a base, read on from `acc`. -/
def digitsFrom (base acc : Nat) : List Char → Option Nat
  | [] => some acc
  | c :: l =>
    match digitValue c with
    | some d => if d < base then digitsFrom base (base * acc + d) l else none
    | none => none

/-- The number of a non-empty string of digits in a base. -/
def digits (base : Nat) : List Char → Option Nat
  | [] => none
  | c :: l => digitsFrom base 0 (c :: l)

/-- A number in decimal or hexadecimal `0x`: a field of a tuple (R81). -/
def fieldNumber : List Char → Option Nat
  | '0' :: 'x' :: l => digits 16 l
  | l => digits 10 l

/-- The opcode of the raw form, in decimal, hexadecimal `0x` or binary `0b` (log 18). -/
def opcodeNumber : List Char → Option Nat
  | '0' :: 'b' :: l => digits 2 l
  | l => fieldNumber l

/-- An integer in decimal, with an optional `-`. -/
def integer : List Char → Option Int
  | '-' :: l => (digits 10 l).map fun n => -(n : Int)
  | l => (digits 10 l).map fun n => (n : Int)

/-- A space or a tab. -/
def isBlank (c : Char) : Bool := c == ' ' || c == '\t'

/-- A text without the blanks at its ends. -/
def trimBlanks (l : List Char) : List Char := ((l.dropWhile isBlank).reverse.dropWhile isBlank).reverse

/-- A text cut at the commas that stand in no bracket. `depth` counts the brackets open, `piece` holds the piece being
read, backwards. -/
def splitCommas (depth : Nat) (piece : List Char) : List Char → List (List Char)
  | [] => [piece.reverse]
  | c :: l =>
    if c = ',' ∧ depth = 0 then piece.reverse :: splitCommas 0 [] l
    else if c = '(' then splitCommas (depth + 1) (c :: piece) l
    else if c = ')' then splitCommas (depth - 1) (c :: piece) l
    else splitCommas depth (c :: piece) l

/-- A name (R81). -/
def parseName (l : List Char) : Option QuadName :=
  if l = ['+', 'i', 'n', 'f'] then some .posInf
  else if l = ['-', 'i', 'n', 'f'] then some .negInf
  else if l = ['n', 'a', 'n'] then some .nan
  else if l = ['M', 'A', 'X'] then some .maxFinite
  else if l = ['M', 'I', 'N', 'N'] then some .minNormal
  else if l = ['M', 'I', 'N', 'S'] then some .minSubnormal
  else if l = ['M', 'A', 'X', 'S'] then some .maxSubnormal
  else none

/-- A rational without its sign: `n` or `n*2^k` (R81). -/
def parseRational (negative : Bool) (l : List Char) : Option Literal :=
  let n := l.takeWhile fun c => c != '*'
  match l.dropWhile fun c => c != '*' with
  | [] => (digits 10 n).map fun n => .rational negative n 0
  | '*' :: '2' :: '^' :: k =>
    match digits 10 n, integer k with
    | some n, some k => some (.rational negative n k)
    | _, _ => none
  | _ => none

/-- A tuple's four fields, between its brackets, each in decimal or hexadecimal (R81). -/
def parseTuple (l : List Char) : Option Literal :=
  match (splitCommas 0 [] l).map fun f => fieldNumber (trimBlanks f) with
  | [some s, some e, some h, some m] => some (.tuple s e h m)
  | _ => none

/-- A text without an underscore at its head. -/
def skipUnderscore : List Char → List Char
  | '_' :: l => l
  | l => l

/-- Packed hexadecimal, after its `0x`: 1, 8, 16 and 16 digits, between which an underscore may stand or be left out (R81;
each on its own, log 18). -/
def parsePacked (l : List Char) : Option Literal :=
  let exponent := skipUnderscore (l.drop 1)
  let high := skipUnderscore (exponent.drop 8)
  let low := skipUnderscore (high.drop 16)
  let d := l.take 1 ++ exponent.take 8 ++ high.take 16 ++ low
  if d.length = 41 then (digits 16 d).map .packed else none

/-- A literal: a name with an optional `-` before it, packed hexadecimal, a tuple, or a rational (R81). -/
def parseLiteral (l : List Char) : Option Literal :=
  match parseName l with
  | some m => some (.named false m)
  | none =>
    match l with
    | '0' :: 'x' :: r => parsePacked r
    | '(' :: r => if r.getLast? = some ')' then parseTuple r.dropLast else none
    | '-' :: r =>
      match parseName r with
      | some m => some (.named true m)
      | none => parseRational true r
    | _ => parseRational false l

/-- An operand: `@r` or a literal (R80, R82). -/
def parseOperand (l : List Char) : Option AsmOperand :=
  if l = ['@', 'r'] then some .lastResult else (parseLiteral l).map .literal

/-- The opcode of a two-operand mnemonic, written in lower case (R73, R80). -/
def binaryMnemonic (l : List Char) : Option Opcode :=
  if l = ['q', 'a', 'd', 'd'] then some 0b000#3
  else if l = ['q', 's', 'u', 'b'] then some 0b001#3
  else if l = ['q', 'm', 'u', 'l'] then some 0b010#3
  else if l = ['q', 'd', 'i', 'v'] then some 0b011#3
  else none

/-- The command of a mnemonic, in lower case, and its operands (R80, R84). -/
def parseCommand (word : List Char) (operands : List (List Char)) : Option AsmLine :=
  match binaryMnemonic word, operands with
  | some op, [a, b] =>
    match parseOperand a, parseOperand b with
    | some a, some b => some (.binary op a b)
    | _, _ => none
  | some _, _ => none
  | none, [a] => if word = ['q', 's', 'q', 'r', 't'] then (parseOperand a).map .root else none
  | none, [op, a, b] =>
    if word = ['.', 'r', 'e', 'q'] then
      match opcodeNumber op, parseLiteral a, parseLiteral b with
      | some op, some a, some b => if op < 8 then some (.raw (BitVec.ofNat 3 op) a b) else none
      | _, _, _ => none
    else none
  | none, _ => none

/-- A line of text: nothing where it holds only blanks or a comment, which `;` starts; mnemonics are read in either
case (R80). DESIGN CHOICE: so is the directive `.req`, of whose case R84 says nothing (log 18). -/
def parseLine (text : List Char) : Except Refusal (Option AsmLine) :=
  let l := trimBlanks (text.takeWhile fun c => c != ';')
  if l = [] then .ok none
  else
    let word := (l.takeWhile fun c => !isBlank c).map Char.toLower
    let rest := l.dropWhile fun c => !isBlank c
    match parseCommand word ((splitCommas 0 [] rest).map trimBlanks) with
    | some c => .ok (some c)
    | none => .error .lineNotUnderstood

end Sys2Proof.Machine
end

