-- ==== Sys2Proof/Machine/Program.lean ====
section
/-! DEFINITION. Runs: several steps, a transaction, the host's programs (spec/30_encoding.md R83), and several instances
of the block (spec/20_memory.md R61). -/

namespace Sys2Proof.Machine

/-- `n` steps, stopping at the first fault or refusal. -/
def runSteps : Nat → State → Host.Outcome State Fault Refusal
  | 0, s => .next s
  | n + 1, s =>
    match step s with
    | .next t => runSteps n t
    | .fault f => .fault f
    | .refused r => .refused r

/-- The events of one transaction of a host that obeys the handshake: the request, `n` edges at which it is not complete
yet, the completing edge, `m` edges at which the host is not ready for the response, and the edge that takes it. Its
LATENCY is `n + 1` (spec/10_state.md R40, R41, R43). -/
def transactionEvents (q : Request) (n m : Nat) : List Event :=
  .edge (Edge.offer q) ::
    (List.replicate n (.edge Edge.wait) ++ .edge Edge.quiet :: (List.replicate m (.edge Edge.quiet) ++ [.edge Edge.take]))

/-- One transaction: ACCEPT, waiting for COMPLETE, DELIVER (R83). -/
def runTransaction (q : Request) (n m : Nat) (s : State) : Host.Outcome State Fault Refusal :=
  runSteps (n + m + 3) (s.withSchedule (transactionEvents q n m ++ s.schedule))

/-- A program: its lines in order, each with its `n` and `m` of `transactionEvents`; `@r` is expanded before the line's
request is offered (R82, R83). A line that does not assemble is refused. -/
def runProgram : List (AsmLine × Nat × Nat) → State → Host.Outcome State Fault Refusal
  | [], s => .next s
  | (l, n, m) :: p, s =>
    match assemble s.resultOperand l with
    | .error r => .refused r
    | .ok q =>
      match runTransaction q n m s with
      | .next t => runProgram p t
      | .fault f => .fault f
      | .refused r => .refused r

/-- Several instances of the block: each has its own state, and they share none (spec/20_memory.md R61,
spec/60_exceptions.md R261, log 19). -/
abbrev Instances := List State

/-- A step of instance `i`: the others are as they were (R61). DESIGN CHOICE: the free values of Config take a state's own
draw counter, so the draws of two instances at equal counters are equal (log 8, log 19). -/
def stepInstance (l : Instances) (i : Nat) : Host.Outcome Instances Fault Refusal :=
  match l[i]? with
  | none => .next l
  | some s =>
    match step s with
    | .next t => .next (l.set i t)
    | .fault f => .fault f
    | .refused r => .refused r

end Sys2Proof.Machine
end

