-- ==== Sys2Proof/WellFormed.lean ====
section
/-! DEFINITION. Which requests, responses and instructions are well formed. -/

namespace Sys2Proof

/-- Every instruction is well formed: every 161-bit pattern is a valid quad, so every (op, a, b) with a legal opcode is
a legal command (spec/30_encoding.md R75, spec/10_state.md R28). -/
def Instr.wellFormed : Instr → Bool
  | .qadd _ _ => true
  | .qsub _ _ => true
  | .qmul _ _ => true
  | .qdiv _ _ => true
  | .qsqrt _ _ => true

/-- The request's opcode is one of the five commands', not a reserved one (spec/30_encoding.md R73, R74). -/
def Request.legalOpcode (q : Request) : Bool := q.op.toNat < 5

/-- A response the block can give: an OK response carries the class code of its result, and a NaN result is the
canonical one; an ILLEGAL_OP response carries any class code and result (spec/10_state.md R27, R38,
spec/60_exceptions.md R251). -/
def Response.wellFormed (p : Response) : Bool :=
  match p.status with
  | .ok =>
    p.cls == Machine.classCode (Machine.classOf p.r)
      && (Machine.classOf p.r != .nan || p.r == Machine.nanQuad)
  | .illegalOp => true

/-- A limb buffer between primitives: every slot holds a value below 2^32 (spec/40_limbs_and_rounding.md R102, R109). -/
def Limbs.wellFormed (l : Limbs) : Bool := l.all fun x => x.toNat < 2 ^ 32

end Sys2Proof
end

