-- ==== Sys2Proof/Safety.lean ====
section
/-! DEFINITION. What counts as a safe run: the invariant of the machine, and the host's obligations. -/

namespace Sys2Proof.Machine

/-- The result quad of a command, as the rules of its family give it (spec/10_state.md R42). -/
def commandResult : Instr → Except Refusal Quad
  | .qadd a b => qadd a b
  | .qsub a b => qsub a b
  | .qmul a b => qmul a b
  | .qdiv a b => qdiv a b
  | .qsqrt a _ => qsqrt a

/-- `CMD` holds a value exactly in BUSY, and `RES` exactly in DONE, where it is a response the block can give
(spec/10_state.md R32, R33, R38). -/
def Block.coherent (b : Block) : Bool :=
  match b.st, b.cmd, b.res with
  | .idle, none, none => true
  | .busy, some _, none => true
  | .done, none, some p => p.wellFormed
  | _, _, _ => false

/-- The invariant of the machine: from the first reset on the block is coherent; before it no request is owed; and every
response delivered is one the block can give. -/
def State.inv (s : State) : Bool :=
  (!s.resetSeen || s.block.coherent) && (s.resetSeen || s.offered.isNone) && s.delivered.all Response.wellFormed

/-- The host obeys its side of the handshake at an event: it holds a request until it is accepted
(spec/70_reset_and_hazards.md R286), offers none before the first reset (R284), and looks at the response port only
while `rsp_valid == 1` (R287). -/
def State.hostObeys (s : State) : Event → Bool
  | .edge e => e.rst || (if s.resetSeen then s.keepsOffer e else !e.reqValid)
  | .readResponse => s.resetSeen && s.block.rspValid
  | .losePower => true

/-- The event that the next step is. -/
def State.upcoming (s : State) : Event :=
  match s.schedule with
  | [] => .edge s.idleEdge
  | v :: _ => v

/-- The next step is the COMPLETE of the request `q`: an edge without reset at which the host keeps its offer, the block is
BUSY with `q` in `CMD`, and the implementation completes it (spec/10_state.md R41). -/
def State.completesNext (s : State) (q : Request) : Prop :=
  ∃ e, s.upcoming = .edge e ∧ e.rst = false ∧ e.completes = true ∧ s.resetSeen = true ∧ s.keepsOffer e = true ∧
    s.block.st = .busy ∧ s.block.cmd = some q

end Sys2Proof.Machine
end

