-- ==== Sys2Proof/Certificates/Slice0/Obligations.lean ====
section
/-! DEFINITION. The statements for the provers. -/

open Sys2Proof Sys2Proof.Machine

/-! Encoding (spec/30_encoding.md) -/

/-- R70, R73: the decoder reads every instruction back from its encoding, with every operand. -/
def Obligations.EncodedInstructionDecodesBack : Prop :=
  ∀ i : Instr, decode (encode i) = .ok i

/-- R70, R73: a word that decodes is the encoding of what it decodes to: no bit of the word is dropped. -/
def Obligations.DecodedWordEncodesBack : Prop :=
  ∀ (w : ReqWord) (i : Instr), decode w = .ok i → encode i = w

/-- R73, R74: a word is refused exactly for an opcode of 101, 110 or 111, and by that opcode's name. -/
def Obligations.ReservedOpcodesAreRefusedByName : Prop :=
  ∀ w : ReqWord,
    (5 ≤ (w.extractLsb' 322 3).toNat ↔ decode w = .error (.reservedOpcode (w.extractLsb' 322 3))) ∧
      ((w.extractLsb' 322 3).toNat < 5 ↔ ∃ i, decode w = .ok i)

/-- R70, R73: five request words written out in spec/95_test_vectors.md, programs P1 to P5, decode to their commands. -/
def Obligations.SpecRequestWordsDecode : Prop :=
  decode 0x00FFFFFFFE000000000000000000000000000000008000000000000000000000000000000000000000#325 =
      .ok (.qadd 0x0_7FFFFFFF_0000000000000000_0000000000000000#161 0x0_80000000_0000000000000000_0000000000000000#161) ∧
  decode 0x0500000001000000000000000000000000000000008000000080000000000000000000000000000000#325 =
      .ok (.qsub 0x0_80000000_8000000000000000_0000000000000000#161 0x0_80000000_8000000000000000_0000000000000000#161) ∧
  decode 0x09FFFFFFFE000000000000000000000000000000010000000000000000000000000000000000000000#325 =
      .ok (.qmul 0x0_FFFFFFFF_0000000000000000_0000000000000000#161 0x1_00000000_0000000000000000_0000000000000000#161) ∧
  decode 0x0C00000000000000000000000000000000000000028000000000000000000000000000000000000000#325 =
      .ok (.qdiv 0x0_00000000_0000000000000000_0000000000000001#161 0x0_80000000_0000000000000000_0000000000000000#161) ∧
  decode 0x1100000004400000000000000000000000000000000000000000000000000000000000000000000000#325 =
      .ok (.qsqrt 0x0_80000002_2000000000000000_0000000000000000#161 0x0_00000000_0000000000000000_0000000000000000#161)

/-- R71: the response word carries status in bits 165..164, cls in 163..161 and r in 160..0, and reads back. -/
def Obligations.ResponseWordCarriesItsFields : Prop :=
  ∀ p : Response,
    (responseWord p).extractLsb' 164 2 = statusCode p.status ∧ (responseWord p).extractLsb' 161 3 = p.cls ∧
      (responseWord p).extractLsb' 0 161 = p.r ∧ responseOfWord (responseWord p) = some p

/-- R81: a rational literal assembles exactly to a quad of its value, and only a literal whose value is a quad's
assembles; the quad has the literal's sign. -/
def Obligations.RationalLiteralIsExact : Prop :=
  ∀ (s : Bool) (n : Nat) (k : Int),
    (∀ q, literalQuad (.rational s n k) = .ok q → signOf q = s ∧ valueOf q = some (signFactor s * (n * 2 ^ k))) ∧
      (∀ x, valueOf x = some (signFactor s * (n * 2 ^ k)) → ∃ q, literalQuad (.rational s n k) = .ok q)

/-! The quad format (spec/10_state.md, spec/40_limbs_and_rounding.md section 1) -/

/-- R28: two distinct encodings that are no NaNs denote distinct values, counting +0 and -0 as distinct. -/
def Obligations.DistinctQuadsDenoteDistinctValues : Prop :=
  ∀ x y : Quad, classOf x ≠ .nan → classOf y ≠ .nan → x ≠ y →
    valueOf x ≠ valueOf y ∨ (classOf x = .zero ∧ classOf y = .zero ∧ signOf x ≠ signOf y) ∨
      (classOf x = .infinity ∧ classOf y = .infinity ∧ signOf x ≠ signOf y)

/-- R100: Unpack gives sign, significand and exponent of the exact value, in the sizes of each class, and is refused on
Infinity and NaN (log 13). -/
def Obligations.UnpackGivesTheExactValue : Prop :=
  ∀ x : Quad,
    ((classOf x = .infinity ∨ classOf x = .nan) → unpack x = .error .unpackOfNonFinite) ∧
    (classOf x ≠ .infinity → classOf x ≠ .nan →
      ∃ u, unpack x = .ok u ∧ u.sign = signOf x ∧
        valueOf x = some (signFactor u.sign * (u.significand * 2 ^ u.exponent)) ∧
        (classOf x = .normal → 2 ^ 128 ≤ u.significand ∧ u.significand < 2 ^ 129 ∧
          u.exponent = exponentOf x - Config.bias - 128) ∧
        (classOf x = .subnormal → 1 ≤ u.significand ∧ u.significand < 2 ^ 128 ∧ u.exponent = Config.lsbMin) ∧
        (classOf x = .zero → u.significand = 0 ∧ u.exponent = Config.lsbMin))

/-- R101, which is "the spec's reading": Normalize gives a significand of 129 bits and keeps the value. -/
def Obligations.NormalizeKeepsTheValue : Prop :=
  ∀ (m : Nat) (k : Int), 1 ≤ m → m < 2 ^ 129 →
    2 ^ 128 ≤ (normalize m k).1 ∧ (normalize m k).1 < 2 ^ 129 ∧
      ((normalize m k).1 : ℚ) * 2 ^ (normalize m k).2 = (m : ℚ) * 2 ^ k

/-! The mantissa_rounding_unit (spec/40_limbs_and_rounding.md section 3) -/

/-- R113, which the spec marks "derived: from rule R112", and of R112 it says: "How to round a result in the subnormal range,
and where exactly the overflow boundary lies, are this spec's reading of §4.2" (D14, D15). Where its precondition holds,
RoundPack returns sign s with the point of the grid nearest to the magnitude it
is given, half to even. -/
def Obligations.RoundPackIsNearestEven : Prop :=
  ∀ (s : Bool) (m : Nat) (k : Int) (st : Bool) (v : ℝ),
    (st = true → 2 ^ 129 ≤ m) → (m : ℝ) * 2 ^ k ≤ v → v < ((m : ℝ) + 1) * 2 ^ k → (v = (m : ℝ) * 2 ^ k ↔ st = false) →
    ∃ r, roundPack s m k st = .ok r ∧ signOf r = s ∧ NearestEven v r

/-- R114: a magnitude that is a point of the grid is returned exactly, with sign s. -/
def Obligations.RoundPackKeepsGridPoints : Prop :=
  ∀ (s : Bool) (m : Nat) (k : Int) (x : Quad) (y : ℚ), valueOf x = some y → |y| = (m : ℚ) * 2 ^ k →
    ∃ r, roundPack s m k false = .ok r ∧ signOf r = s ∧ valueOf r = some (signFactor s * ((m : ℚ) * 2 ^ k))

/-- R115, which the spec marks "derived: from rule R112", and of R112 it says: "How to round a result in the subnormal range,
and where exactly the overflow boundary lies, are this spec's reading of §4.2" (D14). At or below half of MIN_SUBNORMAL the result is Zero(s); above it and below MIN_NORMAL it is a subnormal or
MIN_NORMAL, never flushed to zero. -/
def Obligations.RoundPackUnderflow : Prop :=
  ∀ (s : Bool) (m : Nat) (k : Int) (st : Bool) (v : ℝ),
    (st = true → 2 ^ 129 ≤ m) → (m : ℝ) * 2 ^ k ≤ v → v < ((m : ℝ) + 1) * 2 ^ k → (v = (m : ℝ) * 2 ^ k ↔ st = false) →
    (v ≤ 2 ^ (Config.lsbMin - 1) → roundPack s m k st = .ok (zeroQuad s)) ∧
      (2 ^ (Config.lsbMin - 1) < v → v < 2 ^ (1 - Config.bias) →
        ∃ r, roundPack s m k st = .ok r ∧ signOf r = s ∧ (classOf r = .subnormal ∨ valueOf r = some (signFactor s * minNormal)))

/-- R116, which the spec marks "derived: from rule R112", and of R112 it says: "How to round a result in the subnormal range,
and where exactly the overflow boundary lies, are this spec's reading of §4.2" (D15). At or above MAX_FINITE plus half its ulp the result is Inf(s), and below that it is finite. -/
def Obligations.RoundPackOverflow : Prop :=
  ∀ (s : Bool) (m : Nat) (k : Int) (st : Bool) (v : ℝ),
    (st = true → 2 ^ 129 ≤ m) → (m : ℝ) * 2 ^ k ≤ v → v < ((m : ℝ) + 1) * 2 ^ k → (v = (m : ℝ) * 2 ^ k ↔ st = false) →
    ((2 ^ 129 - 2 ^ (-1 : ℤ)) * 2 ^ ((Config.emaxField : ℤ) - Config.bias - 128) ≤ v →
        roundPack s m k st = .ok (infQuad s)) ∧
      (v < (2 ^ 129 - 2 ^ (-1 : ℤ)) * 2 ^ ((Config.emaxField : ℤ) - Config.bias - 128) →
        ∃ r y, roundPack s m k st = .ok r ∧ valueOf r = some y)

/-- The rounding error: half of the ulp of the magnitude's binade from MIN_NORMAL on, so also the relative 2^-129 of R193 as
spec/90_conflicts.md C2 restricts it, and half of MIN_SUBNORMAL, the ulp there, below it. A magnitude just below MIN_NORMAL that rounds up to it meets the last bound only. -/
def Obligations.RoundPackErrorIsAtMostHalfAnUlp : Prop :=
  ∀ (s : Bool) (m : Nat) (k : Int) (st : Bool) (v : ℝ),
    (st = true → 2 ^ 129 ≤ m) → (m : ℝ) * 2 ^ k ≤ v → v < ((m : ℝ) + 1) * 2 ^ k → (v = (m : ℝ) * 2 ^ k ↔ st = false) →
    v < (2 ^ 129 - 2 ^ (-1 : ℤ)) * 2 ^ ((Config.emaxField : ℤ) - Config.bias - 128) →
    ∃ r y, roundPack s m k st = .ok r ∧ valueOf r = some (signFactor s * y) ∧
      (∀ e : ℤ, 1 - Config.bias ≤ e → 2 ^ e ≤ v → v < 2 ^ (e + 1) → |(y : ℝ) - v| ≤ 2 ^ (e - 129)) ∧
      (2 ^ (1 - Config.bias) ≤ v → |(y : ℝ) - v| ≤ 2 ^ (-129 : ℤ) * v) ∧
      (v < 2 ^ (1 - Config.bias) → |(y : ℝ) - v| ≤ 2 ^ (Config.lsbMin - 1))

/-! All commands -/

/-- R250, R42: every command, on every pair of operands and in every state, completes with an OK response whose class is
its result's. Covers QADD, QSUB, QMUL, QDIV and QSQRT. -/
def Obligations.EveryCommandCompletesWithOk : Prop :=
  ∀ (a b : Quad) (s : State),
    (∃ r, exec (.qadd a b) s = .next (s.respond ⟨.ok, classCode (classOf r), r⟩)) ∧
    (∃ r, exec (.qsub a b) s = .next (s.respond ⟨.ok, classCode (classOf r), r⟩)) ∧
    (∃ r, exec (.qmul a b) s = .next (s.respond ⟨.ok, classCode (classOf r), r⟩)) ∧
    (∃ r, exec (.qdiv a b) s = .next (s.respond ⟨.ok, classCode (classOf r), r⟩)) ∧
    (∃ r, exec (.qsqrt a b) s = .next (s.respond ⟨.ok, classCode (classOf r), r⟩))

/-- The frame of every command, QADD, QSUB, QMUL, QDIV and QSQRT (R41, R32, R33): where one gives a next state, st is
DONE, CMD holds no value, RES holds the response, and nothing else changes: not the scratch's draw, not the schedule, not
the request the host holds, not the responses delivered, not the free values' draw. The block has no memory, no flags and
no other register (R50, R38, R35). All of the fields but the block's first three are the model's own (log 3, log 5, log 9,
log 10, log 15). -/
def Obligations.CommandFrame : Prop :=
  ∀ (i : Instr) (s t : State), exec i s = .next t →
    t.block.st = .done ∧ t.block.cmd = none ∧
      (∃ r, t.block.res = some ⟨.ok, classCode (classOf r), r⟩) ∧ t.block.scr = s.block.scr ∧
      t.schedule = s.schedule ∧ t.offered = s.offered ∧ t.delivered = s.delivered ∧ t.resetSeen = s.resetSeen ∧
      t.draws = s.draws

/-- R254: a NaN operand of any sign and any payload makes every command return NaN() with status OK. -/
def Obligations.NanOperandGivesCanonicalNan : Prop :=
  ∀ (a b : Quad) (s : State),
    ((classOf a = .nan ∨ classOf b = .nan) →
      exec (.qadd a b) s = .next (s.respond ⟨.ok, 0b100#3, nanQuad⟩) ∧
      exec (.qsub a b) s = .next (s.respond ⟨.ok, 0b100#3, nanQuad⟩) ∧
      exec (.qmul a b) s = .next (s.respond ⟨.ok, 0b100#3, nanQuad⟩) ∧
      exec (.qdiv a b) s = .next (s.respond ⟨.ok, 0b100#3, nanQuad⟩)) ∧
    (classOf a = .nan → exec (.qsqrt a b) s = .next (s.respond ⟨.ok, 0b100#3, nanQuad⟩))

/-- R114, with R145 (R150 for the difference), R175 and R193: an exact sum, difference, product or quotient that is a
non-zero quad's value is returned as that quad. Zero results are in `QaddZeroSigns`, `QsubAddsTheFlippedOperand`,
`QmulIsCorrectlyRounded` and `QdivIsCorrectlyRounded`. -/
def Obligations.ExactResultsAreReturnedExactly : Prop :=
  ∀ (a b c : Quad) (s : State) (x y z : ℚ), valueOf a = some x → valueOf b = some y → valueOf c = some z → z ≠ 0 →
    (x + y = z → exec (.qadd a b) s = .next (s.respond (okResponse c))) ∧
    (x - y = z → exec (.qsub a b) s = .next (s.respond (okResponse c))) ∧
    (x * y = z → exec (.qmul a b) s = .next (s.respond (okResponse c))) ∧
    (y ≠ 0 → x / y = z → exec (.qdiv a b) s = .next (s.respond (okResponse c)))

/-- R145, R175: QADD and QMUL are commutative for all quads, NaN results included. -/
def Obligations.AdditionAndMultiplicationCommute : Prop :=
  ∀ (a b : Quad) (s : State), exec (.qadd a b) s = exec (.qadd b a) s ∧ exec (.qmul a b) s = exec (.qmul b a) s

/-! QADD and QSUB (spec/41_add_subtract.md) -/

/-- R141: the special values of QADD. -/
def Obligations.QaddSpecialValues : Prop :=
  ∀ (a b : Quad) (s : State),
    ((classOf a = .nan ∨ classOf b = .nan) → exec (.qadd a b) s = .next (s.respond (okResponse nanQuad))) ∧
    (classOf a = .infinity → classOf b = .infinity → signOf a ≠ signOf b →
      exec (.qadd a b) s = .next (s.respond (okResponse nanQuad))) ∧
    (classOf a = .infinity → classOf b = .infinity → signOf a = signOf b →
      exec (.qadd a b) s = .next (s.respond (okResponse (infQuad (signOf a))))) ∧
    (classOf a = .infinity → classOf b ≠ .infinity → classOf b ≠ .nan →
      exec (.qadd a b) s = .next (s.respond (okResponse (infQuad (signOf a))))) ∧
    (classOf b = .infinity → classOf a ≠ .infinity → classOf a ≠ .nan →
      exec (.qadd a b) s = .next (s.respond (okResponse (infQuad (signOf b)))))

/-- R142: the sum of two zeros is -0 only when both are; an exact cancellation of non-zero operands is +0; a non-zero
exact sum keeps the sign of the operand of larger magnitude, also where it then underflows to a zero. The spec marks the
signs of zero sums as its own choice (R142, "from general knowledge, not in source"; log 21). -/
def Obligations.QaddZeroSigns : Prop :=
  ∀ (a b : Quad) (s : State) (x y : ℚ), valueOf a = some x → valueOf b = some y →
    (classOf a = .zero → classOf b = .zero →
      exec (.qadd a b) s = .next (s.respond (okResponse (zeroQuad (signOf a && signOf b))))) ∧
    (x ≠ 0 → x + y = 0 → exec (.qadd a b) s = .next (s.respond (okResponse (zeroQuad false)))) ∧
    (x + y ≠ 0 → |y| ≤ |x| →
      ∃ r, exec (.qadd a b) s = .next (s.respond (okResponse r)) ∧ signOf r = signOf a) ∧
    (x + y ≠ 0 → |x| ≤ |y| →
      ∃ r, exec (.qadd a b) s = .next (s.respond (okResponse r)) ∧ signOf r = signOf b)

/-- R143, R150: a finite non-zero sum, or difference, is correctly rounded: its sign is the exact result's, and its
magnitude the grid point nearest to the exact result's, half to even. -/
def Obligations.SumsAndDifferencesAreCorrectlyRounded : Prop :=
  ∀ (a b : Quad) (s : State) (x y : ℚ), valueOf a = some x → valueOf b = some y →
    (x + y ≠ 0 →
      ∃ r, exec (.qadd a b) s = .next (s.respond (okResponse r)) ∧ signOf r = decide (x + y < 0) ∧
        NearestEven ((|x + y| : ℚ) : ℝ) r) ∧
    (x - y ≠ 0 →
      ∃ r, exec (.qsub a b) s = .next (s.respond (okResponse r)) ∧ signOf r = decide (x - y < 0) ∧
        NearestEven ((|x - y| : ℚ) : ℝ) r)

/-- R144: the guard-round-sticky datapath gives the sum of QADD's finite path. -/
def Obligations.AddDatapathAgrees : Prop :=
  ∀ (a b : Quad) (x y : Unpacked), unpack a = .ok x → unpack b = .ok y → x.significand ≠ 0 → y.significand ≠ 0 →
    addDatapath x y = addFinite a b

/-- R150, spec/90_conflicts.md C6: QSUB is QADD of a and b with its sign bit flipped, which changes no other bit and no
class; its corner cases are Infinities, a quad minus itself, and zeros. The signs of the zero differences rest on R142, which
the spec marks as its own choice ("from general knowledge, not in source"; log 21). -/
def Obligations.QsubAddsTheFlippedOperand : Prop :=
  ∀ (a b : Quad) (s : State),
    exec (.qsub a b) s = exec (.qadd a (flipSign b)) s ∧ signOf (flipSign b) = !signOf b ∧
    exponentOf (flipSign b) = exponentOf b ∧ fractionOf (flipSign b) = fractionOf b ∧
    classOf (flipSign b) = classOf b ∧
    (classOf a = .infinity → classOf b = .infinity → signOf a = signOf b →
      exec (.qsub a b) s = .next (s.respond (okResponse nanQuad))) ∧
    (classOf a = .infinity → classOf b = .infinity → signOf a ≠ signOf b →
      exec (.qsub a b) s = .next (s.respond (okResponse (infQuad (signOf a))))) ∧
    (classOf b = .infinity → classOf a ≠ .infinity → classOf a ≠ .nan →
      exec (.qsub a b) s = .next (s.respond (okResponse (infQuad (!signOf b))))) ∧
    (classOf a ≠ .infinity → classOf a ≠ .nan →
      exec (.qsub a a) s = .next (s.respond (okResponse (zeroQuad false)))) ∧
    (classOf a = .infinity → exec (.qsub a a) s = .next (s.respond (okResponse nanQuad))) ∧
    exec (.qsub (zeroQuad true) (zeroQuad false)) s = .next (s.respond (okResponse (zeroQuad true))) ∧
    exec (.qsub (zeroQuad false) (zeroQuad false)) s = .next (s.respond (okResponse (zeroQuad false)))

/-! QMUL (spec/42_multiply.md) -/

/-- R171: the special values of QMUL. The zero products are in `QmulIsCorrectlyRounded`. -/
def Obligations.QmulSpecialValues : Prop :=
  ∀ (a b : Quad) (s : State),
    ((classOf a = .nan ∨ classOf b = .nan) → exec (.qmul a b) s = .next (s.respond (okResponse nanQuad))) ∧
    (((classOf a = .infinity ∧ classOf b = .zero) ∨ (classOf a = .zero ∧ classOf b = .infinity)) →
      exec (.qmul a b) s = .next (s.respond (okResponse nanQuad))) ∧
    (classOf a = .infinity → classOf b ≠ .zero → classOf b ≠ .nan →
      exec (.qmul a b) s = .next (s.respond (okResponse (infQuad (signOf a ^^ signOf b))))) ∧
    (classOf b = .infinity → classOf a ≠ .zero → classOf a ≠ .nan →
      exec (.qmul a b) s = .next (s.respond (okResponse (infQuad (signOf a ^^ signOf b)))))

/-- R172, R173: a product of finite operands has the XOR of their signs, and its magnitude is the grid point nearest to
the exact product's, half to even. The sign of a zero product is the spec's own choice (R172, "from general knowledge, not
in source"; log 21). -/
def Obligations.QmulIsCorrectlyRounded : Prop :=
  ∀ (a b : Quad) (s : State) (x y : ℚ), valueOf a = some x → valueOf b = some y →
    ∃ r, exec (.qmul a b) s = .next (s.respond (okResponse r)) ∧ signOf r = (signOf a ^^ signOf b) ∧
      NearestEven ((|x * y| : ℚ) : ℝ) r

/-- R174: the schoolbook product of two 5-slot buffers of normalized significands is their exact product. -/
def Obligations.MulLimbsIsTheExactProduct : Prop :=
  ∀ a b : Nat, 2 ^ 128 ≤ a → a < 2 ^ 129 → 2 ^ 128 ≤ b → b < 2 ^ 129 →
    intVal (mulLimbs (toLimbs 5 a) (toLimbs 5 b)) = a * b ∧
      Limbs.wellFormed (mulLimbs (toLimbs 5 a) (toLimbs 5 b)) = true

/-- R174: the fp_quad_multiply datapath gives the product of QMUL's finite path. -/
def Obligations.MulDatapathAgrees : Prop :=
  ∀ (s : Bool) (a b : Quad) (x y : Unpacked), unpack a = .ok x → unpack b = .ok y → x.significand ≠ 0 →
    y.significand ≠ 0 → mulDatapath s x y = mulFinite s a b

/-! QDIV (spec/43_divide.md) -/

/-- R191: the special values of QDIV; a subnormal divisor is not zero, and 1 / MINS overflows. The signs of zero quotients
are in `QdivIsCorrectlyRounded`. -/
def Obligations.QdivSpecialValues : Prop :=
  ∀ (a b : Quad) (s : State),
    ((classOf a = .nan ∨ classOf b = .nan) → exec (.qdiv a b) s = .next (s.respond (okResponse nanQuad))) ∧
    (classOf a = .infinity → classOf b = .infinity → exec (.qdiv a b) s = .next (s.respond (okResponse nanQuad))) ∧
    (classOf a = .infinity → classOf b ≠ .infinity → classOf b ≠ .nan →
      exec (.qdiv a b) s = .next (s.respond (okResponse (infQuad (signOf a ^^ signOf b))))) ∧
    (classOf b = .infinity → classOf a ≠ .infinity → classOf a ≠ .nan →
      ∃ z, exec (.qdiv a b) s = .next (s.respond (okResponse (zeroQuad z)))) ∧
    (classOf b = .zero → classOf a = .zero → exec (.qdiv a b) s = .next (s.respond (okResponse nanQuad))) ∧
    (classOf b = .zero → classOf a ≠ .zero → classOf a ≠ .nan →
      exec (.qdiv a b) s = .next (s.respond (okResponse (infQuad (signOf a ^^ signOf b))))) ∧
    exec (.qdiv 0x0_7FFFFFFF_0000000000000000_0000000000000000#161 0x0_00000000_0000000000000000_0000000000000001#161) s =
      .next (s.respond (okResponse (infQuad false)))

/-- R193: a quotient of finite operands by a non-zero divisor has the XOR of their signs, and its magnitude is the grid
point nearest to the exact quotient's, half to even; a finite operand by an Infinity is a zero of the XOR sign. The signs
of zero quotients are the spec's own choice (R192, "from general knowledge, not in source"; log 21). -/
def Obligations.QdivIsCorrectlyRounded : Prop :=
  ∀ (a b : Quad) (s : State) (x : ℚ), valueOf a = some x →
    (∀ y, valueOf b = some y → y ≠ 0 →
      ∃ r, exec (.qdiv a b) s = .next (s.respond (okResponse r)) ∧ signOf r = (signOf a ^^ signOf b) ∧
        NearestEven ((|x / y| : ℚ) : ℝ) r) ∧
    (classOf b = .infinity →
      exec (.qdiv a b) s = .next (s.respond (okResponse (zeroQuad (signOf a ^^ signOf b)))))

/-- R196: the trial limb of the top 64 divisor bits is the true limb or one more, and one add-back gives the true limb and
the true remainder. The trial divisor D >> 65 is "this spec's reading of "the divisor's most significant 64-bit word""
(R195, spec/90_conflicts.md C7, D38), and R196 settles the bound "for this reading". -/
def Obligations.TrialLimbNeedsAtMostOneCorrection : Prop :=
  ∀ d r : Nat, 2 ^ 128 ≤ d → d < 2 ^ 129 → r < d →
    (r <<< 32) / d ≤ ((r <<< 32) >>> 65) / (d >>> 65) ∧ ((r <<< 32) >>> 65) / (d >>> 65) ≤ (r <<< 32) / d + 1 ∧
      divLimb d r = ((r <<< 32) / d, (((r <<< 32) % d : Nat) : Int)) ∧ (r <<< 32) / d < 2 ^ 32

/-- R195: the invariants of the division kernel at its exit, and its exponent (R200). -/
def Obligations.DivKernelInvariants : Prop :=
  ∀ (ma mb : Nat) (ka kb : Int), 2 ^ 128 ≤ ma → ma < 2 ^ 129 → 2 ^ 128 ≤ mb → mb < 2 ^ 129 →
    (if ma < mb then 2 * ma else ma) * 2 ^ 128 =
        (divKernel ma ka mb kb).quotient * mb + (divKernel ma ka mb kb).remainder ∧
      (divKernel ma ka mb kb).remainder < mb ∧ 2 ^ 128 ≤ (divKernel ma ka mb kb).quotient ∧
      (divKernel ma ka mb kb).quotient < 2 ^ 129 ∧
      (divKernel ma ka mb kb).exponent = ka - kb - 128 - (if ma < mb then 1 else 0)

/-- R194, spec/90_conflicts.md C4: the kernel's rounding position never carries a tie: the doubled remainder is never the
divisor. -/
def Obligations.DivKernelNeverMeetsATie : Prop :=
  ∀ (ma mb : Nat) (ka kb : Int), 2 ^ 128 ≤ ma → ma < 2 ^ 129 → 2 ^ 128 ≤ mb → mb < 2 ^ 129 →
    2 * (divKernel ma ka mb kb).remainder ≠ mb

/-- R201: the fp_quad_divide_knuth datapath gives the quotient of QDIV's finite path. -/
def Obligations.DivDatapathAgrees : Prop :=
  ∀ (s : Bool) (a b : Quad) (x y : Unpacked), unpack a = .ok x → unpack b = .ok y → x.significand ≠ 0 →
    y.significand ≠ 0 → divDatapath s x y = divFinite s a b

/-- R197, as log 17 reads it: the kernel on the 10-slot remainder buffer gives the kernel's quotient, remainder and round-up bit, and leaves
every slot below 2^32. -/
def Obligations.DivKernelBuffersAgree : Prop :=
  ∀ (ma mb : Nat) (ka kb : Int), 2 ^ 128 ≤ ma → ma < 2 ^ 129 → 2 ^ 128 ≤ mb → mb < 2 ^ 129 →
    ∃ k, divKernelBuffers ma mb = .ok k ∧ k.quotient = (divKernel ma ka mb kb).quotient ∧
      intVal k.buffer = (divKernel ma ka mb kb).remainder * 2 ^ 32 ∧
      k.roundUp = (divKernel ma ka mb kb).roundUp ∧ k.buffer.length = 10 ∧ Limbs.wellFormed k.buffer = true

/-! QSQRT (spec/44_sqrt.md) -/

/-- R221: the special values of QSQRT; R220 (D10): its second operand changes nothing. -/
def Obligations.QsqrtSpecialValues : Prop :=
  ∀ (a b : Quad) (s : State),
    (classOf a = .nan → exec (.qsqrt a b) s = .next (s.respond (okResponse nanQuad))) ∧
    (classOf a = .zero → exec (.qsqrt a b) s = .next (s.respond (okResponse a))) ∧
    (classOf a ≠ .zero → signOf a = true → exec (.qsqrt a b) s = .next (s.respond (okResponse nanQuad))) ∧
    (classOf a = .infinity → signOf a = false → exec (.qsqrt a b) s = .next (s.respond (okResponse (infQuad false)))) ∧
    ∀ b' : Quad, exec (.qsqrt a b) s = exec (.qsqrt a b') s

/-- R223: the root of a positive finite operand is the positive quad whose magnitude is the grid point nearest to the exact
root, half to even. -/
def Obligations.QsqrtIsCorrectlyRounded : Prop :=
  ∀ (a b : Quad) (s : State) (x : ℚ), valueOf a = some x → 0 < x →
    ∃ r, exec (.qsqrt a b) s = .next (s.respond (okResponse r)) ∧ signOf r = false ∧
      NearestEven (Real.sqrt (x : ℝ)) r

/-- R227: the root of a positive finite operand is always NORMAL. -/
def Obligations.QsqrtIsAlwaysNormal : Prop :=
  ∀ (a b : Quad) (s : State) (x : ℚ), valueOf a = some x → 0 < x →
    ∃ r, exec (.qsqrt a b) s = .next (s.respond ⟨.ok, 0b010#3, r⟩) ∧ classOf r = .normal

/-- R228: the root of an exact square of a quad is exact. -/
def Obligations.QsqrtOfASquareIsExact : Prop :=
  ∀ (a b c : Quad) (s : State) (z : ℚ), valueOf c = some z → valueOf a = some (z ^ 2) →
    (z = 0 → exec (.qsqrt a b) s = .next (s.respond (okResponse a))) ∧
    (0 < z → exec (.qsqrt a b) s = .next (s.respond (okResponse c))) ∧
    (z < 0 → exec (.qsqrt a b) s = .next (s.respond (okResponse (flipSign c))))

/-- R228: QSQRT is monotone non-decreasing on non-negative operands, +Infinity included. -/
def Obligations.QsqrtIsMonotone : Prop :=
  ∀ (a b c d : Quad) (s : State) (x y : ℚ), signOf a = false → signOf b = false → gridPoint a = some x →
    gridPoint b = some y → x ≤ y →
    ∃ r q u v, exec (.qsqrt a c) s = .next (s.respond (okResponse r)) ∧
      exec (.qsqrt b d) s = .next (s.respond (okResponse q)) ∧ gridPoint r = some u ∧ gridPoint q = some v ∧ u ≤ v

/-- R225, R226: the invariants of the restoring square-root kernel at its exit, its round-up bit as the comparison with
(root + 1/2)^2, and its halved exponent (R222). -/
def Obligations.SqrtKernelInvariants : Prop :=
  ∀ (m : Nat) (k : Int), 2 ^ 128 ≤ m → m < 2 ^ 129 →
    let x := (if k % 2 = 1 then 2 * m else m) * 2 ^ 128
    (sqrtKernel m k).root = isqrt x ∧ (sqrtKernel m k).root ^ 2 + (sqrtKernel m k).remainder = x ∧
      (sqrtKernel m k).remainder ≤ 2 * (sqrtKernel m k).root ∧ 2 ^ 128 ≤ (sqrtKernel m k).root ∧
      (sqrtKernel m k).root < 2 ^ 129 ∧
      ((sqrtKernel m k).roundUp = true ↔ (2 * (sqrtKernel m k).root + 1) ^ 2 < 4 * x) ∧
      (sqrtKernel m k).exponent = k - k % 2

/-- R227: the fp_quad_sqrt datapath gives the root of QSQRT's finite path. -/
def Obligations.SqrtDatapathAgrees : Prop :=
  ∀ (a : Quad) (u : Unpacked), unpack a = .ok u → u.significand ≠ 0 → sqrtDatapath u = sqrtFinite a

/-! Limb primitives (spec/40_limbs_and_rounding.md section 2) -/

/-- R105: subtractAligned subtracts the aligned value, and returns 1 exactly where it borrowed past slot 0. The alignment
is "this spec's reading" (R105). -/
def Obligations.SubtractAlignedSubtracts : Prop :=
  ∀ (m s : Limbs) (o : Nat), Limbs.wellFormed m = true → Limbs.wellFormed s = true → o + s.length ≤ m.length →
    ∃ d borrow, subtractAligned m s o = .ok (d, borrow) ∧ d.length = m.length ∧ Limbs.wellFormed d = true ∧
      intVal d + intVal s * 2 ^ (32 * (m.length - s.length - o)) = intVal m + (if borrow then 2 ^ (32 * m.length) else 0) ∧
      (borrow = true ↔ intVal m < intVal s * 2 ^ (32 * (m.length - s.length - o)))

/-- R106: addAligned adds the aligned value, and returns 1 exactly where the sum reached 2^(32n). The alignment is R105's,
"this spec's reading". -/
def Obligations.AddAlignedAdds : Prop :=
  ∀ (m s : Limbs) (o : Nat), Limbs.wellFormed m = true → Limbs.wellFormed s = true → o + s.length ≤ m.length →
    ∃ d carry, addAligned m s o = .ok (d, carry) ∧ d.length = m.length ∧ Limbs.wellFormed d = true ∧
      intVal d = (intVal m + intVal s * 2 ^ (32 * (m.length - s.length - o))) % 2 ^ (32 * m.length) ∧
      (carry = true ↔ 2 ^ (32 * m.length) ≤ intVal m + intVal s * 2 ^ (32 * (m.length - s.length - o)))

/-- R104, R107: isEmpty is the test for zero, and compare of two buffers of one length is the comparison of their
values. -/
def Obligations.CompareLimbsComparesValues : Prop :=
  ∀ a b : Limbs, Limbs.wellFormed a = true → Limbs.wellFormed b = true → a.length = b.length →
    compareLimbs a b = .ok (compare (intVal a) (intVal b)) ∧ (limbsEmpty a = true ↔ intVal a = 0)

/-- R108: the shifts and their sticky. The refusal of a left shift beyond the buffer is the model's form of R108's broken
precondition (spec/93_implementation_defined.md, log 13). -/
def Obligations.ShiftLimbsShiftValues : Prop :=
  ∀ (l : Limbs) (d : Nat), Limbs.wellFormed l = true →
    intVal (shiftRightLimbs l d).1 = intVal l / 2 ^ d ∧
      Limbs.wellFormed (shiftRightLimbs l d).1 = true ∧ (shiftRightLimbs l d).1.length = l.length ∧
      ((shiftRightLimbs l d).2 = true ↔ intVal l % 2 ^ d ≠ 0) ∧
      (intVal l * 2 ^ d < 2 ^ (32 * l.length) →
        ∃ k, shiftLeftLimbs l d = .ok k ∧ intVal k = intVal l * 2 ^ d ∧ k.length = l.length ∧
          Limbs.wellFormed k = true) ∧
      (2 ^ (32 * l.length) ≤ intVal l * 2 ^ d → shiftLeftLimbs l d = .error .scratchOutOfRange)

/-! The transaction steps (spec/10_state.md section 3, spec/70_reset_and_hazards.md) -/

/-- A step runs the decoded instruction: where the next event is an edge without reset at which the host keeps its offer,
the block is BUSY with a request in CMD that decodes to i, and the implementation completes it at this edge, the step is
exec of i on the state whose schedule is past that edge, whose free values are at their next draw, and which has noted
what the host offers (R41, R42). The schedule, the choice of the completing edge, the draws and the noted offer are the
model's own (log 4, log 5, log 10). -/
def Obligations.StepRunsTheDecodedInstruction : Prop :=
  ∀ (s : State) (e : Edge) (vs : List Event) (q : Request) (i : Instr),
    s.schedule = .edge e :: vs → e.rst = false → s.resetSeen = true → s.keepsOffer e = true → s.block.st = .busy →
    s.block.cmd = some q → e.completes = true → decode (requestWord q) = .ok i →
    step s = exec i (((s.withSchedule vs).tick).noteOffer e)

/-- R74, R251, R253: a reserved opcode completes with status ILLEGAL_OP, whatever its operands; its cls and r are free
values, and nothing else than at any COMPLETE changes. -/
def Obligations.ReservedOpcodeCompletesWithIllegalOp : Prop :=
  ∀ (s : State) (e : Edge) (vs : List Event) (q : Request),
    s.schedule = .edge e :: vs → e.rst = false → s.resetSeen = true → s.keepsOffer e = true → s.block.st = .busy →
    s.block.cmd = some q → e.completes = true → 5 ≤ q.op.toNat →
    ∃ c r, step s = .next ((((s.withSchedule vs).tick).noteOffer e).respond ⟨.illegalOp, c, r⟩)

/-- R40, R41, R43, R37: at an edge without reset, ACCEPT in IDLE latches the request whatever its opcode; without a request
the block stays IDLE; a BUSY block that does not complete yet stays as it is; DELIVER in DONE hands the response over and
frees the block; without rsp_ready the response stays (R287); in DONE the response port shows what RES holds. `offered` and
`delivered` are the model's own (log 10, log 15). -/
def Obligations.AcceptAndDeliver : Prop :=
  ∀ (s : State) (e : Edge) (vs : List Event),
    s.schedule = .edge e :: vs → e.rst = false → s.resetSeen = true → s.keepsOffer e = true →
    (s.block.st = .idle → e.reqValid = true →
      ∃ t, step s = .next t ∧ t.block.st = .busy ∧ t.block.cmd = some e.request ∧ t.block.res = s.block.res ∧
        t.delivered = s.delivered ∧ t.offered = none) ∧
    (s.block.st = .idle → e.reqValid = false →
      ∃ t, step s = .next t ∧ t.block.st = .idle ∧ t.block.cmd = s.block.cmd ∧ t.block.res = s.block.res ∧
        t.delivered = s.delivered) ∧
    (s.block.st = .busy → e.completes = false →
      ∃ t, step s = .next t ∧ t.block.st = .busy ∧ t.block.cmd = s.block.cmd ∧ t.block.res = s.block.res ∧
        t.delivered = s.delivered) ∧
    (∀ p, s.block.st = .done → s.block.res = some p → codesProduced p = true → e.rspReady = true →
      ∃ t, step s = .next t ∧ t.block.st = .idle ∧ t.block.res = none ∧ t.delivered = s.delivered ++ [p]) ∧
    (s.block.st = .done → e.rspReady = false →
      ∃ t, step s = .next t ∧ t.block.st = .done ∧ t.block.res = s.block.res ∧ t.delivered = s.delivered) ∧
    (∀ p, s.block.st = .done → s.block.res = some p →
      s.block.rspValid = true ∧ s.block.reqReady = false ∧ s.block.rspStatus = .ok (statusCode p.status) ∧
        s.block.rspClass = .ok p.cls ∧ s.block.rspR = .ok p.r)

/-- R39, R44, R280, R282, R283: a reset edge gives the reset state whatever the block was doing; the transaction is
discarded and delivers nothing; req_ready is 1 and rsp_valid 0 after it. -/
def Obligations.ResetEdgeDiscardsTheTransaction : Prop :=
  ∀ (s : State) (e : Edge) (vs : List Event), s.schedule = .edge e :: vs → e.rst = true →
    ∃ t, step s = .next t ∧ t.block.st = .idle ∧ t.block.cmd = none ∧ t.block.res = none ∧ t.resetSeen = true ∧
      t.delivered = s.delivered ∧ t.schedule = vs ∧ t.block.reqReady = true ∧ t.block.rspValid = false

/-- R46, R286, R287, R284: where the host breaks the handshake, the run stops with the fault of that name. The monitor of
the request held is the model's own (log 10, log 11). -/
def Obligations.BrokenHandshakeFaults : Prop :=
  ∀ (s : State) (e : Edge) (vs : List Event),
    (s.schedule = .readResponse :: vs → s.block.st ≠ .done → step s = .fault .responseHasNoValue) ∧
    (s.block.st ≠ .done →
      s.block.rspStatus = .error .responseHasNoValue ∧ s.block.rspClass = .error .responseHasNoValue ∧
        s.block.rspR = .error .responseHasNoValue) ∧
    (s.schedule = .edge e :: vs → e.rst = false → s.resetSeen = true →
      (∃ q, s.offered = some q ∧ (e.reqValid = false ∨ e.request ≠ q)) → step s = .fault .requestNotHeld) ∧
    (s.schedule = .edge e :: vs → e.rst = false → s.resetSeen = false → e.reqValid = true →
      step s = .fault .requestBeforeReset) ∧
    (∀ q, s.schedule = .edge e :: vs → e.rst = false → s.resetSeen = true → s.keepsOffer e = true →
      e.reqValid = true → s.block.st ≠ .idle → e.request = q → ∀ t, step s = .next t → t.offered = some q)

/-- R39: the state after reset meets the invariant, which also says how the model's own fields stand (log 9, log 20). -/
def Obligations.InvariantHoldsAtReset : Prop :=
  State.reset.inv = true ∧ State.reset.block.st = .idle ∧ State.reset.block.cmd = none ∧
    State.reset.block.res = none ∧ State.reset.block.reqReady = true ∧ State.reset.block.rspValid = false

/-- R32, R33, R38, R27: every step keeps the invariant: from the first reset on CMD holds a value exactly in BUSY and RES
exactly in DONE, every OK response held or delivered carries the class of its result, and every NaN in one is canonical.
`resetSeen`, `offered` and `delivered` are the model's own (log 9, log 10, log 15). -/
def Obligations.InvariantIsKeptByEveryStep : Prop :=
  ∀ s t : State, s.inv = true → step s = .next t → t.inv = true

/-- R74, R250, R252: from a state that meets the invariant, a host that obeys the handshake is never stopped: the next step
goes
on, whatever the request is (log 5, log 6). -/
def Obligations.ObedientHostIsNeverStopped : Prop :=
  ∀ s : State, s.inv = true → s.hostObeys s.upcoming = true → ∃ t, step s = .next t

/-- The preconditions of R100 and R111 are met by every call: no step of any state is refused. -/
def Obligations.NoStepIsRefused : Prop :=
  ∀ (s : State) (r : Refusal), step s ≠ .refused r

/-- R83, R41, R43, R286, R287, R291: one transaction, of any latency and with any wait of the host before it takes the
response, from an IDLE block, be the request offered for the first time or held from before: the block is IDLE again, one
response is delivered, and for a legal opcode it is the command's OK response. The schedule and the request held are the
model's own (log 4, log 5, log 10). -/
def Obligations.TransactionDeliversItsResponse : Prop :=
  ∀ (s : State) (q : Request) (n m : Nat), s.block.st = .idle → s.resetSeen = true →
    (s.offered = none ∨ s.offered = some q) →
    ∃ t p, runTransaction q n m s = .next t ∧ t.block.st = .idle ∧ t.block.cmd = none ∧ t.block.res = none ∧
      t.schedule = s.schedule ∧ t.offered = none ∧ t.delivered = s.delivered ++ [p] ∧
      (∀ i, decode (requestWord q) = .ok i → ∃ r, commandResult i = .ok r ∧ p = okResponse r) ∧
      (5 ≤ q.op.toNat → p.status = .illegalOp)

/-- R54, R292: two requests with the same (op, a, b) get the same response, whatever came before, whatever the latencies,
whatever the host offers meanwhile, and whatever the instance; for a reserved opcode, the same status. First at the
COMPLETE of any two states BUSY with that request, then as delivered by any two transactions of it. -/
def Obligations.ResponseDependsOnTheRequestAlone : Prop :=
  ∀ (s₁ s₂ : State) (q : Request),
    (s₁.completesNext q → s₂.completesNext q →
      ∃ t₁ t₂ p₁ p₂, step s₁ = .next t₁ ∧ step s₂ = .next t₂ ∧ t₁.block.st = .done ∧ t₂.block.st = .done ∧
        t₁.block.res = some p₁ ∧ t₂.block.res = some p₂ ∧ p₁.status = p₂.status ∧ (q.op.toNat < 5 → p₁ = p₂)) ∧
    (∀ n₁ m₁ n₂ m₂, s₁.block.st = .idle → s₁.resetSeen = true → (s₁.offered = none ∨ s₁.offered = some q) →
      s₂.block.st = .idle → s₂.resetSeen = true → (s₂.offered = none ∨ s₂.offered = some q) →
      ∃ t₁ t₂ p₁ p₂, runTransaction q n₁ m₁ s₁ = .next t₁ ∧ runTransaction q n₂ m₂ s₂ = .next t₂ ∧
        t₁.delivered = s₁.delivered ++ [p₁] ∧ t₂.delivered = s₂.delivered ++ [p₂] ∧ p₁.status = p₂.status ∧
        (q.op.toNat < 5 → p₁ = p₂))

/-- R43, R56, R282: a step delivers nothing, or it delivers, at an edge in DONE with rsp_ready and no reset, the response
that RES holds, after all those before it. -/
def Obligations.OnlyDeliverDelivers : Prop :=
  ∀ s t : State, step s = .next t →
    t.delivered = s.delivered ∨
      ∃ p e, s.upcoming = .edge e ∧ e.rst = false ∧ e.rspReady = true ∧ s.block.st = .done ∧ s.block.res = some p ∧
        t.delivered = s.delivered ++ [p] ∧ t.block.st = .idle

/-- R32, R33, R40, R41: after the first reset CMD gets a value only by an ACCEPT in IDLE, and RES only by a COMPLETE in
BUSY. -/
def Obligations.LatchesAreWrittenByTheirStepsOnly : Prop :=
  ∀ s t : State, s.inv = true → s.resetSeen = true → t.resetSeen = true → step s = .next t →
    (∀ q, t.block.cmd = some q → s.block.cmd = some q ∨
      (s.block.st = .idle ∧ ∃ e, s.upcoming = .edge e ∧ e.reqValid = true ∧ e.request = q)) ∧
    (∀ p, t.block.res = some p → s.block.res = some p ∨
      (s.block.st = .busy ∧ ∃ e, s.upcoming = .edge e ∧ e.completes = true))

/-- R34: the hidden contents of SCR are never observed: whatever they are, a step stops for the same reason, or gives the
same next state but for SCR itself. -/
def Obligations.ScratchIsNeverObserved : Prop :=
  ∀ (s : State) (n : Nat),
    (∀ t, step s = .next t →
      ∃ m, step { s with block := { s.block with scr := n } } = .next { t with block := { t.block with scr := m } }) ∧
    (∀ f, step s = .fault f → step { s with block := { s.block with scr := n } } = .fault f) ∧
    (∀ r, step s = .refused r → step { s with block := { s.block with scr := n } } = .refused r)
end

