-- ==== Sys2Proof/Laws/Limb.lean ====
section
/-! SUPPORT. Laws of limb buffers: the length, the slots and the value of the buffer of an integer. -/

namespace Sys2Proof.Machine

@[simp] theorem length_toLimbs (n m : Nat) : (toLimbs n m).length = n := by
  induction n with
  | zero => rfl
  | succ n ih => simp [toLimbs, ih]

/-- Every slot of the buffer of an integer is below 2^32 (spec/40_limbs_and_rounding.md R102). -/
theorem wellFormed_toLimbs (n m : Nat) : Limbs.wellFormed (toLimbs n m) = true := by
  induction n with
  | zero => rfl
  | succ n ih =>
    have h : m / 2 ^ (32 * n) % 2 ^ 32 < 2 ^ 32 := Nat.mod_lt _ (by decide)
    have h' : m / 2 ^ (32 * n) % 2 ^ 32 % 2 ^ 64 < 2 ^ 32 := lt_of_le_of_lt (Nat.mod_le _ _) h
    unfold toLimbs
    simp only [Limbs.wellFormed, List.all_cons, BitVec.toNat_ofNat, Bool.and_eq_true, decide_eq_true_eq]
    exact ⟨h', ih⟩

/-- The value of the buffer of an integer is the integer, as far as the slots reach (R102, R103). -/
theorem intVal_toLimbs (n m : Nat) : intVal (toLimbs n m) = m % 2 ^ (32 * n) := by
  induction n with
  | zero => simp [toLimbs, intVal, Nat.mod_one]
  | succ n ih =>
    have h : m / 2 ^ (32 * n) % 2 ^ 32 < 2 ^ 64 := lt_of_lt_of_le (Nat.mod_lt _ (by decide)) (by decide)
    unfold toLimbs intVal
    rw [ih, length_toLimbs, BitVec.toNat_ofNat, Nat.mod_eq_of_lt h, Nat.mul_succ, Nat.pow_add, Nat.mod_mul,
      Nat.mul_comm, Nat.add_comm]

/-- The value of a buffer whose slots are below 2^32 is below 2^(32n). -/
theorem intVal_lt {l : Limbs} (h : Limbs.wellFormed l = true) : intVal l < 2 ^ (32 * l.length) := by
  induction l with
  | nil => simp [intVal]
  | cons x l ih =>
    simp only [Limbs.wellFormed, List.all_cons, Bool.and_eq_true, decide_eq_true_eq] at h
    have h1 := ih h.2
    have h2 : x.toNat + 1 ≤ 2 ^ 32 := h.1
    have h3 := Nat.mul_le_mul_right (2 ^ (32 * l.length)) h2
    rw [intVal, List.length_cons, Nat.mul_succ, Nat.pow_add, Nat.mul_comm (2 ^ (32 * l.length)) (2 ^ 32)]
    linarith

end Sys2Proof.Machine
end

