-- ==== Sys2Proof/Laws/Operands.lean ====
section
/-! SUPPORT. Laws of the quad format: fields of a packed quad, classes, unpacking, the sign flip, the integer root. -/

namespace Sys2Proof.Machine

/-! Fields -/

theorem exponentOf_lt (x : Quad) : exponentOf x < 2 ^ 32 := (x.extractLsb' 128 32).isLt

theorem fractionOf_lt (x : Quad) : fractionOf x < 2 ^ 128 := (x.extractLsb' 0 128).isLt

/-- Each bit of a packed quad is a bit of its fraction, of its exponent field, or its sign (spec/10_state.md R20). -/
theorem getLsbD_packQuad (s : Bool) (e : BitVec 32) (f : Fraction) (i : Nat) :
    (packQuad s e f).getLsbD i =
      if i < 128 then f.getLsbD i else if i < 160 then e.getLsbD (i - 128) else i == 160 && s := by
  change (BitVec.ofBool s ++ (e ++ f) : BitVec (1 + (32 + 128))).getLsbD i = _
  rw [BitVec.getLsbD_append, BitVec.getLsbD_append]
  by_cases h1 : i < 128
  · have h2 : i < 32 + 128 := by omega
    simp [h1, h2]
  · by_cases h2 : i < 160
    · simp [h1, h2]
    · have h3 : (i - 160 = 0) ↔ (i = 160) := by omega
      cases s <;> simp [h1, h2, BitVec.getLsbD_one, h3, Bool.beq_eq_decide_eq]

@[simp] theorem signOf_packQuad (s : Bool) (e : BitVec 32) (f : Fraction) : signOf (packQuad s e f) = s := by
  rw [signOf, getLsbD_packQuad]
  simp

@[simp] theorem exponentOf_packQuad (s : Bool) (e : BitVec 32) (f : Fraction) :
    exponentOf (packQuad s e f) = e.toNat := by
  unfold exponentOf
  refine congrArg BitVec.toNat ?_
  refine BitVec.eq_of_getLsbD_eq fun i hi => ?_
  have h1 : ¬ 128 + i < 128 := by omega
  have h2 : 128 + i < 160 := by omega
  simp only [BitVec.getLsbD_extractLsb', getLsbD_packQuad, h1, h2]
  simp [hi]

@[simp] theorem fractionOf_packQuad (s : Bool) (e : BitVec 32) (f : Fraction) :
    fractionOf (packQuad s e f) = f.toNat := by
  unfold fractionOf
  refine congrArg BitVec.toNat ?_
  refine BitVec.eq_of_getLsbD_eq fun i hi => ?_
  simp only [BitVec.getLsbD_extractLsb', getLsbD_packQuad, Nat.zero_add, hi]
  simp

@[simp] theorem getLsbD_zero_packQuad (s : Bool) (e : BitVec 32) (f : Fraction) :
    (packQuad s e f).getLsbD 0 = f.getLsbD 0 := by
  rw [getLsbD_packQuad, if_pos (by decide)]

/-- A quad is its three fields (spec/10_state.md R20). -/
theorem packQuad_fields (x : Quad) :
    packQuad (signOf x) (x.extractLsb' 128 32) (x.extractLsb' 0 128) = x := by
  refine BitVec.eq_of_getLsbD_eq fun i hi => ?_
  rw [getLsbD_packQuad]
  split
  · rename_i h
    simp [h]
  · split
    · rename_i h1 h2
      have h3 : 128 + (i - 128) = i := by omega
      have h4 : i - 128 < 32 := by omega
      simp [h3, h4]
    · have h : i = 160 := by omega
      subst h
      simp [signOf]

/-- Two quads with the same sign, exponent field and fraction are the same quad. -/
theorem quad_eq_of_fields {x y : Quad} (hs : signOf x = signOf y) (he : exponentOf x = exponentOf y)
    (hf : fractionOf x = fractionOf y) : x = y := by
  rw [← packQuad_fields x, ← packQuad_fields y, hs, BitVec.eq_of_toNat_eq he, BitVec.eq_of_toNat_eq hf]

/-! Classes (spec/10_state.md R22) -/

theorem classOf_eq_infinity_iff {x : Quad} :
    classOf x = .infinity ↔ exponentOf x = Config.expInf ∧ fractionOf x = 0 := by
  unfold classOf
  split_ifs <;> simp_all

theorem classOf_eq_nan_iff {x : Quad} : classOf x = .nan ↔ exponentOf x = Config.expInf ∧ fractionOf x ≠ 0 := by
  unfold classOf
  split_ifs <;> simp_all

theorem classOf_eq_zero_iff {x : Quad} : classOf x = .zero ↔ exponentOf x = 0 ∧ fractionOf x = 0 := by
  have : Config.expInf ≠ 0 := by decide
  unfold classOf
  split_ifs <;> simp_all

theorem classOf_eq_subnormal_iff {x : Quad} : classOf x = .subnormal ↔ exponentOf x = 0 ∧ fractionOf x ≠ 0 := by
  have : Config.expInf ≠ 0 := by decide
  unfold classOf
  split_ifs <;> simp_all

theorem classOf_eq_normal_iff {x : Quad} :
    classOf x = .normal ↔ 0 < exponentOf x ∧ exponentOf x < Config.expInf := by
  have h := exponentOf_lt x
  have h0 : Config.expInf = 4294967295 := rfl
  unfold classOf
  split_ifs <;> simp_all
  omega

/-- The class depends on the exponent field and the fraction alone. -/
theorem classOf_eq_of_fields {x y : Quad} (he : exponentOf x = exponentOf y) (hf : fractionOf x = fractionOf y) :
    classOf x = classOf y := by
  unfold classOf
  rw [he, hf]

/-! Special values (spec/40_limbs_and_rounding.md R118) -/

@[simp] theorem signOf_zeroQuad (s : Bool) : signOf (zeroQuad s) = s := signOf_packQuad ..

@[simp] theorem signOf_infQuad (s : Bool) : signOf (infQuad s) = s := signOf_packQuad ..

@[simp] theorem classOf_zeroQuad (s : Bool) : classOf (zeroQuad s) = .zero := by
  rw [classOf_eq_zero_iff]
  simp [zeroQuad]

@[simp] theorem classOf_infQuad (s : Bool) : classOf (infQuad s) = .infinity := by
  rw [classOf_eq_infinity_iff]
  simp [infQuad, Config.expInf]

@[simp] theorem classOf_nanQuad : classOf nanQuad = .nan := by
  decide +kernel

/-- A zero is `Zero` of its sign. -/
theorem eq_zeroQuad_of_classOf {x : Quad} (h : classOf x = .zero) : x = zeroQuad (signOf x) := by
  obtain ⟨he, hf⟩ := classOf_eq_zero_iff.1 h
  exact quad_eq_of_fields (by simp) (by simp [zeroQuad, he]) (by simp [zeroQuad, hf])

/-- An Infinity is `Inf` of its sign. -/
theorem eq_infQuad_of_classOf {x : Quad} (h : classOf x = .infinity) : x = infQuad (signOf x) := by
  obtain ⟨he, hf⟩ := classOf_eq_infinity_iff.1 h
  exact quad_eq_of_fields (by simp) (by simp [infQuad, he, Config.expInf]) (by simp [infQuad, hf])

/-! The sign flip (spec/41_add_subtract.md R150) -/

/-- The flip changes the sign bit alone. -/
theorem getLsbD_flipSign (x : Quad) (i : Nat) : (flipSign x).getLsbD i = (x.getLsbD i ^^ i == 160) := by
  rw [flipSign, BitVec.getLsbD_xor, getLsbD_packQuad]
  congr 1
  split
  · simp; omega
  · split
    · simp; omega
    · simp

@[simp] theorem signOf_flipSign (x : Quad) : signOf (flipSign x) = !signOf x := by
  rw [signOf, getLsbD_flipSign]
  simp [signOf]

@[simp] theorem exponentOf_flipSign (x : Quad) : exponentOf (flipSign x) = exponentOf x := by
  unfold exponentOf
  refine congrArg BitVec.toNat ?_
  refine BitVec.eq_of_getLsbD_eq fun i hi => ?_
  have h : (128 + i == 160) = false := by simp; omega
  simp only [BitVec.getLsbD_extractLsb', getLsbD_flipSign, h, Bool.xor_false]

@[simp] theorem fractionOf_flipSign (x : Quad) : fractionOf (flipSign x) = fractionOf x := by
  unfold fractionOf
  refine congrArg BitVec.toNat ?_
  refine BitVec.eq_of_getLsbD_eq fun i hi => ?_
  have h : (0 + i == 160) = false := by simp; omega
  simp only [BitVec.getLsbD_extractLsb', getLsbD_flipSign, h, Bool.xor_false]

@[simp] theorem classOf_flipSign (x : Quad) : classOf (flipSign x) = classOf x :=
  classOf_eq_of_fields (exponentOf_flipSign x) (fractionOf_flipSign x)

/-! Unpacking (spec/40_limbs_and_rounding.md R100) -/

/-- What `Unpack` gives, where it gives something: the operand is finite, the significand has the size its class says,
and a significand is zero exactly for class ZERO. -/
theorem unpack_eq_ok {x : Quad} {u : Unpacked} (h : unpack x = .ok u) :
    u.sign = signOf x ∧ u.significand < 2 ^ 129 ∧ Config.lsbMin ≤ u.exponent ∧
      (u.significand = 0 ↔ classOf x = .zero) ∧ (classOf x = .normal → 2 ^ 128 ≤ u.significand) := by
  have hf := fractionOf_lt x
  have hl : Config.lsbMin = -2147483774 := by decide
  have hb : Config.bias = 2147483647 := rfl
  unfold unpack at h
  split at h
  · rename_i hc
    obtain ⟨h0, h1⟩ := classOf_eq_normal_iff.1 hc
    obtain rfl := Except.ok.inj h
    refine ⟨rfl, ?_, ?_, ?_, ?_⟩ <;> simp only [hc] <;> try omega
    simp
  · rename_i hc
    obtain ⟨h0, h1⟩ := classOf_eq_subnormal_iff.1 hc
    obtain rfl := Except.ok.inj h
    refine ⟨rfl, ?_, ?_, ?_, ?_⟩ <;> simp only [hc] <;> try omega
    · simp [h1]
    · simp
  · rename_i hc
    obtain rfl := Except.ok.inj h
    simp [hc]
  · cases h
  · cases h

/-- `Unpack` gives something for every finite quad. -/
theorem unpack_of_finite {x : Quad} (hi : classOf x ≠ .infinity) (hn : classOf x ≠ .nan) : ∃ u, unpack x = .ok u := by
  unfold unpack
  split <;> simp_all

/-! The integer root (spec/00_scope.md R10) -/

theorem isqrtBits_spec (x : Nat) : ∀ i r, r * r ≤ x → x < (r + 2 ^ i) * (r + 2 ^ i) →
    isqrtBits x i r * isqrtBits x i r ≤ x ∧ x < (isqrtBits x i r + 1) * (isqrtBits x i r + 1) := by
  intro i
  induction i with
  | zero => intro r h1 h2; simpa [isqrtBits] using ⟨h1, h2⟩
  | succ i ih =>
    intro r h1 h2
    unfold isqrtBits
    have e : r + 2 ^ (i + 1) = r + 2 ^ i + 2 ^ i := by ring
    split
    · rename_i h
      exact ih _ h (by rwa [e] at h2)
    · rename_i h
      exact ih _ h1 (by omega)

/-- `isqrt(x)` is the largest integer whose square is at most `x`. -/
theorem isqrt_spec (x : Nat) : isqrt x * isqrt x ≤ x ∧ x < (isqrt x + 1) * (isqrt x + 1) := by
  refine isqrtBits_spec x _ 0 (by simp) ?_
  have h : x < 2 ^ (Nat.log2 x + 1) := Nat.lt_log2_self
  calc x < 2 ^ (Nat.log2 x + 1) := h
    _ ≤ 2 ^ (2 * (Nat.log2 x / 2 + 1)) := Nat.pow_le_pow_right (by decide) (by omega)
    _ = (0 + 2 ^ (Nat.log2 x / 2 + 1)) * (0 + 2 ^ (Nat.log2 x / 2 + 1)) := by rw [zero_add, ← pow_add]; congr 1; omega

end Sys2Proof.Machine
end

