-- ==== Sys2Proof/Laws/State.lean ====
section
/-! SUPPORT. One lemma per field per update of the block and of the machine, each true by rfl. -/

namespace Sys2Proof.Machine

/-! Block.accept -/

@[simp] theorem Block.accept_st (b : Block) (q : Request) : (b.accept q).st = .busy := rfl
@[simp] theorem Block.accept_cmd (b : Block) (q : Request) : (b.accept q).cmd = some q := rfl
@[simp] theorem Block.accept_res (b : Block) (q : Request) : (b.accept q).res = b.res := rfl
@[simp] theorem Block.accept_scr (b : Block) (q : Request) : (b.accept q).scr = b.scr := rfl

/-! Block.complete -/

@[simp] theorem Block.complete_st (b : Block) (p : Response) : (b.complete p).st = .done := rfl
@[simp] theorem Block.complete_cmd (b : Block) (p : Response) : (b.complete p).cmd = none := rfl
@[simp] theorem Block.complete_res (b : Block) (p : Response) : (b.complete p).res = some p := rfl
@[simp] theorem Block.complete_scr (b : Block) (p : Response) : (b.complete p).scr = b.scr := rfl

/-! Block.deliver -/

@[simp] theorem Block.deliver_st (b : Block) : (b.deliver).st = .idle := rfl
@[simp] theorem Block.deliver_cmd (b : Block) : (b.deliver).cmd = b.cmd := rfl
@[simp] theorem Block.deliver_res (b : Block) : (b.deliver).res = none := rfl
@[simp] theorem Block.deliver_scr (b : Block) : (b.deliver).scr = b.scr := rfl

/-! State.withSchedule -/

@[simp] theorem State.withSchedule_block (s : State) (es : List Event) : (s.withSchedule es).block = s.block := rfl
@[simp] theorem State.withSchedule_schedule (s : State) (es : List Event) : (s.withSchedule es).schedule = es := rfl
@[simp] theorem State.withSchedule_offered (s : State) (es : List Event) :
    (s.withSchedule es).offered = s.offered := rfl
@[simp] theorem State.withSchedule_delivered (s : State) (es : List Event) :
    (s.withSchedule es).delivered = s.delivered := rfl
@[simp] theorem State.withSchedule_resetSeen (s : State) (es : List Event) :
    (s.withSchedule es).resetSeen = s.resetSeen := rfl
@[simp] theorem State.withSchedule_draws (s : State) (es : List Event) : (s.withSchedule es).draws = s.draws := rfl

/-! State.tick -/

@[simp] theorem State.tick_block (s : State) : (s.tick).block = { s.block with scr := s.draws } := rfl
@[simp] theorem State.tick_schedule (s : State) : (s.tick).schedule = s.schedule := rfl
@[simp] theorem State.tick_offered (s : State) : (s.tick).offered = s.offered := rfl
@[simp] theorem State.tick_delivered (s : State) : (s.tick).delivered = s.delivered := rfl
@[simp] theorem State.tick_resetSeen (s : State) : (s.tick).resetSeen = s.resetSeen := rfl
@[simp] theorem State.tick_draws (s : State) : (s.tick).draws = s.draws + 1 := rfl

/-! State.accept -/

@[simp] theorem State.accept_block (s : State) (q : Request) : (s.accept q).block = s.block.accept q := rfl
@[simp] theorem State.accept_schedule (s : State) (q : Request) : (s.accept q).schedule = s.schedule := rfl
@[simp] theorem State.accept_offered (s : State) (q : Request) : (s.accept q).offered = s.offered := rfl
@[simp] theorem State.accept_delivered (s : State) (q : Request) : (s.accept q).delivered = s.delivered := rfl
@[simp] theorem State.accept_resetSeen (s : State) (q : Request) : (s.accept q).resetSeen = s.resetSeen := rfl
@[simp] theorem State.accept_draws (s : State) (q : Request) : (s.accept q).draws = s.draws := rfl

/-! State.respond -/

@[simp] theorem State.respond_block (s : State) (p : Response) : (s.respond p).block = s.block.complete p := rfl
@[simp] theorem State.respond_schedule (s : State) (p : Response) : (s.respond p).schedule = s.schedule := rfl
@[simp] theorem State.respond_offered (s : State) (p : Response) : (s.respond p).offered = s.offered := rfl
@[simp] theorem State.respond_delivered (s : State) (p : Response) : (s.respond p).delivered = s.delivered := rfl
@[simp] theorem State.respond_resetSeen (s : State) (p : Response) : (s.respond p).resetSeen = s.resetSeen := rfl
@[simp] theorem State.respond_draws (s : State) (p : Response) : (s.respond p).draws = s.draws := rfl

/-! State.respondIllegal -/

@[simp] theorem State.respondIllegal_block (s : State) :
    (s.respondIllegal).block = s.block.complete (illegalResponse s.draws) := rfl
@[simp] theorem State.respondIllegal_schedule (s : State) : (s.respondIllegal).schedule = s.schedule := rfl
@[simp] theorem State.respondIllegal_offered (s : State) : (s.respondIllegal).offered = s.offered := rfl
@[simp] theorem State.respondIllegal_delivered (s : State) : (s.respondIllegal).delivered = s.delivered := rfl
@[simp] theorem State.respondIllegal_resetSeen (s : State) : (s.respondIllegal).resetSeen = s.resetSeen := rfl
@[simp] theorem State.respondIllegal_draws (s : State) : (s.respondIllegal).draws = s.draws := rfl

/-! State.applyReset -/

@[simp] theorem State.applyReset_block (s : State) : (s.applyReset).block = { Block.reset with scr := s.draws } := rfl
@[simp] theorem State.applyReset_schedule (s : State) : (s.applyReset).schedule = s.schedule := rfl
@[simp] theorem State.applyReset_offered (s : State) : (s.applyReset).offered = none := rfl
@[simp] theorem State.applyReset_delivered (s : State) : (s.applyReset).delivered = s.delivered := rfl
@[simp] theorem State.applyReset_resetSeen (s : State) : (s.applyReset).resetSeen = true := rfl
@[simp] theorem State.applyReset_draws (s : State) : (s.applyReset).draws = s.draws + 1 := rfl

/-! State.noteOffer -/

@[simp] theorem State.noteOffer_block (s : State) (e : Edge) : (s.noteOffer e).block = s.block := rfl
@[simp] theorem State.noteOffer_schedule (s : State) (e : Edge) : (s.noteOffer e).schedule = s.schedule := rfl
@[simp] theorem State.noteOffer_offered (s : State) (e : Edge) :
    (s.noteOffer e).offered = if e.reqValid && !s.block.reqReady then some e.request else none := rfl
@[simp] theorem State.noteOffer_delivered (s : State) (e : Edge) : (s.noteOffer e).delivered = s.delivered := rfl
@[simp] theorem State.noteOffer_resetSeen (s : State) (e : Edge) : (s.noteOffer e).resetSeen = s.resetSeen := rfl
@[simp] theorem State.noteOffer_draws (s : State) (e : Edge) : (s.noteOffer e).draws = s.draws := rfl

/-! State.drift -/

@[simp] theorem State.drift_block (s : State) :
    (s.drift).block = ⟨Config.unresetState s.draws, Config.unresetCommand s.draws, Config.unresetResponse s.draws, s.draws⟩ := rfl
@[simp] theorem State.drift_schedule (s : State) : (s.drift).schedule = s.schedule := rfl
@[simp] theorem State.drift_offered (s : State) : (s.drift).offered = s.offered := rfl
@[simp] theorem State.drift_delivered (s : State) : (s.drift).delivered = s.delivered := rfl
@[simp] theorem State.drift_resetSeen (s : State) : (s.drift).resetSeen = s.resetSeen := rfl
@[simp] theorem State.drift_draws (s : State) : (s.drift).draws = s.draws + 1 := rfl

/-! State.losePower -/

@[simp] theorem State.losePower_block (s : State) :
    (s.losePower).block = ⟨Config.unresetState s.draws, Config.unresetCommand s.draws, Config.unresetResponse s.draws, s.draws⟩ := rfl
@[simp] theorem State.losePower_schedule (s : State) : (s.losePower).schedule = s.schedule := rfl
@[simp] theorem State.losePower_offered (s : State) : (s.losePower).offered = none := rfl
@[simp] theorem State.losePower_delivered (s : State) : (s.losePower).delivered = s.delivered := rfl
@[simp] theorem State.losePower_resetSeen (s : State) : (s.losePower).resetSeen = false := rfl
@[simp] theorem State.losePower_draws (s : State) : (s.losePower).draws = s.draws + 1 := rfl

/-! State.placeCommand -/

@[simp] theorem State.placeCommand_block (s : State) (q : Request) :
    (s.placeCommand q).block = { s.block with st := .busy, cmd := some q, res := none } := rfl
@[simp] theorem State.placeCommand_schedule (s : State) (q : Request) :
    (s.placeCommand q).schedule = .edge s.idleEdge :: s.schedule := rfl
@[simp] theorem State.placeCommand_offered (s : State) (q : Request) : (s.placeCommand q).offered = s.offered := rfl
@[simp] theorem State.placeCommand_delivered (s : State) (q : Request) :
    (s.placeCommand q).delivered = s.delivered := rfl
@[simp] theorem State.placeCommand_resetSeen (s : State) (q : Request) : (s.placeCommand q).resetSeen = true := rfl
@[simp] theorem State.placeCommand_draws (s : State) (q : Request) : (s.placeCommand q).draws = s.draws := rfl

/-! The edges of a host -/

@[simp] theorem Edge.request_offer (q : Request) : (Edge.offer q).request = q := rfl
@[simp] theorem Edge.reqValid_offer (q : Request) : (Edge.offer q).reqValid = true := rfl
@[simp] theorem Edge.rst_offer (q : Request) : (Edge.offer q).rst = false := rfl
@[simp] theorem Edge.completes_offer (q : Request) : (Edge.offer q).completes = true := rfl
@[simp] theorem Edge.rspReady_offer (q : Request) : (Edge.offer q).rspReady = false := rfl

/-! The reset state -/

@[simp] theorem State.reset_block : State.reset.block = Block.reset := rfl
@[simp] theorem State.reset_schedule : State.reset.schedule = [] := rfl
@[simp] theorem State.reset_offered : State.reset.offered = none := rfl
@[simp] theorem State.reset_delivered : State.reset.delivered = [] := rfl
@[simp] theorem State.reset_resetSeen : State.reset.resetSeen = true := rfl
@[simp] theorem Block.reset_st : Block.reset.st = .idle := rfl
@[simp] theorem Block.reset_cmd : Block.reset.cmd = none := rfl
@[simp] theorem Block.reset_res : Block.reset.res = none := rfl

end Sys2Proof.Machine
end

