-- ==== Sys2Proof/Laws/Ops.lean ====
section
/-! SUPPORT. What each shared operation can do, said once: if it answers a next state, then which. -/

namespace Sys2Proof.Machine

/-! Reads of the latches -/

theorem Block.readCommand_eq_ok_iff {b : Block} {q : Request} :
    b.readCommand = .ok q ↔ b.st = .busy ∧ b.cmd = some q := by
  unfold Block.readCommand
  split <;> simp_all

theorem Block.readResult_eq_ok_iff {b : Block} {p : Response} :
    b.readResult = .ok p ↔ b.st = .done ∧ b.res = some p := by
  unfold Block.readResult
  split <;> simp_all

theorem Block.readCommand_eq_error {b : Block} {f : Fault} (h : b.readCommand = .error f) :
    f = .commandHasNoValue := by
  unfold Block.readCommand at h
  split at h <;> simp_all

theorem Block.readResult_eq_error {b : Block} {f : Fault} (h : b.readResult = .error f) :
    f = .responseHasNoValue := by
  unfold Block.readResult at h
  split at h <;> simp_all

/-! COMPLETE -/

theorem State.finish_eq_next_iff {s t : State} {r : Except Refusal Quad} :
    s.finish r = .next t ↔ ∃ q, r = .ok q ∧ t = s.respond (okResponse q) := by
  cases r <;> simp [State.finish, eq_comm]

theorem State.finish_ne_fault {s : State} {r : Except Refusal Quad} {f : Fault} : s.finish r ≠ .fault f := by
  cases r <;> simp [State.finish]

theorem State.finish_eq_refused_iff {s : State} {r : Except Refusal Quad} {e : Refusal} :
    s.finish r = .refused e ↔ r = .error e := by
  cases r <;> simp [State.finish]

theorem exec_eq_finish (i : Instr) (s : State) : exec i s = s.finish (commandResult i) := by
  cases i <;> rfl

theorem exec_eq_next_iff {i : Instr} {s t : State} :
    exec i s = .next t ↔ ∃ q, commandResult i = .ok q ∧ t = s.respond (okResponse q) := by
  rw [exec_eq_finish, State.finish_eq_next_iff]

/-- COMPLETE answers the command's OK response, or the ILLEGAL_OP response of a reserved opcode. -/
theorem State.completeCommand_eq_next {s t : State} (h : s.completeCommand = .next t) :
    ∃ q, s.block.st = .busy ∧ s.block.cmd = some q ∧
      ((∃ i r, decodeRequest q = .ok i ∧ commandResult i = .ok r ∧ t = s.respond (okResponse r)) ∨
        ((∃ e, decodeRequest q = .error e) ∧ t = s.respondIllegal)) := by
  unfold State.completeCommand at h
  split at h
  · cases h
  · rename_i q hq
    obtain ⟨hst, hcmd⟩ := Block.readCommand_eq_ok_iff.1 hq
    refine ⟨q, hst, hcmd, ?_⟩
    split at h
    · rename_i i hi
      obtain ⟨r, hr, ht⟩ := exec_eq_next_iff.1 h
      exact .inl ⟨i, r, hi, hr, ht⟩
    · rename_i e he
      exact .inr ⟨⟨e, he⟩, by simpa using h.symm⟩

/-! DELIVER and the look at the response port -/

theorem State.deliver_eq_next {s t : State} (h : s.deliver = .next t) :
    ∃ p, s.block.st = .done ∧ s.block.res = some p ∧ codesProduced p = true ∧
      t = { s with block := s.block.deliver, delivered := s.delivered ++ [p] } := by
  unfold State.deliver at h
  split at h
  · cases h
  · rename_i p hp
    obtain ⟨hst, hres⟩ := Block.readResult_eq_ok_iff.1 hp
    split at h
    · rename_i hc
      exact ⟨p, hst, hres, hc, by simpa using h.symm⟩
    · cases h

theorem State.readResponse_eq_next {s t : State} (h : s.readResponse = .next t) :
    t = s ∧ ∃ p, s.block.st = .done ∧ s.block.res = some p ∧ codesProduced p = true := by
  unfold State.readResponse at h
  split at h
  · cases h
  · rename_i p hp
    obtain ⟨hst, hres⟩ := Block.readResult_eq_ok_iff.1 hp
    split at h
    · rename_i hc
      exact ⟨by simpa using h.symm, p, hst, hres, hc⟩
    · cases h

/-! The transaction step and the edge -/

/-- An edge without reset does one of: nothing in IDLE, ACCEPT, nothing in BUSY, COMPLETE, nothing in DONE, DELIVER. -/
theorem State.transact_eq_next {s t : State} {e : Edge} (h : s.transact e = .next t) :
    (s.block.st = .idle ∧ e.reqValid = false ∧ t = s) ∨
    (s.block.st = .idle ∧ e.reqValid = true ∧ t = s.accept e.request) ∨
    (s.block.st = .busy ∧ e.completes = false ∧ t = s) ∨
    (s.block.st = .busy ∧ e.completes = true ∧ s.completeCommand = .next t) ∨
    (s.block.st = .done ∧ e.rspReady = false ∧ t = s) ∨
    (s.block.st = .done ∧ e.rspReady = true ∧ s.deliver = .next t) := by
  unfold State.transact at h
  split at h
  · rename_i hst
    cases hv : e.reqValid <;> simp_all
  · rename_i hst
    cases hv : e.completes <;> simp_all
  · rename_i hst
    cases hv : e.rspReady <;> simp_all

/-- A rising edge: RESET, a drift before the first reset, or the transaction step of a host that keeps its offer. -/
theorem State.clockEdge_eq_next {s t : State} {e : Edge} (h : s.clockEdge e = .next t) :
    (e.rst = true ∧ t = s.applyReset) ∨
    (e.rst = false ∧ s.resetSeen = false ∧ e.reqValid = false ∧ t = s.drift) ∨
    (e.rst = false ∧ s.resetSeen = true ∧ s.keepsOffer e = true ∧ (s.tick.noteOffer e).transact e = .next t) := by
  unfold State.clockEdge at h
  cases hr : e.rst <;> cases hs : s.resetSeen <;> cases hv : e.reqValid <;> cases hk : s.keepsOffer e <;>
    simp_all

@[simp] theorem State.keepsOffer_idleEdge (s : State) : s.keepsOffer s.idleEdge = true := by
  unfold State.keepsOffer State.idleEdge
  cases s.offered <;> simp

@[simp] theorem State.rst_idleEdge (s : State) : s.idleEdge.rst = false := by
  unfold State.idleEdge
  cases s.offered <;> rfl

@[simp] theorem State.completes_idleEdge (s : State) : s.idleEdge.completes = true := by
  unfold State.idleEdge
  cases s.offered <;> rfl

@[simp] theorem State.rspReady_idleEdge (s : State) : s.idleEdge.rspReady = false := by
  unfold State.idleEdge
  cases s.offered <;> rfl

/-- A step is the upcoming event, on the state without it. -/
theorem step_eq_event (s : State) : step s = (s.withSchedule s.schedule.tail).event s.upcoming := by
  obtain ⟨b, sch, o, d, r, n⟩ := s
  cases sch <;> rfl

end Sys2Proof.Machine
end

