-- ==== Sys2Proof/Laws/PerInstr.lean ====
section
/-! SUPPORT. Statements about every instruction as syntax, one lemma per constructor. -/

/-- The request of an instruction has a legal opcode and decodes to the instruction (spec/30_encoding.md R73). -/
def Sys2Proof.Laws.RequestRoundTrip.Statement (i : Sys2Proof.Instr) : Prop :=
  i.wellFormed = true ∧ (Sys2Proof.requestOf i).legalOpcode = true ∧
    Sys2Proof.decodeRequest (Sys2Proof.requestOf i) = .ok i

namespace Sys2Proof.Laws.RequestRoundTrip

theorem qadd (a b : Quad) : Statement (.qadd a b) := ⟨rfl, rfl, rfl⟩

theorem qsub (a b : Quad) : Statement (.qsub a b) := ⟨rfl, rfl, rfl⟩

theorem qmul (a b : Quad) : Statement (.qmul a b) := ⟨rfl, rfl, rfl⟩

theorem qdiv (a b : Quad) : Statement (.qdiv a b) := ⟨rfl, rfl, rfl⟩

theorem qsqrt (a b : Quad) : Statement (.qsqrt a b) := ⟨rfl, rfl, rfl⟩

end Sys2Proof.Laws.RequestRoundTrip
end

