-- ==== Sys2Proof/Laws/Program.lean ====
section
/-! SUPPORT. Laws of runs: a run of several steps is its parts in order. -/

namespace Sys2Proof.Machine

@[simp] theorem runSteps_zero (s : State) : runSteps 0 s = .next s := rfl

/-- A step that goes on, and the steps after it. -/
theorem runSteps_succ {n : Nat} {s t : State} (h : step s = .next t) : runSteps (n + 1) s = runSteps n t := by
  simp [runSteps, h]

/-- A run that goes on, and the steps after it. -/
theorem runSteps_add {m n : Nat} {s t : State} (h : runSteps m s = .next t) :
    runSteps (m + n) s = runSteps n t := by
  induction m generalizing s with
  | zero => simp_all
  | succ m ih =>
    unfold runSteps at h
    split at h
    · rename_i u hu
      rw [Nat.succ_add, runSteps_succ hu]
      exact ih h
    · cases h
    · cases h

/-- The first event of a schedule is the next step. -/
theorem step_withSchedule_cons (s : State) (v : Event) (vs : List Event) :
    step (s.withSchedule (v :: vs)) = (s.withSchedule vs).event v := rfl

/-- An invariant that every step keeps holds after every run. -/
theorem runSteps_invariant {P : State → Prop} (hstep : ∀ s t, P s → step s = .next t → P t) :
    ∀ {n s t}, P s → runSteps n s = .next t → P t := by
  intro n
  induction n with
  | zero => intro s t hs h; simp_all
  | succ n ih =>
    intro s t hs h
    unfold runSteps at h
    split at h
    · rename_i u hu
      exact ih (hstep _ _ hs hu) h
    · cases h
    · cases h

end Sys2Proof.Machine
end

