-- ==== Sys2Proof/Laws/Rounding.lean ====
section
/-! SUPPORT. Laws of the mantissa_rounding_unit: when it answers, its sign, the size of the rounded significand, and
that its result is no NaN. -/

namespace Sys2Proof.Machine

/-- RoundPack answers wherever its precondition holds. -/
theorem roundPack_ok {s : Bool} {m : Nat} {k : Int} {st : Bool} (h : st = true → 2 ^ 129 ≤ m) :
    roundPack s m k st = .ok (roundPackValue s m k st) := by
  unfold roundPack
  rw [if_neg]
  rintro ⟨h1, h2⟩
  exact absurd (h h1) (by omega)

theorem roundPack_eq_ok_iff {s : Bool} {m : Nat} {k : Int} {st : Bool} {r : Quad} :
    roundPack s m k st = .ok r ↔ (st = true → 2 ^ 129 ≤ m) ∧ r = roundPackValue s m k st := by
  constructor
  · intro h
    unfold roundPack at h
    split at h
    · cases h
    · rename_i hp
      exact ⟨fun hs => by by_contra hm; exact hp ⟨hs, by omega⟩, (Except.ok.inj h).symm⟩
  · rintro ⟨h, rfl⟩
    exact roundPack_ok h

/-- The sign of RoundPack's result is the one it is given (spec/40_limbs_and_rounding.md R119). -/
@[simp] theorem signOf_roundPackValue (s : Bool) (m : Nat) (k : Int) (st : Bool) :
    signOf (roundPackValue s m k st) = s := by
  unfold roundPackValue packRounded packSignificand
  dsimp only
  split_ifs <;> simp

/-- The lowest bit RoundPack keeps never weighs less than MIN_SUBNORMAL. -/
theorem lsbMin_le_roundLsb (n : Nat) (k : Int) : Config.lsbMin ≤ roundLsb n k := by
  have hl : Config.lsbMin = 1 - Config.bias - 128 := rfl
  unfold roundLsb
  split_ifs <;> omega

/-- Writing `n` for the position of the highest bit: `2^n <= m < 2^(n+1)`. -/
theorem bitLength_bounds {m : Nat} (h : m ≠ 0) : 2 ^ (bitLength m - 1) ≤ m ∧ m < 2 ^ bitLength m := by
  refine ⟨?_, ?_⟩
  · simpa [bitLength] using Nat.log2_self_le h
  · simpa [bitLength] using Nat.lt_log2_self

/-- The rounded significand has at most 129 bits, or is 2^129 itself after a carry (R112). -/
theorem roundSignificand_le {m n : Nat} {k : Int} {st : Bool} (hm : m < 2 ^ (n + 1)) :
    roundSignificand m n (roundLsb n k - k) st ≤ 2 ^ 129 := by
  have hl : Config.lsbMin = 1 - Config.bias - 128 := rfl
  have hbound : (n : Int) + 1 - (roundLsb n k - k) ≤ 129 := by
    unfold roundLsb
    split_ifs <;> omega
  generalize roundLsb n k - k = sh at hbound
  unfold roundSignificand
  split
  · rename_i h
    obtain ⟨d, rfl⟩ : ∃ d : Nat, sh = -d := ⟨(-sh).toNat, by omega⟩
    have hd : (-(-(d : Int))).toNat = d := by omega
    rw [hd, Nat.shiftLeft_eq]
    calc m * 2 ^ d ≤ 2 ^ (n + 1) * 2 ^ d := Nat.mul_le_mul_right _ hm.le
      _ = 2 ^ (n + 1 + d) := (pow_add _ _ _).symm
      _ ≤ 2 ^ 129 := Nat.pow_le_pow_right (by decide) (by omega)
  · split
    · exact Nat.zero_le _
    · rename_i h1 h2
      obtain ⟨d, rfl⟩ : ∃ d : Nat, sh = d := ⟨sh.toNat, by omega⟩
      simp only [Int.toNat_natCast]
      have hq : m >>> d < 2 ^ 129 := by
        rw [Nat.shiftRight_eq_div_pow, Nat.div_lt_iff_lt_mul (Nat.two_pow_pos d)]
        calc m < 2 ^ (n + 1) := hm
          _ ≤ 2 ^ (129 + d) := Nat.pow_le_pow_right (by decide) (by omega)
          _ = 2 ^ 129 * 2 ^ d := pow_add _ _ _
      split_ifs <;> omega

/-- A significand of at most 129 bits packs to no NaN. -/
theorem classOf_packSignificand_ne_nan {s : Bool} {q : Nat} {lsb : Int} (hl : Config.lsbMin ≤ lsb) :
    classOf (packSignificand s q lsb) ≠ .nan := by
  have hd : Config.lsbMin = 1 - Config.bias - 128 := rfl
  have hi : Config.expInf = 4294967295 := rfl
  unfold packSignificand
  dsimp only
  split_ifs with h1 h2 h3
  · simp
  · rw [Ne, classOf_eq_nan_iff]
    simp [hi]
  · simp
  · rw [Ne, classOf_eq_nan_iff, exponentOf_packQuad, BitVec.toNat_ofInt]
    rintro ⟨h4, -⟩
    omega

/-- RoundPack never gives a NaN. -/
theorem classOf_roundPackValue_ne_nan (s : Bool) (m : Nat) (k : Int) (st : Bool) :
    classOf (roundPackValue s m k st) ≠ .nan := by
  unfold roundPackValue packRounded
  dsimp only
  have hl := lsbMin_le_roundLsb (bitLength m - 1) k
  split_ifs
  · simp
  · exact classOf_packSignificand_ne_nan (by omega)
  · exact classOf_packSignificand_ne_nan hl

end Sys2Proof.Machine
end

