-- ==== Sys2Proof/Tests/Slice0.lean ====
section
/-! SUPPORT. Tests on fixed values, each with its source in spec/, and a witness for the hypotheses of every obligation
that has some. Expected values are those of spec/95_test_vectors.md, or stand in the rule a test cites. -/

open Sys2Proof Sys2Proof.Machine

namespace Sys2Proof.Tests

/-! Quads of spec/95_test_vectors.md L0 -/

abbrev zeroP : Quad := 0x0_00000000_0000000000000000_0000000000000000#161
abbrev zeroN : Quad := 0x1_00000000_0000000000000000_0000000000000000#161
abbrev one : Quad := 0x0_7FFFFFFF_0000000000000000_0000000000000000#161
abbrev oneN : Quad := 0x1_7FFFFFFF_0000000000000000_0000000000000000#161
abbrev two : Quad := 0x0_80000000_0000000000000000_0000000000000000#161
abbrev three : Quad := 0x0_80000000_8000000000000000_0000000000000000#161
abbrev four : Quad := 0x0_80000001_0000000000000000_0000000000000000#161
abbrev five : Quad := 0x0_80000001_4000000000000000_0000000000000000#161
abbrev tenth : Quad := 0x0_7FFFFFFB_9999999999999999_999999999999999A#161
abbrev maxQ : Quad := 0x0_FFFFFFFE_FFFFFFFFFFFFFFFF_FFFFFFFFFFFFFFFF#161
abbrev minN : Quad := 0x0_00000001_0000000000000000_0000000000000000#161
abbrev minS : Quad := 0x0_00000000_0000000000000000_0000000000000001#161
abbrev maxS : Quad := 0x0_00000000_FFFFFFFFFFFFFFFF_FFFFFFFFFFFFFFFF#161
abbrev infP : Quad := 0x0_FFFFFFFF_0000000000000000_0000000000000000#161
abbrev infN : Quad := 0x1_FFFFFFFF_0000000000000000_0000000000000000#161
abbrev nanX : Quad := 0x1_FFFFFFFF_0000000000000000_0000000000000005#161

/-! What is ill formed is refused -/

/-- R74: the three reserved opcodes are no legal ones, and 100 is. -/
theorem test_wf_opcode :
    Request.legalOpcode ⟨5, one, two⟩ = false ∧ Request.legalOpcode ⟨6, one, two⟩ = false ∧
      Request.legalOpcode ⟨7, nanX, zeroP⟩ = false ∧ Request.legalOpcode ⟨4, one, two⟩ = true := by decide

/-- R38: an OK response with another class than its result's. -/
theorem test_wf_response_class : Response.wellFormed ⟨.ok, 0b001#3, one⟩ = false := by decide

/-- R27: an OK response with a NaN that is not the canonical one. -/
theorem test_wf_response_nan :
    Response.wellFormed ⟨.ok, 0b100#3, nanX⟩ = false ∧ Response.wellFormed ⟨.ok, 0b100#3, nanQuad⟩ = true := by decide

/-- R251: any class code and result in an ILLEGAL_OP response. -/
theorem test_wf_response_illegal : Response.wellFormed ⟨.illegalOp, 0b111#3, nanX⟩ = true := by decide

/-- R102: a slot of 2^32 is ill formed between primitives. -/
theorem test_wf_limbs :
    Limbs.wellFormed [0x100000000#64, 0] = false ∧ Limbs.wellFormed [0xFFFFFFFF#64, 0] = true := by decide

/-- R75, R28: no operand makes an instruction ill formed, the non-canonical NaN included. -/
theorem test_wf_instruction : Instr.wellFormed (.qsqrt nanX infN) = true := by decide

/-! Decoding: words of spec/95_test_vectors.md, programs P1 to P5, and of R70 and R73 -/

theorem test_decode_qadd : decode 0x00FFFFFFFE000000000000000000000000000000008000000000000000000000000000000000000000#325 = .ok (.qadd one two) := by
  decide +kernel

theorem test_decode_qsub : decode 0x0500000001000000000000000000000000000000008000000080000000000000000000000000000000#325 = .ok (.qsub three three) := by
  decide +kernel

theorem test_decode_qmul : decode 0x09FFFFFFFE000000000000000000000000000000010000000000000000000000000000000000000000#325 =
    .ok (.qmul infP zeroN) := by
  decide +kernel

theorem test_decode_qdiv : decode 0x0C00000000000000000000000000000000000000028000000000000000000000000000000000000000#325 = .ok (.qdiv minS two) := by
  decide +kernel

theorem test_decode_qsqrt : decode 0x1100000004400000000000000000000000000000000000000000000000000000000000000000000000#325 =
    .ok (.qsqrt 0x0_80000002_2000000000000000_0000000000000000#161 zeroP) := by
  decide +kernel

/-- R74: program P5's word of opcode 101. -/
theorem test_decode_reserved : decode 0x14FFFFFFFE000000000000000000000000000000008000000000000000000000000000000000000000#325 =
    .error (.reservedOpcode 5) := by
  decide +kernel

/-- R70: the word written bit by bit, op 001, a of sign 1 and nothing else, b of its lowest bit alone. -/
theorem test_decode_bits :
    decode (0b001#3 ++ (1#1 ++ 0#160) ++ (0#160 ++ 1#1)) = .ok (.qsub zeroN minS) := by decide +kernel

theorem test_encode_qdiv : encode (.qdiv minS two) = 0x0C00000000000000000000000000000000000000028000000000000000000000000000000000000000#325 := by
  decide +kernel

theorem test_table_word :
    decodeTableWord 328 0x0500000001000000000000000000000000000000008000000080000000000000000000000000000000 = some (.qsub three three) ∧
      decodeTableWord 328 (2 ^ 325) = none := by decide +kernel

/-- The interface: from reset, with a QADD word of the table placed, the next step is the meaning of that QADD. -/
theorem test_fetch_word :
    step (State.reset.withFetchWord 328 0x00FFFFFFFE000000000000000000000000000000008000000000000000000000000000000000000000) =
      exec (.qadd one two) ((State.reset.placeCommand ⟨0, one, two⟩).withSchedule []).tick := by rfl

/-! Two vectors a command, spec/95_test_vectors.md L2.3 to L2.7 -/

theorem test_qadd_above_tie :
    qadd one 0x0_7FFFFF7E_0000000000000000_0200000000000000#161 = .ok 0x0_7FFFFFFF_0000000000000000_0000000000000001#161 := by
  decide +kernel

theorem test_qadd_carries_into_normal : qadd maxS minS = .ok minN := by decide +kernel

theorem test_qsub_just_below_one :
    qsub one 0x0_7FFFFF7D_8000000000000000_0000000000000000#161 = .ok 0x0_7FFFFFFE_FFFFFFFFFFFFFFFF_FFFFFFFFFFFFFFFF#161 := by
  decide +kernel

theorem test_qsub_infinity : qsub five infP = .ok infN := by decide +kernel

theorem test_qmul_tenth : qmul tenth tenth = .ok 0x0_7FFFFFF8_47AE147AE147AE14_7AE147AE147AE148#161 := by decide +kernel

theorem test_qmul_subnormal_tie :
    qmul 0x1_00000000_0000000000000000_0000000000000001#161 0x0_7FFFFFFE_0000000000000000_0000000000000000#161 = .ok zeroN := by
  decide +kernel

theorem test_qdiv_third : qdiv one three = .ok 0x0_7FFFFFFD_5555555555555555_5555555555555555#161 := by decide +kernel

theorem test_qdiv_negative_zero : qdiv one zeroN = .ok infN := by decide +kernel

theorem test_qsqrt_two : qsqrt two = .ok 0x0_7FFFFFFF_6A09E667F3BCC908_B2FB1366EA957D3E#161 := by decide +kernel

theorem test_qsqrt_subnormal : qsqrt minS = .ok 0x0_3FFFFFC0_0000000000000000_0000000000000000#161 := by decide +kernel

/-! The rounding unit (L2.1), the limb primitives (L2.2) and the datapaths -/

/-- RP4: the tie at the overflow point. -/
theorem test_round_overflow_tie : roundPack false (2 ^ 130 - 1) 2147483518 false = .ok infP := by decide +kernel

/-- RP8 and RP10: ties and sticky below MIN_NORMAL. -/
theorem test_round_subnormal :
    roundPack false 3 (Config.lsbMin - 1) false = .ok 2#161 ∧
      roundPack false (2 ^ 129) (Config.lsbMin - 130) true = .ok minS := by decide +kernel

/-- R111: a sticky with fewer than 130 bits. -/
theorem test_round_precondition : roundPack false 1 0 true = .error .roundPackPrecondition := by decide

/-- LB3 and LB4: the borrow past the top and its add-back. -/
theorem test_limbs_borrow :
    subtractAligned [0, 0, 0, 5] [7] 3 = .ok ([0xFFFFFFFF, 0xFFFFFFFF, 0xFFFFFFFF, 0xFFFFFFFE], true) ∧
      addAligned [0xFFFFFFFF, 0xFFFFFFFF, 0xFFFFFFFF, 0xFFFFFFFE] [7] 3 = .ok ([0, 0, 0, 5], true) := by decide +kernel

/-- R144, R174, R201, R227: the datapaths on subnormal operands (A17, M19 and Q's MINS). -/
theorem test_datapaths :
    (do addDatapath (← unpack maxS) (← unpack minS)) = .ok minN ∧
      (do mulDatapath false (← unpack minS) (← unpack 0x0_8000007F_0000000000000000_0000000000000000#161)) = .ok minN ∧
      (do divDatapath false (← unpack one) (← unpack three)) = .ok 0x0_7FFFFFFD_5555555555555555_5555555555555555#161 ∧
      (do sqrtDatapath (← unpack minS)) = .ok 0x0_3FFFFFC0_0000000000000000_0000000000000000#161 := by decide +kernel

/-! The assembler (R80, R81, R84) -/

theorem test_parse_line :
    parseLine "qsub 3, -1*2^0 ; a comment".toList =
        .ok (some (.binary 1 (.literal (.rational false 3 0)) (.literal (.rational true 1 0)))) ∧
      parseLine "QADD @r, MAX".toList = .ok (some (.binary 0 .lastResult (.literal (.named false .maxFinite)))) ∧
      parseLine "QSQRT".toList = .error .lineNotUnderstood := by decide +kernel

/-- R81: the fields of a tuple are decimal or hexadecimal, and the underscores of packed hexadecimal stand only in its
layout. -/
theorem test_parse_literal :
    parseLiteral "(0, 0x7FFFFFFF, 0, 1)".toList = some (.tuple 0 0x7FFFFFFF 0 1) ∧
      parseLiteral "(0b0, 0, 0, 1)".toList = none ∧
      parseLiteral "0x0_80000000_0000000000000000_0000000000000000".toList = some (.packed two.toNat) ∧
      parseLiteral "0x08000000000000000000000000000000000000000".toList = some (.packed two.toNat) ∧
      parseLiteral "0x0_8000_0000_0000000000000000_0000000000000000".toList = none := by decide +kernel

theorem test_literals :
    literalQuad (.rational true 3 (-1)) = .ok 0x1_7FFFFFFF_8000000000000000_0000000000000000#161 ∧
      literalQuad (.rational false (2 ^ 129 + 1) 0) = .error .literalIsNoQuad ∧
      literalQuad (.packed (2 ^ 161)) = .error .literalIsNoQuad ∧ literalQuad (.named false .minNormal) = .ok minN := by
  decide +kernel

theorem test_assemble :
    assemble none (.root (.literal (.named false .posInf))) = .ok ⟨4, infP, zeroP⟩ ∧
      assemble none (.root .lastResult) = .error .noResultOperand := by decide +kernel

/-! Values of quads near 1, of Zero and of the least subnormal -/

theorem valueOf_normal {x : Quad} (h : classOf x = .normal) :
    valueOf x = some (signFactor (signOf x) * (1 + fractionOf x * 2 ^ (-128 : ℤ)) * 2 ^ ((exponentOf x : ℤ) - Config.bias)) := by
  simp [valueOf, h]

theorem value_one : valueOf one = some 1 := by
  rw [valueOf_normal (by decide), show signOf one = false by decide, show fractionOf one = 0 by decide,
    show (exponentOf one : ℤ) - Config.bias = 0 by decide]
  norm_num [signFactor]

theorem value_oneN : valueOf oneN = some (-1) := by
  rw [valueOf_normal (by decide), show signOf oneN = true by decide, show fractionOf oneN = 0 by decide,
    show (exponentOf oneN : ℤ) - Config.bias = 0 by decide]
  norm_num [signFactor]

theorem value_two : valueOf two = some 2 := by
  rw [valueOf_normal (by decide), show signOf two = false by decide, show fractionOf two = 0 by decide,
    show (exponentOf two : ℤ) - Config.bias = 1 by decide]
  norm_num [signFactor]

theorem value_three : valueOf three = some 3 := by
  rw [valueOf_normal (by decide), show signOf three = false by decide, show fractionOf three = 2 ^ 127 by decide +kernel,
    show (exponentOf three : ℤ) - Config.bias = 1 by decide]
  norm_num [signFactor]

theorem value_four : valueOf four = some 4 := by
  rw [valueOf_normal (by decide), show signOf four = false by decide, show fractionOf four = 0 by decide,
    show (exponentOf four : ℤ) - Config.bias = 2 by decide]
  norm_num [signFactor]

theorem value_zero (s : Bool) : valueOf (zeroQuad s) = some 0 := by simp [valueOf]

/-! Witnesses: values that meet the hypotheses of each obligation, clause by clause -/

theorem witness_DecodedWordEncodesBack :
    decode 0x0C00000000000000000000000000000000000000028000000000000000000000000000000000000000#325 = .ok (.qdiv minS two) := test_decode_qdiv

theorem witness_RationalLiteralIsExact :
    literalQuad (.rational false 1 0) = .ok one ∧ valueOf one = some (signFactor false * (1 * 2 ^ (0 : ℤ))) := by
  refine ⟨by decide +kernel, ?_⟩
  rw [value_one]
  norm_num [signFactor]

theorem witness_DistinctQuadsDenoteDistinctValues :
    (classOf one ≠ .nan ∧ classOf two ≠ .nan ∧ one ≠ two) ∧ (classOf zeroP ≠ .nan ∧ classOf zeroN ≠ .nan ∧ zeroP ≠ zeroN) ∧
      (classOf infP ≠ .nan ∧ classOf infN ≠ .nan ∧ infP ≠ infN) := by decide

theorem witness_UnpackGivesTheExactValue :
    classOf infN = .infinity ∧ classOf nanX = .nan ∧ classOf maxQ = .normal ∧ classOf minN = .normal ∧
      classOf minS = .subnormal ∧ classOf maxS = .subnormal ∧ classOf zeroN = .zero := by decide

theorem witness_NormalizeKeepsTheValue :
    (1 ≤ 1 ∧ 1 < 2 ^ 129) ∧ 1 ≤ 2 ^ 129 - 1 ∧ 2 ^ 129 - 1 < 2 ^ 129 := by decide

/-- With no sticky, 3 * 2^(-1); with one, a value between 2^129 and 2^129 + 1. -/
theorem witness_RoundPackIsNearestEven :
    ((false = true → 2 ^ 129 ≤ 3) ∧ ((3 : ℕ) : ℝ) * 2 ^ (-1 : ℤ) ≤ 3 / 2 ∧ (3 / 2 : ℝ) < (((3 : ℕ) : ℝ) + 1) * 2 ^ (-1 : ℤ) ∧
        ((3 / 2 : ℝ) = ((3 : ℕ) : ℝ) * 2 ^ (-1 : ℤ) ↔ false = false)) ∧
      ((true = true → 2 ^ 129 ≤ 2 ^ 129) ∧ ((2 ^ 129 : ℕ) : ℝ) * 2 ^ (0 : ℤ) ≤ 2 ^ 129 + 1 / 2 ∧
        (2 ^ 129 + 1 / 2 : ℝ) < (((2 ^ 129 : ℕ) : ℝ) + 1) * 2 ^ (0 : ℤ) ∧
        ((2 ^ 129 + 1 / 2 : ℝ) = ((2 ^ 129 : ℕ) : ℝ) * 2 ^ (0 : ℤ) ↔ true = false)) := by
  norm_num

theorem witness_RoundPackKeepsGridPoints : valueOf oneN = some (-1) ∧ |(-1 : ℚ)| = ((1 : ℕ) : ℚ) * 2 ^ (0 : ℤ) :=
  ⟨value_oneN, by norm_num⟩

/-- The exact magnitude `m * 2^k` meets the four premises on v of the rounding statements. -/
theorem exact_magnitude (m : ℕ) (k : ℤ) :
    (false = true → 2 ^ 129 ≤ m) ∧ (m : ℝ) * 2 ^ k ≤ (m : ℝ) * 2 ^ k ∧ (m : ℝ) * 2 ^ k < ((m : ℝ) + 1) * 2 ^ k ∧
      ((m : ℝ) * 2 ^ k = (m : ℝ) * 2 ^ k ↔ false = false) := by
  have h : (0 : ℝ) < 2 ^ k := by positivity
  refine ⟨by simp, le_rfl, by nlinarith, by simp⟩

/-- Half of MIN_SUBNORMAL itself, and three times that, with the premises of `exact_magnitude`. -/
theorem witness_RoundPackUnderflow :
    ((1 : ℕ) : ℝ) * 2 ^ (Config.lsbMin - 1) ≤ 2 ^ (Config.lsbMin - 1) ∧
      2 ^ (Config.lsbMin - 1) < ((3 : ℕ) : ℝ) * 2 ^ (Config.lsbMin - 1) ∧
      ((3 : ℕ) : ℝ) * 2 ^ (Config.lsbMin - 1) < 2 ^ (1 - Config.bias) := by
  have h : (0 : ℝ) < 2 ^ (Config.lsbMin - 1) := by positivity
  have e : (2 : ℝ) ^ (1 - Config.bias) = 2 ^ (Config.lsbMin - 1) * 2 ^ (129 : ℤ) := by
    rw [← zpow_add₀ (by norm_num)]
    congr 1
  have g : (3 : ℝ) < 2 ^ (129 : ℤ) := by norm_num
  refine ⟨by simp, by push_cast; linarith, ?_⟩
  rw [e]
  push_cast
  nlinarith

/-- MAX_FINITE plus half its ulp itself, and MAX_FINITE, with the premises of `exact_magnitude`. -/
theorem witness_RoundPackOverflow :
    (2 ^ 129 - 2 ^ (-1 : ℤ)) * 2 ^ ((Config.emaxField : ℤ) - Config.bias - 128) ≤
        ((2 ^ 130 - 1 : ℕ) : ℝ) * 2 ^ ((Config.emaxField : ℤ) - Config.bias - 129) ∧
      ((2 ^ 130 - 2 : ℕ) : ℝ) * 2 ^ ((Config.emaxField : ℤ) - Config.bias - 129) <
        (2 ^ 129 - 2 ^ (-1 : ℤ)) * 2 ^ ((Config.emaxField : ℤ) - Config.bias - 128) := by
  have e : (2 : ℝ) ^ ((Config.emaxField : ℤ) - Config.bias - 128) =
      2 ^ ((Config.emaxField : ℤ) - Config.bias - 129) * 2 := by
    rw [show (Config.emaxField : ℤ) - Config.bias - 128 = (Config.emaxField : ℤ) - Config.bias - 129 + 1 by ring,
      zpow_add₀ (by norm_num), zpow_one]
  have h : (0 : ℝ) < 2 ^ ((Config.emaxField : ℤ) - Config.bias - 129) := by positivity
  rw [e]
  generalize (2 : ℝ) ^ ((Config.emaxField : ℤ) - Config.bias - 129) = p at h
  norm_num
  constructor <;> nlinarith

/-- MIN_NORMAL and half of MIN_SUBNORMAL are below the overflow point, one at each side of MIN_NORMAL; MIN_NORMAL lies in the
binade of its own exponent; the other premises are those of `exact_magnitude`. -/
theorem witness_RoundPackErrorIsAtMostHalfAnUlp :
    2 ^ (1 - Config.bias) ≤ ((1 : ℕ) : ℝ) * 2 ^ (1 - Config.bias) ∧
      ((1 : ℕ) : ℝ) * 2 ^ (Config.lsbMin - 1) < 2 ^ (1 - Config.bias) ∧
      ((1 : ℕ) : ℝ) * 2 ^ (1 - Config.bias) < (2 ^ 129 - 2 ^ (-1 : ℤ)) * 2 ^ ((Config.emaxField : ℤ) - Config.bias - 128) ∧
      ((1 : ℕ) : ℝ) * 2 ^ (1 - Config.bias) < 2 ^ (1 - Config.bias + 1) := by
  have e1 : (2 : ℝ) ^ (1 - Config.bias) ≤ 1 := zpow_le_one_of_nonpos₀ (by norm_num) (by decide)
  have e2 : (1 : ℝ) ≤ 2 ^ ((Config.emaxField : ℤ) - Config.bias - 128) := one_le_zpow₀ (by norm_num) (by decide)
  have e3 : (2 : ℝ) ≤ 2 ^ 129 - 2 ^ (-1 : ℤ) := by norm_num
  refine ⟨by simp, ?_, ?_, ?_⟩
  · simpa using zpow_lt_zpow_right₀ (by norm_num : (1 : ℝ) < 2) (by decide : Config.lsbMin - 1 < 1 - Config.bias)
  · push_cast
    nlinarith
  · simp

theorem witness_CommandFrame :
    exec (.qadd one two) State.reset = .next (State.reset.respond ⟨.ok, 0b010#3, three⟩) ∧
      exec (.qsub three two) State.reset = .next (State.reset.respond ⟨.ok, 0b010#3, one⟩) ∧
      exec (.qmul one two) State.reset = .next (State.reset.respond ⟨.ok, 0b010#3, two⟩) ∧
      exec (.qdiv two two) State.reset = .next (State.reset.respond ⟨.ok, 0b010#3, one⟩) ∧
      exec (.qsqrt four nanX) State.reset = .next (State.reset.respond ⟨.ok, 0b010#3, two⟩) := by
  refine ⟨?_, ?_, ?_, ?_, ?_⟩
  · simp only [exec, execQadd, show qadd one two = .ok three by decide +kernel]
    rfl
  · simp only [exec, execQsub, show qsub three two = .ok one by decide +kernel]
    rfl
  · simp only [exec, execQmul, show qmul one two = .ok two by decide +kernel]
    rfl
  · simp only [exec, execQdiv, show qdiv two two = .ok one by decide +kernel]
    rfl
  · simp only [exec, execQsqrt, show qsqrt four = .ok two by decide +kernel]
    rfl

theorem witness_NanOperandGivesCanonicalNan :
    (classOf nanX = .nan ∨ classOf infP = .nan) ∧ (classOf zeroN = .nan ∨ classOf nanX = .nan) ∧ classOf nanQuad = .nan := by
  decide

theorem witness_ExactResultsAreReturnedExactly :
    valueOf one = some 1 ∧ valueOf two = some 2 ∧ valueOf three = some 3 ∧ valueOf four = some 4 ∧
      valueOf oneN = some (-1) ∧ ((1 : ℚ) + 2 = 3 ∧ (1 : ℚ) - 2 = -1 ∧ (2 : ℚ) * 2 = 4 ∧ (2 : ℚ) ≠ 0 ∧ (4 : ℚ) / 2 = 2) :=
  ⟨value_one, value_two, value_three, value_four, value_oneN, by norm_num⟩

theorem witness_QaddSpecialValues :
    (classOf nanX = .nan ∨ classOf infP = .nan) ∧
      (classOf infP = .infinity ∧ classOf infN = .infinity ∧ signOf infP ≠ signOf infN) ∧
      (classOf infN = .infinity ∧ classOf infN = .infinity ∧ signOf infN = signOf infN) ∧
      (classOf infP = .infinity ∧ classOf minS ≠ .infinity ∧ classOf minS ≠ .nan) ∧
      (classOf infN = .infinity ∧ classOf zeroN ≠ .infinity ∧ classOf zeroN ≠ .nan) := by decide

theorem witness_QaddZeroSigns :
    (classOf zeroN = .zero ∧ classOf zeroP = .zero ∧ valueOf zeroP = some 0 ∧ valueOf zeroN = some 0) ∧
      (valueOf one = some 1 ∧ valueOf oneN = some (-1) ∧ (1 : ℚ) ≠ 0 ∧ (1 : ℚ) + -1 = 0) ∧
      (valueOf one = some 1 ∧ valueOf two = some 2 ∧ (1 : ℚ) + 2 ≠ 0 ∧ |(1 : ℚ)| ≤ |2|) ∧
      ((2 : ℚ) + 1 ≠ 0 ∧ |(1 : ℚ)| ≤ |2|) :=
  ⟨⟨by decide, by decide, value_zero false, value_zero true⟩, ⟨value_one, value_oneN, by norm_num⟩,
    ⟨value_one, value_two, by norm_num⟩, by norm_num⟩

theorem witness_SumsAndDifferencesAreCorrectlyRounded :
    valueOf one = some 1 ∧ valueOf three = some 3 ∧ (1 : ℚ) + 3 ≠ 0 ∧ (1 : ℚ) - 3 ≠ 0 :=
  ⟨value_one, value_three, by norm_num⟩

/-- Two finite non-zero operands, normal and subnormal, for the datapath statements. -/
theorem witness_AddDatapathAgrees :
    (∃ x, unpack maxQ = .ok x ∧ x.significand ≠ 0) ∧ ∃ y, unpack minS = .ok y ∧ y.significand ≠ 0 := by
  refine ⟨⟨_, rfl, by decide⟩, ⟨_, rfl, by decide⟩⟩

theorem witness_QsubAddsTheFlippedOperand :
    (classOf infP = .infinity ∧ classOf infP = .infinity ∧ signOf infP = signOf infP) ∧
      (classOf infP = .infinity ∧ classOf infN = .infinity ∧ signOf infP ≠ signOf infN) ∧
      (classOf infP = .infinity ∧ classOf five ≠ .infinity ∧ classOf five ≠ .nan) ∧
      (classOf zeroN ≠ .infinity ∧ classOf zeroN ≠ .nan) := by decide

theorem witness_QmulSpecialValues :
    (classOf nanX = .nan ∨ classOf infP = .nan) ∧ (classOf infP = .infinity ∧ classOf zeroN = .zero) ∧
      (classOf infN = .infinity ∧ classOf minS ≠ .zero ∧ classOf minS ≠ .nan) := by decide

theorem witness_QmulIsCorrectlyRounded : valueOf three = some 3 ∧ valueOf zeroN = some 0 := ⟨value_three, value_zero true⟩

theorem witness_MulLimbsIsTheExactProduct :
    2 ^ 128 ≤ 2 ^ 128 ∧ 2 ^ 128 < 2 ^ 129 ∧ 2 ^ 128 ≤ 2 ^ 129 - 1 ∧ 2 ^ 129 - 1 < 2 ^ 129 := by decide

theorem witness_MulDatapathAgrees :
    (∃ x, unpack maxQ = .ok x ∧ x.significand ≠ 0) ∧ ∃ y, unpack minS = .ok y ∧ y.significand ≠ 0 :=
  witness_AddDatapathAgrees

theorem witness_QdivSpecialValues :
    (classOf nanX = .nan ∨ classOf infP = .nan) ∧ (classOf infP = .infinity ∧ classOf infN = .infinity) ∧
      (classOf infN = .infinity ∧ classOf zeroN ≠ .infinity ∧ classOf zeroN ≠ .nan) ∧
      (classOf infP = .infinity ∧ classOf minS ≠ .infinity ∧ classOf minS ≠ .nan) ∧
      (classOf zeroN = .zero ∧ classOf zeroP = .zero) ∧
      (classOf zeroP = .zero ∧ classOf minS ≠ .zero ∧ classOf minS ≠ .nan) := by decide

theorem witness_QdivIsCorrectlyRounded :
    valueOf one = some 1 ∧ valueOf three = some 3 ∧ (3 : ℚ) ≠ 0 ∧ classOf infN = .infinity :=
  ⟨value_one, value_three, by norm_num, by decide⟩

theorem witness_TrialLimbNeedsAtMostOneCorrection :
    2 ^ 128 ≤ 2 ^ 128 + 1 ∧ 2 ^ 128 + 1 < 2 ^ 129 ∧ 2 ^ 128 < 2 ^ 128 + 1 := by decide

/-- Both branches of the pre-shift, at the ends of the range. -/
theorem witness_DivKernelInvariants :
    (2 ^ 128 ≤ 2 ^ 128 ∧ 2 ^ 128 < 2 ^ 129 ∧ 2 ^ 128 ≤ 2 ^ 129 - 1 ∧ 2 ^ 129 - 1 < 2 ^ 129) ∧ 2 ^ 128 < 2 ^ 129 - 1 ∧
      ¬ 2 ^ 129 - 1 < 2 ^ 128 := by decide

theorem witness_DivKernelNeverMeetsATie :
    2 ^ 128 ≤ 2 ^ 128 ∧ 2 ^ 128 < 2 ^ 129 ∧ 2 ^ 128 ≤ 2 ^ 129 - 1 ∧ 2 ^ 129 - 1 < 2 ^ 129 := by decide

theorem witness_DivDatapathAgrees :
    (∃ x, unpack minS = .ok x ∧ x.significand ≠ 0) ∧ ∃ y, unpack maxQ = .ok y ∧ y.significand ≠ 0 :=
  ⟨witness_AddDatapathAgrees.2, witness_AddDatapathAgrees.1⟩

theorem witness_DivKernelBuffersAgree :
    2 ^ 128 ≤ 2 ^ 128 ∧ 2 ^ 128 < 2 ^ 129 ∧ 2 ^ 128 ≤ 2 ^ 129 - 1 ∧ 2 ^ 129 - 1 < 2 ^ 129 := by decide

theorem witness_QsqrtSpecialValues :
    classOf nanX = .nan ∧ classOf zeroN = .zero ∧
      (classOf 0x1_00000000_0000000000000000_0000000000000001#161 ≠ .zero ∧ signOf 0x1_00000000_0000000000000000_0000000000000001#161 = true) ∧
      (classOf infP = .infinity ∧ signOf infP = false) := by decide

theorem witness_QsqrtIsCorrectlyRounded : valueOf two = some 2 ∧ (0 : ℚ) < 2 := ⟨value_two, by norm_num⟩

theorem witness_QsqrtIsAlwaysNormal : valueOf two = some 2 ∧ (0 : ℚ) < 2 := ⟨value_two, by norm_num⟩

theorem witness_QsqrtOfASquareIsExact :
    (valueOf zeroN = some 0 ∧ valueOf zeroP = some (0 ^ 2)) ∧ (valueOf two = some 2 ∧ valueOf four = some (2 ^ 2) ∧ (0 : ℚ) < 2) ∧
      (valueOf oneN = some (-1) ∧ valueOf one = some ((-1) ^ 2) ∧ (-1 : ℚ) < 0) := by
  refine ⟨⟨value_zero true, ?_⟩, ⟨value_two, ?_, by norm_num⟩, value_oneN, ?_, by norm_num⟩
  · rw [show zeroP = zeroQuad false by decide, value_zero]
    norm_num
  · rw [value_four]
    norm_num
  · rw [value_one]
    norm_num

theorem witness_QsqrtIsMonotone :
    (signOf two = false ∧ signOf four = false ∧ gridPoint two = some 2 ∧ gridPoint four = some 4 ∧ (2 : ℚ) ≤ 4) ∧
      (signOf infP = false ∧ gridPoint infP = some overflowPoint ∧ overflowPoint ≤ overflowPoint) := by
  refine ⟨⟨by decide, by decide, ?_, ?_, by norm_num⟩, by decide, ?_, le_rfl⟩
  · simp [gridPoint, show classOf two = .normal by decide, value_two]
  · simp [gridPoint, show classOf four = .normal by decide, value_four]
  · simp [gridPoint, show classOf infP = .infinity by decide]

/-- Even and odd exponents, at the ends of the range. -/
theorem witness_SqrtKernelInvariants :
    (2 ^ 128 ≤ 2 ^ 128 ∧ 2 ^ 128 < 2 ^ 129 ∧ 2 ^ 128 ≤ 2 ^ 129 - 1 ∧ 2 ^ 129 - 1 < 2 ^ 129) ∧
      (-128 : ℤ) % 2 ≠ 1 ∧ (-129 : ℤ) % 2 = 1 := by decide

theorem witness_SqrtDatapathAgrees : ∃ u, unpack maxS = .ok u ∧ u.significand ≠ 0 := by
  refine ⟨_, rfl, by decide⟩

/-- A subtrahend at either end of the buffer. -/
theorem witness_SubtractAlignedSubtracts :
    Limbs.wellFormed [0, 0xFFFFFFFF#64] = true ∧ Limbs.wellFormed [7] = true ∧ 0 + [7#64].length ≤ [0, 0xFFFFFFFF#64].length ∧
      1 + [7#64].length ≤ [0, 0xFFFFFFFF#64].length := by decide

theorem witness_AddAlignedAdds :
    Limbs.wellFormed [0, 0xFFFFFFFF#64] = true ∧ Limbs.wellFormed [7] = true ∧ 0 + [7#64].length ≤ [0, 0xFFFFFFFF#64].length ∧
      1 + [7#64].length ≤ [0, 0xFFFFFFFF#64].length := by decide

theorem witness_CompareLimbsComparesValues :
    Limbs.wellFormed [0, 0xFFFFFFFF#64] = true ∧ Limbs.wellFormed [1, 0] = true ∧
      [0, 0xFFFFFFFF#64].length = [1#64, 0].length := by decide

/-- A shift that stays below 2^64, and the least one that does not. -/
theorem witness_ShiftLimbsShiftValues :
    Limbs.wellFormed [0, 1#64] = true ∧ intVal [0, 1#64] * 2 ^ 63 < 2 ^ (32 * [0, 1#64].length) ∧
      2 ^ (32 * [0, 1#64].length) ≤ intVal [0, 1#64] * 2 ^ 64 := by decide

/-! States for the statements about steps -/

/-- The outcome is a next state. -/
def isNext : Host.Outcome State Fault Refusal → Bool
  | .next _ => true
  | _ => false

/-- The next state of an outcome that has one. -/
def nextOf : Host.Outcome State Fault Refusal → State
  | .next t => t
  | _ => State.reset

theorem eq_next_of_isNext {o : Host.Outcome State Fault Refusal} (h : isNext o = true) : o = .next (nextOf o) := by
  cases o <;> simp_all [isNext, nextOf]

/-- The block BUSY with a request, and an edge next at which it completes. -/
def busyWith (q : Request) : State := State.reset.placeCommand q

/-- The block DONE with the response of QADD 1, 2, and an edge next. -/
def doneWith (e : Edge) : State := (State.reset.respond ⟨.ok, 0b010#3, three⟩).withSchedule [.edge e]

theorem witness_StepRunsTheDecodedInstruction :
    let s := busyWith ⟨0, one, two⟩
    s.schedule = [.edge Edge.quiet] ∧ Edge.quiet.rst = false ∧ s.resetSeen = true ∧ s.keepsOffer Edge.quiet = true ∧
      s.block.st = .busy ∧ s.block.cmd = some ⟨0, one, two⟩ ∧ Edge.quiet.completes = true ∧
      decode (requestWord ⟨0, one, two⟩) = .ok (.qadd one two) := by decide +kernel

/-- The least and the greatest reserved opcode. -/
theorem witness_ReservedOpcodeCompletesWithIllegalOp :
    (let s := busyWith ⟨5, nanX, two⟩
     s.schedule = [.edge Edge.quiet] ∧ Edge.quiet.rst = false ∧ s.resetSeen = true ∧ s.keepsOffer Edge.quiet = true ∧
       s.block.st = .busy ∧ s.block.cmd = some ⟨5, nanX, two⟩ ∧ Edge.quiet.completes = true ∧ 5 ≤ (5#3).toNat) ∧
      ((busyWith ⟨7, nanX, two⟩).block.cmd = some ⟨7, nanX, two⟩ ∧ 5 ≤ (7#3).toNat) := by decide

theorem witness_AcceptAndDeliver :
    let i := State.reset.withSchedule [.edge (Edge.offer ⟨5, one, two⟩)]
    (i.resetSeen = true ∧ i.keepsOffer (Edge.offer ⟨5, one, two⟩) = true ∧ i.block.st = .idle ∧
        (Edge.offer ⟨5, one, two⟩).rst = false ∧ (Edge.offer ⟨5, one, two⟩).reqValid = true) ∧
      (i.keepsOffer Edge.quiet = true ∧ Edge.quiet.reqValid = false) ∧
      ((doneWith Edge.take).resetSeen = true ∧ (doneWith Edge.take).keepsOffer Edge.take = true ∧
        (doneWith Edge.take).block.st = .done ∧ (doneWith Edge.take).block.res = some ⟨.ok, 0b010#3, three⟩ ∧
        codesProduced ⟨.ok, 0b010#3, three⟩ = true ∧ Edge.take.rst = false ∧ Edge.take.rspReady = true) ∧
      ((doneWith Edge.quiet).block.st = .done ∧ (doneWith Edge.quiet).keepsOffer Edge.quiet = true ∧
        Edge.quiet.rspReady = false) ∧
      ((busyWith ⟨5, one, two⟩).block.st = .busy ∧ (busyWith ⟨5, one, two⟩).keepsOffer Edge.wait = true ∧
        Edge.wait.rst = false ∧ Edge.wait.completes = false) := by decide

theorem witness_ResetEdgeDiscardsTheTransaction :
    ((busyWith ⟨0, one, two⟩).withSchedule [.edge Edge.reset]).schedule = [.edge Edge.reset] ∧
      (doneWith Edge.reset).schedule = [.edge Edge.reset] ∧ Edge.reset.rst = true := by decide

/-- A look in IDLE; a request withdrawn, and one changed; a request before any reset; a request offered in BUSY. -/
theorem witness_BrokenHandshakeFaults :
    ((State.reset.withSchedule [.readResponse]).block.st ≠ .done) ∧
      (let s := { busyWith ⟨0, one, two⟩ with offered := some ⟨1, one, one⟩ }
       s.resetSeen = true ∧ s.offered = some ⟨1, one, one⟩ ∧ Edge.quiet.rst = false ∧ Edge.quiet.reqValid = false ∧
         (Edge.offer ⟨1, one, two⟩).reqValid = true ∧ (Edge.offer ⟨1, one, two⟩).request ≠ ⟨1, one, one⟩) ∧
      ((State.powerOn.withSchedule [.edge (Edge.offer ⟨0, one, two⟩)]).resetSeen = false ∧
        (Edge.offer ⟨0, one, two⟩).reqValid = true ∧ (Edge.offer ⟨0, one, two⟩).rst = false) ∧
      (let s := (busyWith ⟨0, one, two⟩).withSchedule [.edge (Edge.offer ⟨1, one, one⟩)]
       s.keepsOffer (Edge.offer ⟨1, one, one⟩) = true ∧ s.block.st ≠ .idle ∧ ∃ t, step s = .next t) :=
  ⟨by decide, by decide, ⟨rfl, by decide, by decide⟩, by decide, by decide, _, eq_next_of_isNext (by decide +kernel)⟩

/-- The invariant before a step of QADD 1, 2 that answers a next state. -/
theorem witness_InvariantIsKeptByEveryStep :
    (busyWith ⟨0, one, two⟩).inv = true ∧ ∃ t, step (busyWith ⟨0, one, two⟩) = .next t :=
  ⟨by decide, _, eq_next_of_isNext (by decide +kernel)⟩

theorem witness_ObedientHostIsNeverStopped :
    ((busyWith ⟨7, one, two⟩).inv = true ∧ (busyWith ⟨7, one, two⟩).hostObeys (busyWith ⟨7, one, two⟩).upcoming = true) ∧
      ((doneWith Edge.take).inv = true ∧ (doneWith Edge.take).hostObeys (doneWith Edge.take).upcoming = true) := by decide

/-- From reset, and with the request held from before. -/
theorem witness_TransactionDeliversItsResponse :
    State.reset.block.st = .idle ∧ State.reset.resetSeen = true ∧ State.reset.offered = none ∧
      { State.reset with offered := some ⟨4, two, zeroP⟩ }.offered = some ⟨4, two, zeroP⟩ ∧
      decode (requestWord ⟨4, two, zeroP⟩) = .ok (.qsqrt two zeroP) ∧ 5 ≤ (5#3).toNat := by decide +kernel

/-- Two BUSY states of one request, the second with another request offered and a response delivered before; and the same
request from reset and after another transaction. -/
theorem witness_ResponseDependsOnTheRequestAlone :
    (busyWith ⟨3, one, three⟩).completesNext ⟨3, one, three⟩ ∧
      { busyWith ⟨3, one, three⟩ with
        offered := some ⟨0, one, one⟩, schedule := [.edge (Edge.offer ⟨0, one, one⟩)],
        delivered := [⟨.ok, 0b010#3, three⟩] }.completesNext ⟨3, one, three⟩ ∧
      State.reset.block.st = .idle ∧ State.reset.resetSeen = true ∧ State.reset.offered = none ∧
      ∃ u, runTransaction ⟨0, one, two⟩ 1 2 State.reset = .next u ∧ u.block.st = .idle ∧ u.resetSeen = true ∧
        u.offered = none ∧ u.delivered = [⟨.ok, 0b010#3, three⟩] :=
  ⟨⟨Edge.quiet, by decide⟩, ⟨Edge.offer ⟨0, one, one⟩, by decide⟩, rfl, rfl, rfl, _, eq_next_of_isNext (by decide +kernel),
    by decide +kernel, by decide +kernel, by decide +kernel, by decide +kernel⟩

theorem witness_OnlyDeliverDelivers :
    ∃ t, step (doneWith Edge.take) = .next t ∧ t.delivered = [⟨.ok, 0b010#3, three⟩] :=
  ⟨_, eq_next_of_isNext (by decide +kernel), by decide +kernel⟩

theorem witness_LatchesAreWrittenByTheirStepsOnly :
    (∃ t, (busyWith ⟨0, one, two⟩).resetSeen = true ∧ step (busyWith ⟨0, one, two⟩) = .next t ∧ t.resetSeen = true ∧
        t.block.res = some ⟨.ok, 0b010#3, three⟩) ∧
      ∃ t, State.reset.inv = true ∧ step (State.reset.withSchedule [.edge (Edge.offer ⟨0, one, two⟩)]) = .next t ∧
        t.resetSeen = true ∧ t.block.cmd = some ⟨0, one, two⟩ :=
  ⟨⟨_, rfl, eq_next_of_isNext (by decide +kernel), by decide +kernel, by decide +kernel⟩,
    ⟨_, by decide, eq_next_of_isNext (by decide +kernel), by decide +kernel, by decide +kernel⟩⟩

end Sys2Proof.Tests
end

section
/-! SUPPORT. What one step can do, said once: the edge at which a transaction step happens, the effect of that step, the
effect of any step, and what a step gives where its event is known. -/

namespace Sys2Proof.Machine

/-! The edge at which a transaction step happens (spec/10_state.md section 3) -/

/-- The next event is the edge `e`, without reset and after one, and the host keeps its offer at it: the edges at which a
transaction step happens (R40, R41, R43, spec/70_reset_and_hazards.md R286). -/
structure State.Samples (s : State) (e : Edge) : Prop where
  upcoming : s.upcoming = .edge e
  rst : e.rst = false
  resetSeen : s.resetSeen = true
  keepsOffer : s.keepsOffer e = true

/-- The state past its next event. -/
def State.pastEvent (s : State) : State := s.withSchedule s.schedule.tail

/-- The state on which the transaction step of the edge `e` runs: past that event, the free values at their next draw, the
host's offer noted. -/
def State.atEdge (s : State) (e : Edge) : State := s.pastEvent.tick.noteOffer e

@[simp] theorem State.pastEvent_block (s : State) : s.pastEvent.block = s.block := rfl
@[simp] theorem State.pastEvent_schedule (s : State) : s.pastEvent.schedule = s.schedule.tail := rfl
@[simp] theorem State.pastEvent_offered (s : State) : s.pastEvent.offered = s.offered := rfl
@[simp] theorem State.pastEvent_delivered (s : State) : s.pastEvent.delivered = s.delivered := rfl
@[simp] theorem State.pastEvent_resetSeen (s : State) : s.pastEvent.resetSeen = s.resetSeen := rfl
@[simp] theorem State.pastEvent_keepsOffer (s : State) (e : Edge) : s.pastEvent.keepsOffer e = s.keepsOffer e := rfl

@[simp] theorem State.atEdge_st (s : State) (e : Edge) : (s.atEdge e).block.st = s.block.st := rfl
@[simp] theorem State.atEdge_cmd (s : State) (e : Edge) : (s.atEdge e).block.cmd = s.block.cmd := rfl
@[simp] theorem State.atEdge_res (s : State) (e : Edge) : (s.atEdge e).block.res = s.block.res := rfl
@[simp] theorem State.atEdge_coherent (s : State) (e : Edge) :
    (s.atEdge e).block.coherent = s.block.coherent := rfl
@[simp] theorem State.atEdge_offered (s : State) (e : Edge) :
    (s.atEdge e).offered = if e.reqValid && !s.block.reqReady then some e.request else none := rfl
@[simp] theorem State.atEdge_delivered (s : State) (e : Edge) : (s.atEdge e).delivered = s.delivered := rfl
@[simp] theorem State.atEdge_resetSeen (s : State) (e : Edge) : (s.atEdge e).resetSeen = s.resetSeen := rfl

@[simp] theorem Block.reqReady_eq_true_iff {b : Block} : b.reqReady = true ↔ b.st = .idle := by
  simp [Block.reqReady]

/-! A step whose event is known -/

theorem State.upcoming_of_schedule {s : State} {v : Event} {vs : List Event} (h : s.schedule = v :: vs) :
    s.upcoming = v := by
  simp [State.upcoming, h]

theorem State.pastEvent_of_schedule {s : State} {v : Event} {vs : List Event} (h : s.schedule = v :: vs) :
    s.pastEvent = s.withSchedule vs := by
  simp [State.pastEvent, h]

theorem step_of_edge {s : State} {e : Edge} (h : s.upcoming = .edge e) : step s = s.pastEvent.clockEdge e := by
  rw [step_eq_event, h]
  rfl

theorem step_of_readResponse {s : State} (h : s.upcoming = .readResponse) : step s = s.pastEvent.readResponse := by
  rw [step_eq_event, h]
  rfl

theorem step_of_losePower {s : State} (h : s.upcoming = .losePower) : step s = .next s.pastEvent.losePower := by
  rw [step_eq_event, h]
  rfl

theorem State.clockEdge_of_reset {s : State} {e : Edge} (h : e.rst = true) : s.clockEdge e = .next s.applyReset := by
  simp [State.clockEdge, h]

theorem State.clockEdge_of_not_keepsOffer {s : State} {e : Edge} (hrst : e.rst = false) (hseen : s.resetSeen = true)
    (hk : s.keepsOffer e = false) : s.clockEdge e = .fault .requestNotHeld := by
  simp [State.clockEdge, hrst, hseen, hk]

theorem State.clockEdge_of_request_before_reset {s : State} {e : Edge} (hrst : e.rst = false)
    (hseen : s.resetSeen = false) (hv : e.reqValid = true) : s.clockEdge e = .fault .requestBeforeReset := by
  simp [State.clockEdge, hrst, hseen, hv]

theorem State.keepsOffer_eq_false_iff {s : State} {e : Edge} :
    s.keepsOffer e = false ↔ ∃ q, s.offered = some q ∧ (e.reqValid = false ∨ e.request ≠ q) := by
  unfold State.keepsOffer
  cases s.offered with
  | none => simp
  | some q => simp [← Bool.not_eq_true, imp_iff_not_or]

/-- At an edge that a transaction step happens at, a step is that transaction step. -/
theorem State.Samples.step_eq {s : State} {e : Edge} (h : s.Samples e) : step s = (s.atEdge e).transact e := by
  obtain ⟨hup, hrst, hseen, hk⟩ := h
  rw [step_of_edge hup]
  simp [State.clockEdge, hrst, hseen, hk, State.atEdge]

theorem State.Samples.of_schedule {s : State} {e : Edge} {vs : List Event} (hs : s.schedule = .edge e :: vs)
    (hrst : e.rst = false) (hseen : s.resetSeen = true) (hk : s.keepsOffer e = true) : s.Samples e :=
  ⟨State.upcoming_of_schedule hs, hrst, hseen, hk⟩

/-! The transaction step in each of the three states (spec/10_state.md R40, R41, R43) -/

theorem State.transact_of_idle_offer {s : State} {e : Edge} (hst : s.block.st = .idle) (hv : e.reqValid = true) :
    s.transact e = .next (s.accept e.request) := by
  simp [State.transact, hst, hv]

theorem State.transact_of_idle_quiet {s : State} {e : Edge} (hst : s.block.st = .idle) (hv : e.reqValid = false) :
    s.transact e = .next s := by
  simp [State.transact, hst, hv]

theorem State.transact_of_busy_waiting {s : State} {e : Edge} (hst : s.block.st = .busy)
    (hc : e.completes = false) : s.transact e = .next s := by
  simp [State.transact, hst, hc]

theorem State.transact_of_busy_completing {s : State} {e : Edge} (hst : s.block.st = .busy)
    (hc : e.completes = true) : s.transact e = s.completeCommand := by
  simp [State.transact, hst, hc]

theorem State.transact_of_done_waiting {s : State} {e : Edge} (hst : s.block.st = .done)
    (hr : e.rspReady = false) : s.transact e = .next s := by
  simp [State.transact, hst, hr]

theorem State.transact_of_done_taking {s : State} {e : Edge} {p : Response} (hst : s.block.st = .done)
    (hres : s.block.res = some p) (hcode : codesProduced p = true) (hr : e.rspReady = true) :
    s.transact e = .next { s with block := s.block.deliver, delivered := s.delivered ++ [p] } := by
  have hread : s.block.readResult = .ok p := Block.readResult_eq_ok_iff.2 ⟨hst, hres⟩
  simp [State.transact, hst, hr, State.deliver, hread, hcode]

theorem State.completeCommand_of_decode {s : State} {q : Request} {i : Instr} (hst : s.block.st = .busy)
    (hcmd : s.block.cmd = some q) (hi : decodeRequest q = .ok i) : s.completeCommand = exec i s := by
  have hread : s.block.readCommand = .ok q := Block.readCommand_eq_ok_iff.2 ⟨hst, hcmd⟩
  simp [State.completeCommand, hread, hi]

/-- Outside DONE a read of `RES` is a fault (R46). -/
theorem Block.readResult_of_not_done {b : Block} (h : b.st ≠ .done) : b.readResult = .error .responseHasNoValue := by
  cases hr : b.readResult with
  | error f => rw [Block.readResult_eq_error hr]
  | ok p => exact absurd (Block.readResult_eq_ok_iff.1 hr).1 h

/-! The effect of a step that goes on -/

/-- `p` is a response to the request `q` at a COMPLETE in state `s`: the command's OK response, or ILLEGAL_OP for a reserved
opcode (R42, spec/60_exceptions.md R251). -/
def State.Answers (s : State) (q : Request) (p : Response) : Prop :=
  (∃ i r, decodeRequest q = .ok i ∧ commandResult i = .ok r ∧ p = okResponse r) ∨
    ((∃ d, decodeRequest q = .error d) ∧ p = illegalResponse s.draws)

/-- What the transaction step of the edge `e` makes of `s`. -/
inductive TransactEffect (s : State) (e : Edge) : State → Prop where
  /-- IDLE without a request, BUSY before the completing edge, or DONE without `rsp_ready`. -/
  | stay (hwait : (s.block.st = .idle ∧ e.reqValid = false) ∨ (s.block.st = .busy ∧ e.completes = false) ∨
      (s.block.st = .done ∧ e.rspReady = false)) : TransactEffect s e s
  | accept (hst : s.block.st = .idle) (hv : e.reqValid = true) : TransactEffect s e (s.accept e.request)
  | complete (q : Request) (p : Response) (hst : s.block.st = .busy) (hcmd : s.block.cmd = some q)
      (hc : e.completes = true) (hp : s.Answers q p) : TransactEffect s e (s.respond p)
  | deliver (p : Response) (hst : s.block.st = .done) (hres : s.block.res = some p) (hr : e.rspReady = true)
      (hcode : codesProduced p = true) :
      TransactEffect s e { s with block := s.block.deliver, delivered := s.delivered ++ [p] }

theorem State.transact_effect {s t : State} {e : Edge} (h : s.transact e = .next t) : TransactEffect s e t := by
  obtain ⟨hst, hv, rfl⟩ | ⟨hst, hv, rfl⟩ | ⟨hst, hc, rfl⟩ | ⟨hst, hc, hcc⟩ | ⟨hst, hr, rfl⟩ | ⟨hst, hr, hd⟩ :=
    State.transact_eq_next h
  · exact .stay (.inl ⟨hst, hv⟩)
  · exact .accept hst hv
  · exact .stay (.inr (.inl ⟨hst, hc⟩))
  · obtain ⟨q, -, hcmd, ⟨i, r, hi, hres, rfl⟩ | ⟨hd, rfl⟩⟩ := State.completeCommand_eq_next hcc
    · exact .complete q _ hst hcmd hc (.inl ⟨i, r, hi, hres, rfl⟩)
    · exact .complete q _ hst hcmd hc (.inr ⟨hd, rfl⟩)
  · exact .stay (.inr (.inr ⟨hst, hr⟩))
  · obtain ⟨p, -, hres, hcode, rfl⟩ := State.deliver_eq_next hd
    exact .deliver p hst hres hr hcode

/-- What a step makes of `s`. -/
inductive StepEffect (s : State) : State → Prop where
  | reset (e : Edge) (hup : s.upcoming = .edge e) (hrst : e.rst = true) : StepEffect s s.pastEvent.applyReset
  | drift (e : Edge) (hup : s.upcoming = .edge e) (hrst : e.rst = false) (hseen : s.resetSeen = false)
      (hv : e.reqValid = false) : StepEffect s s.pastEvent.drift
  | transact (e : Edge) (t : State) (hs : s.Samples e) (ht : TransactEffect (s.atEdge e) e t) : StepEffect s t
  | look (p : Response) (hup : s.upcoming = .readResponse) (hst : s.block.st = .done) (hres : s.block.res = some p)
      (hcode : codesProduced p = true) : StepEffect s s.pastEvent
  | losePower (hup : s.upcoming = .losePower) : StepEffect s s.pastEvent.losePower

theorem step_effect {s t : State} (h : step s = .next t) : StepEffect s t := by
  cases hup : s.upcoming with
  | edge e =>
    rw [step_of_edge hup] at h
    obtain ⟨hrst, rfl⟩ | ⟨hrst, hseen, hv, rfl⟩ | ⟨hrst, hseen, hk, ht⟩ := State.clockEdge_eq_next h
    · exact .reset e hup hrst
    · exact .drift e hup hrst hseen hv
    · exact .transact e t ⟨hup, hrst, hseen, hk⟩ (State.transact_effect ht)
  | readResponse =>
    rw [step_of_readResponse hup] at h
    obtain ⟨rfl, p, hst, hres, hcode⟩ := State.readResponse_eq_next h
    exact .look p hup hst hres hcode
  | losePower =>
    rw [step_of_losePower hup] at h
    obtain rfl := Host.Outcome.next.inj h
    exact .losePower hup

/-! What every transaction step leaves unchanged -/

theorem TransactEffect.resetSeen_eq {s t : State} {e : Edge} (h : TransactEffect s e t) :
    t.resetSeen = s.resetSeen := by
  cases h <;> rfl

theorem TransactEffect.offered_eq {s t : State} {e : Edge} (h : TransactEffect s e t) : t.offered = s.offered := by
  cases h <;> rfl

end Sys2Proof.Machine
end

section
/-! SUPPORT. The invariant: what it says of each state of the block, which responses meet it, and that every operation
keeps it. -/

namespace Sys2Proof.Machine

/-! Every NaN that a command gives is the canonical one (spec/10_state.md R27) -/

/-- If it answers a NaN, the NaN is `NaN()`. -/
def GivesCanonicalNan (o : Except Refusal Quad) : Prop := ∀ r, o = .ok r → classOf r = .nan → r = nanQuad

theorem givesCanonicalNan_ok {q : Quad} (h : classOf q = .nan → q = nanQuad) : GivesCanonicalNan (.ok q) := by
  intro r hr
  obtain rfl := Except.ok.inj hr
  exact h

@[simp] theorem givesCanonicalNan_nanQuad : GivesCanonicalNan (.ok nanQuad) := givesCanonicalNan_ok fun _ => rfl

@[simp] theorem givesCanonicalNan_zeroQuad (s : Bool) : GivesCanonicalNan (.ok (zeroQuad s)) :=
  givesCanonicalNan_ok (by simp)

@[simp] theorem givesCanonicalNan_infQuad (s : Bool) : GivesCanonicalNan (.ok (infQuad s)) :=
  givesCanonicalNan_ok (by simp)

@[simp] theorem givesCanonicalNan_roundPack (s : Bool) (m : Nat) (k : Int) (st : Bool) :
    GivesCanonicalNan (roundPack s m k st) := by
  intro r hr hn
  obtain ⟨-, rfl⟩ := roundPack_eq_ok_iff.1 hr
  exact absurd hn (classOf_roundPackValue_ne_nan s m k st)

theorem givesCanonicalNan_bind {α : Type} {x : Except Refusal α} {f : α → Except Refusal Quad}
    (h : ∀ a, x = .ok a → GivesCanonicalNan (f a)) : GivesCanonicalNan (x >>= f) := by
  cases x with
  | error e => rintro r ⟨⟩
  | ok a => exact h a rfl

/-- What unpacks is no NaN. -/
theorem classOf_ne_nan_of_unpack {x : Quad} {u : Unpacked} (h : unpack x = .ok u) : classOf x ≠ .nan := by
  intro hn
  simp [unpack, hn] at h

theorem givesCanonicalNan_of_unpack {x : Quad} {u : Unpacked} (h : unpack x = .ok u) : GivesCanonicalNan (.ok x) :=
  givesCanonicalNan_ok fun hn => absurd hn (classOf_ne_nan_of_unpack h)

theorem givesCanonicalNan_addOrdered (x y : Unpacked) : GivesCanonicalNan (addOrdered x y) := by
  unfold addOrdered
  dsimp only
  split_ifs <;> simp

theorem givesCanonicalNan_addFinite (a b : Quad) : GivesCanonicalNan (addFinite a b) := by
  refine givesCanonicalNan_bind fun x hx => givesCanonicalNan_bind fun y hy => ?_
  split_ifs
  · exact givesCanonicalNan_zeroQuad _
  · exact givesCanonicalNan_of_unpack hy
  · exact givesCanonicalNan_of_unpack hx
  · exact givesCanonicalNan_addOrdered y x
  · exact givesCanonicalNan_addOrdered x y

theorem givesCanonicalNan_qadd (a b : Quad) : GivesCanonicalNan (qadd a b) := by
  unfold qadd
  split_ifs <;> simp [givesCanonicalNan_addFinite]

theorem givesCanonicalNan_mulFinite (s : Bool) (a b : Quad) : GivesCanonicalNan (mulFinite s a b) := by
  refine givesCanonicalNan_bind fun x _ => givesCanonicalNan_bind fun y _ => ?_
  split_ifs <;> simp

theorem givesCanonicalNan_qmul (a b : Quad) : GivesCanonicalNan (qmul a b) := by
  unfold qmul
  dsimp only
  split_ifs <;> simp [givesCanonicalNan_mulFinite]

theorem givesCanonicalNan_divFinite (s : Bool) (a b : Quad) : GivesCanonicalNan (divFinite s a b) :=
  givesCanonicalNan_bind fun _ _ => givesCanonicalNan_bind fun _ _ => givesCanonicalNan_roundPack _ _ _ _

theorem givesCanonicalNan_qdiv (a b : Quad) : GivesCanonicalNan (qdiv a b) := by
  unfold qdiv
  dsimp only
  split_ifs <;> simp [givesCanonicalNan_divFinite]

theorem givesCanonicalNan_sqrtFinite (a : Quad) : GivesCanonicalNan (sqrtFinite a) :=
  givesCanonicalNan_bind fun _ _ => givesCanonicalNan_roundPack _ _ _ _

theorem givesCanonicalNan_qsqrt (a : Quad) : GivesCanonicalNan (qsqrt a) := by
  unfold qsqrt
  split_ifs with hnan hzero
  · exact givesCanonicalNan_nanQuad
  · exact givesCanonicalNan_ok fun h => absurd h hnan
  · exact givesCanonicalNan_nanQuad
  · exact givesCanonicalNan_infQuad _
  · exact givesCanonicalNan_sqrtFinite a

theorem givesCanonicalNan_commandResult (i : Instr) : GivesCanonicalNan (commandResult i) := by
  cases i with
  | qadd a b => exact givesCanonicalNan_qadd a b
  | qsub a b => exact givesCanonicalNan_qadd a (flipSign b)
  | qmul a b => exact givesCanonicalNan_qmul a b
  | qdiv a b => exact givesCanonicalNan_qdiv a b
  | qsqrt a b => exact givesCanonicalNan_qsqrt a

/-! The responses of a COMPLETE are well formed (spec/10_state.md R38, spec/60_exceptions.md R251) -/

theorem wellFormed_okResponse {r : Quad} (h : classOf r = .nan → r = nanQuad) :
    (okResponse r).wellFormed = true := by
  simpa [Response.wellFormed, okResponse, ← imp_iff_not_or] using h

theorem State.Answers.wellFormed {s : State} {q : Request} {p : Response} (h : s.Answers q p) :
    p.wellFormed = true := by
  obtain ⟨i, r, -, hr, rfl⟩ | ⟨-, rfl⟩ := h
  · exact wellFormed_okResponse (givesCanonicalNan_commandResult i r hr)
  · rfl

/-! The coherent block, state by state (spec/10_state.md R32, R33) -/

theorem Block.coherent_of_idle {b : Block} (h : b.st = .idle) :
    b.coherent = true ↔ b.cmd = none ∧ b.res = none := by
  cases hc : b.cmd <;> cases hr : b.res <;> simp [Block.coherent, h, hc, hr]

theorem Block.coherent_of_busy {b : Block} (h : b.st = .busy) :
    b.coherent = true ↔ b.cmd.isSome = true ∧ b.res = none := by
  cases hc : b.cmd <;> cases hr : b.res <;> simp [Block.coherent, h, hc, hr]

theorem Block.coherent_of_done {b : Block} (h : b.st = .done) :
    b.coherent = true ↔ b.cmd = none ∧ ∃ p, b.res = some p ∧ p.wellFormed = true := by
  cases hc : b.cmd <;> cases hr : b.res <;> simp [Block.coherent, h, hc, hr]

theorem Block.accept_coherent {b : Block} (hb : b.coherent = true) (hst : b.st = .idle) (q : Request) :
    (b.accept q).coherent = true := by
  obtain ⟨-, hres⟩ := (Block.coherent_of_idle hst).1 hb
  exact (Block.coherent_of_busy rfl).2 ⟨rfl, hres⟩

theorem Block.complete_coherent (b : Block) {p : Response} (hp : p.wellFormed = true) :
    (b.complete p).coherent = true :=
  (Block.coherent_of_done rfl).2 ⟨rfl, p, rfl, hp⟩

theorem Block.deliver_coherent {b : Block} (hb : b.coherent = true) (hst : b.st = .done) :
    b.deliver.coherent = true := by
  obtain ⟨hcmd, -⟩ := (Block.coherent_of_done hst).1 hb
  exact (Block.coherent_of_idle rfl).2 ⟨hcmd, rfl⟩

/-! The invariant of the machine -/

theorem State.inv_iff {s : State} :
    s.inv = true ↔ (s.resetSeen = true → s.block.coherent = true) ∧ (s.resetSeen = false → s.offered = none) ∧
      ∀ p ∈ s.delivered, p.wellFormed = true := by
  cases h : s.resetSeen <;> simp [State.inv, h]

theorem TransactEffect.coherent {s t : State} {e : Edge} (h : TransactEffect s e t)
    (hs : s.block.coherent = true) : t.block.coherent = true := by
  cases h with
  | stay => exact hs
  | accept hst => exact Block.accept_coherent hs hst e.request
  | complete q p _ _ _ hp => exact s.block.complete_coherent hp.wellFormed
  | deliver p hst => exact Block.deliver_coherent hs hst

/-- What is delivered was held in `RES`, and so is a response the block can give. -/
theorem TransactEffect.delivered_wellFormed {s t : State} {e : Edge} (h : TransactEffect s e t)
    (hs : s.block.coherent = true) (hd : ∀ p ∈ s.delivered, p.wellFormed = true) :
    ∀ p ∈ t.delivered, p.wellFormed = true := by
  cases h with
  | stay | accept | complete => exact hd
  | deliver p hst hres =>
    obtain ⟨-, p', hres', hp⟩ := (Block.coherent_of_done hst).1 hs
    obtain rfl : p' = p := Option.some.inj (hres'.symm.trans hres)
    simpa [or_imp, forall_and, hp] using hd

theorem step_preserves_inv {s t : State} (hs : s.inv = true) (h : step s = .next t) : t.inv = true := by
  obtain ⟨hcoh, hoff, hdel⟩ := State.inv_iff.1 hs
  rw [State.inv_iff]
  cases step_effect h with
  | reset e => exact ⟨fun _ => rfl, (nomatch ·), hdel⟩
  | drift e _ _ hseen => exact ⟨fun h => absurd h (by simp [hseen]), hoff, hdel⟩
  | transact e _ hsamp ht =>
    have hseen : t.resetSeen = true := ht.resetSeen_eq.trans hsamp.resetSeen
    have hb : (s.atEdge e).block.coherent = true := hcoh hsamp.resetSeen
    exact ⟨fun _ => ht.coherent hb, fun h => absurd h (by simp [hseen]), ht.delivered_wellFormed hb hdel⟩
  | look => exact ⟨hcoh, hoff, hdel⟩
  | losePower => exact ⟨(nomatch ·), fun _ => rfl, hdel⟩

/-- Settles O53: by the effect of the step; a transaction step keeps the block coherent. -/
theorem invariantIsKeptByEveryStep : Obligations.InvariantIsKeptByEveryStep :=
  fun _ _ => step_preserves_inv

/-- Settles O52, by evaluation of the reset state. -/
theorem invariantHoldsAtReset : Obligations.InvariantHoldsAtReset :=
  ⟨rfl, rfl, rfl, rfl, rfl, rfl⟩

end Sys2Proof.Machine
end

section
/-! SUPPORT. What the transaction steps deliver and which latch each of them writes. -/

namespace Sys2Proof.Machine

theorem TransactEffect.delivered_eq_or {s t : State} {e : Edge} (h : TransactEffect s e t) :
    t.delivered = s.delivered ∨ ∃ p, e.rspReady = true ∧ s.block.st = .done ∧ s.block.res = some p ∧
      t.delivered = s.delivered ++ [p] ∧ t.block.st = .idle := by
  cases h with
  | stay | accept | complete => exact .inl rfl
  | deliver p hst hres hr => exact .inr ⟨p, hr, hst, hres, rfl, rfl⟩

/-- Settles O58: of all effects of a step, only the DELIVER of a transaction step appends a response. -/
theorem onlyDeliverDelivers : Obligations.OnlyDeliverDelivers := by
  intro s t h
  cases step_effect h with
  | reset | drift | look | losePower => exact .inl rfl
  | transact e _ hs ht =>
    obtain hd | ⟨p, hr, hst, hres, hd, ht⟩ := ht.delivered_eq_or
    · exact .inl hd
    · exact .inr ⟨p, e, hs.upcoming, hs.rst, hr, hst, hres, hd, ht⟩

theorem TransactEffect.cmd_eq_or {s t : State} {e : Edge} {q : Request} (h : TransactEffect s e t)
    (hq : t.block.cmd = some q) :
    s.block.cmd = some q ∨ (s.block.st = .idle ∧ e.reqValid = true ∧ e.request = q) := by
  cases h with
  | stay | deliver => exact .inl hq
  | accept hst hv => exact .inr ⟨hst, hv, Option.some.inj hq⟩
  | complete => cases hq

theorem TransactEffect.res_eq_or {s t : State} {e : Edge} {p : Response} (h : TransactEffect s e t)
    (hp : t.block.res = some p) :
    s.block.res = some p ∨ (s.block.st = .busy ∧ e.completes = true) := by
  cases h with
  | stay | accept => exact .inl hp
  | complete _ _ hst _ hc => exact .inr ⟨hst, hc⟩
  | deliver => cases hp

/-- Settles O59: of all effects of a step between states after a reset, only the ACCEPT and the COMPLETE of a transaction
step put a value into a latch; a RESET empties both. -/
theorem latchesAreWrittenByTheirStepsOnly : Obligations.LatchesAreWrittenByTheirStepsOnly := by
  intro s t _ hs ht h
  cases step_effect h with
  | reset => exact ⟨fun _ => (nomatch ·), fun _ => (nomatch ·)⟩
  | drift e _ _ hseen => exact absurd hs (by simp [hseen])
  | look => exact ⟨fun q hq => .inl hq, fun p hp => .inl hp⟩
  | losePower => cases ht
  | transact e _ hsamp heff =>
    refine ⟨fun q hq => (heff.cmd_eq_or hq).imp_right ?_, fun p hp => (heff.res_eq_or hp).imp_right ?_⟩
    · rintro ⟨hst, hv, hr⟩
      exact ⟨hst, e, hsamp.upcoming, hv, hr⟩
    · rintro ⟨hst, hc⟩
      exact ⟨hst, e, hsamp.upcoming, hc⟩

end Sys2Proof.Machine
end

section
/-! SUPPORT. The draw of SCR's contents: an edge and a loss of power replace it unread, a look at the port carries it. -/

namespace Sys2Proof.Machine

/-- The machine with another draw of SCR's contents (spec/10_state.md R34). -/
def State.withScratch (s : State) (n : Nat) : State := { s with block := { s.block with scr := n } }

theorem State.upcoming_withScratch (s : State) (n : Nat) : (s.withScratch n).upcoming = s.upcoming := rfl

theorem State.pastEvent_withScratch (s : State) (n : Nat) :
    (s.withScratch n).pastEvent = s.pastEvent.withScratch n := rfl

/-- Each branch of an edge starts from a new draw. -/
theorem State.clockEdge_withScratch (s : State) (n : Nat) (e : Edge) :
    (s.withScratch n).clockEdge e = s.clockEdge e := rfl

theorem State.losePower_withScratch (s : State) (n : Nat) : (s.withScratch n).losePower = s.losePower := rfl

/-- A look at the response port stops for the same reason, or carries SCR along. -/
theorem State.readResponse_withScratch (s : State) (n : Nat) :
    (s.withScratch n).readResponse = s.readResponse ∨
      (s.readResponse = .next s ∧ (s.withScratch n).readResponse = .next (s.withScratch n)) := by
  have hread : (s.withScratch n).block.readResult = s.block.readResult := rfl
  unfold State.readResponse
  rw [hread]
  cases s.block.readResult with
  | error f => exact .inl rfl
  | ok p => cases hcode : codesProduced p <;> simp [hcode]

theorem step_withScratch (s : State) (n : Nat) :
    step (s.withScratch n) = step s ∨
      ∃ t, step s = .next t ∧ step (s.withScratch n) = .next (t.withScratch n) := by
  have hup := s.upcoming_withScratch n
  cases hv : s.upcoming with
  | edge e =>
    rw [hv] at hup
    rw [step_of_edge hup, step_of_edge hv, State.pastEvent_withScratch, State.clockEdge_withScratch]
    exact .inl rfl
  | readResponse =>
    rw [hv] at hup
    rw [step_of_readResponse hup, step_of_readResponse hv, State.pastEvent_withScratch]
    exact (s.pastEvent.readResponse_withScratch n).imp_right fun h => ⟨s.pastEvent, h⟩
  | losePower =>
    rw [hv] at hup
    rw [step_of_losePower hup, step_of_losePower hv, State.pastEvent_withScratch, State.losePower_withScratch]
    exact .inl rfl

/-- Settles O60: a step on another draw of SCR is the same step, or ends in the same state with that draw. -/
theorem scratchIsNeverObserved : Obligations.ScratchIsNeverObserved := by
  intro s n
  change (∀ t, step s = .next t → ∃ m, step (s.withScratch n) = .next (t.withScratch m)) ∧
    (∀ f, step s = .fault f → step (s.withScratch n) = .fault f) ∧
      (∀ r, step s = .refused r → step (s.withScratch n) = .refused r)
  obtain heq | ⟨u, hu, hn⟩ := step_withScratch s n
  · rw [heq]
    exact ⟨fun t ht => ⟨t.block.scr, ht⟩, fun _ h => h, fun _ h => h⟩
  · simp [hu, hn]

end Sys2Proof.Machine
end

section
/-! SUPPORT. Commands and the transaction steps, one edge at a time. -/

namespace Sys2Proof.Machine

/-- Settles O16: a command that goes on is one COMPLETE with the OK response of its result. -/
theorem commandFrame : Obligations.CommandFrame := by
  intro i s t h
  obtain ⟨r, -, rfl⟩ := exec_eq_next_iff.1 h
  exact ⟨rfl, rfl, ⟨r, rfl⟩, rfl, rfl, rfl, rfl, rfl, rfl⟩

/-- The three fields of a request word are the request's (spec/30_encoding.md R70). -/
@[simp] theorem requestOfWord_requestWord (q : Request) : requestOfWord (requestWord q) = q := by
  have hop : (requestWord q).extractLsb' 322 3 = q.op := BitVec.extractLsb'_append_eq_left
  have ha : (requestWord q).extractLsb' 161 161 = q.a :=
    (BitVec.extractLsb'_append_eq_of_add_le (by decide)).trans BitVec.extractLsb'_append_eq_left
  have hb : (requestWord q).extractLsb' 0 161 = q.b :=
    (BitVec.extractLsb'_append_eq_of_add_le (by decide)).trans BitVec.extractLsb'_append_eq_right
  rw [requestOfWord, hop, ha, hb]

theorem decode_requestWord (q : Request) : decode (requestWord q) = decodeRequest q := by
  rw [decode, requestOfWord_requestWord]

/-- Settles O47: the step is the transaction step of its edge, which in BUSY is exec of the request in CMD. -/
theorem stepRunsTheDecodedInstruction : Obligations.StepRunsTheDecodedInstruction := by
  intro s e vs q i hs hrst hseen hk hst hcmd hc hi
  rw [decode_requestWord] at hi
  have hsamp : s.Samples e := .of_schedule hs hrst hseen hk
  calc step s = (s.atEdge e).transact e := hsamp.step_eq
    _ = (s.atEdge e).completeCommand := State.transact_of_busy_completing hst hc
    _ = exec i (s.atEdge e) := State.completeCommand_of_decode hst hcmd hi
    _ = exec i ((s.withSchedule vs).tick.noteOffer e) := by rw [State.atEdge, State.pastEvent_of_schedule hs]

/-- What the response port shows in DONE (spec/10_state.md R37). -/
theorem Block.ports_of_done {b : Block} {p : Response} (hst : b.st = .done) (hres : b.res = some p) :
    b.rspValid = true ∧ b.reqReady = false ∧ b.rspStatus = .ok (statusCode p.status) ∧ b.rspClass = .ok p.cls ∧
      b.rspR = .ok p.r := by
  have hread : b.readResult = .ok p := Block.readResult_eq_ok_iff.2 ⟨hst, hres⟩
  simp [Block.rspValid, Block.reqReady, Block.rspStatus, Block.rspClass, Block.rspR, hst, hread, Except.map]

/-- Outside DONE the response port has no value (spec/10_state.md R46). -/
theorem Block.ports_of_not_done {b : Block} (hst : b.st ≠ .done) :
    b.rspStatus = .error .responseHasNoValue ∧ b.rspClass = .error .responseHasNoValue ∧
      b.rspR = .error .responseHasNoValue := by
  simp [Block.rspStatus, Block.rspClass, Block.rspR, Block.readResult_of_not_done hst, Except.map]

/-- Settles O49: each clause is the transaction step of one state of the block. -/
theorem acceptAndDeliver : Obligations.AcceptAndDeliver := by
  intro s e vs hs hrst hseen hk
  have hsamp : s.Samples e := .of_schedule hs hrst hseen hk
  rw [hsamp.step_eq]
  refine ⟨fun hst hv => ?accept, fun hst hv => ?idle, fun hst hc => ?busy, fun p hst hres hcode hr => ?deliver,
    fun hst hr => ?done, fun p => Block.ports_of_done⟩
  case accept =>
    have hready : s.block.reqReady = true := Block.reqReady_eq_true_iff.2 hst
    exact ⟨_, State.transact_of_idle_offer hst hv, rfl, rfl, rfl, rfl, by simp [hready]⟩
  case idle => exact ⟨_, State.transact_of_idle_quiet hst hv, hst, rfl, rfl, rfl⟩
  case busy => exact ⟨_, State.transact_of_busy_waiting hst hc, hst, rfl, rfl, rfl⟩
  case deliver => exact ⟨_, State.transact_of_done_taking hst hres hcode hr, rfl, rfl, rfl⟩
  case done => exact ⟨_, State.transact_of_done_waiting hst hr, hst, rfl, rfl⟩

/-- Settles O50: the edge applies the reset before it looks at anything else. -/
theorem resetEdgeDiscardsTheTransaction : Obligations.ResetEdgeDiscardsTheTransaction := by
  intro s e vs hs hrst
  have hstep : step s = .next (s.withSchedule vs).applyReset := by
    rw [step_of_edge (State.upcoming_of_schedule hs), State.clockEdge_of_reset hrst, State.pastEvent_of_schedule hs]
  exact ⟨_, hstep, rfl, rfl, rfl, rfl, rfl, rfl, rfl, rfl⟩

/-- Settles O51: each fault is the one its branch of the event raises; a transaction step keeps the offer noted at its
edge. -/
theorem brokenHandshakeFaults : Obligations.BrokenHandshakeFaults := by
  intro s e vs
  refine ⟨fun hs hst => ?look, Block.ports_of_not_done, fun hs hrst hseen hoff => ?withdrawn,
    fun hs hrst hseen hv => ?early, fun q hs hrst hseen hk hv hst hq t ht => ?noted⟩
  case look =>
    have hread : s.pastEvent.block.readResult = .error .responseHasNoValue := Block.readResult_of_not_done hst
    rw [step_of_readResponse (State.upcoming_of_schedule hs), State.readResponse, hread]
  case withdrawn =>
    have hk : s.pastEvent.keepsOffer e = false := State.keepsOffer_eq_false_iff.2 hoff
    rw [step_of_edge (State.upcoming_of_schedule hs),
      State.clockEdge_of_not_keepsOffer (s := s.pastEvent) hrst hseen hk]
  case early =>
    rw [step_of_edge (State.upcoming_of_schedule hs),
      State.clockEdge_of_request_before_reset (s := s.pastEvent) hrst hseen hv]
  case noted =>
    have hsamp : s.Samples e := .of_schedule hs hrst hseen hk
    rw [hsamp.step_eq] at ht
    have hready : s.block.reqReady = false := by simpa [Block.reqReady] using hst
    calc t.offered = (s.atEdge e).offered := (State.transact_effect ht).offered_eq
      _ = some q := by simp [hv, hready, hq]

end Sys2Proof.Machine
end

section
/-! SUPPORT. The real value of a quad fixes the quad, but for the two zeros and the two Infinities. -/

namespace Sys2Proof.Machine

/-- The sign and the magnitude of a finite quad's value, from what `Unpack` gives (spec/40_limbs_and_rounding.md R100). -/
theorem valueOf_of_unpack {x : Quad} {u : Unpacked} (h : unpack x = .ok u) :
    valueOf x = some (signFactor u.sign * (u.significand * 2 ^ u.exponent)) := by
  unfold unpack at h
  split at h
  case h_1 hc =>
    obtain rfl := Except.ok.inj h
    have hexp : (2 : ℚ) ^ ((exponentOf x : ℤ) - Config.bias - 128) =
        2 ^ ((exponentOf x : ℤ) - Config.bias) * 2 ^ (-128 : ℤ) := by
      rw [← zpow_add₀ two_ne_zero]
      rfl
    have hone : (2 : ℚ) ^ 128 * 2 ^ (-128 : ℤ) = 1 := by norm_num
    simp only [valueOf, hc, hexp, Nat.cast_add, Nat.cast_pow, Nat.cast_ofNat]
    congr 1
    linear_combination (-(signFactor (signOf x) * 2 ^ ((exponentOf x : ℤ) - Config.bias))) * hone
  case h_2 hc =>
    obtain rfl := Except.ok.inj h
    have hexp : (2 : ℚ) ^ Config.lsbMin = 2 ^ (-128 : ℤ) * 2 ^ (1 - Config.bias) := by
      rw [← zpow_add₀ two_ne_zero]
      rfl
    simp only [valueOf, hc, hexp]
    congr 1
    ring
  case h_3 hc =>
    obtain rfl := Except.ok.inj h
    simp [valueOf, hc]
  all_goals cases h

/-- The fields of a quad from what `Unpack` gives: the leading bit of the significand tells a normal quad (R100). -/
theorem fields_of_unpack {x : Quad} {u : Unpacked} (h : unpack x = .ok u) :
    signOf x = u.sign ∧ fractionOf x = u.significand % 2 ^ 128 ∧
      exponentOf x = if 2 ^ 128 ≤ u.significand then (u.exponent + Config.bias + 128).toNat else 0 := by
  have hf := fractionOf_lt x
  unfold unpack at h
  split at h
  case h_1 hc =>
    obtain rfl := Except.ok.inj h
    exact ⟨rfl, by dsimp only; omega, by dsimp only; rw [if_pos (by omega)]; omega⟩
  case h_2 hc =>
    obtain rfl := Except.ok.inj h
    obtain ⟨he, -⟩ := classOf_eq_subnormal_iff.1 hc
    exact ⟨rfl, by dsimp only; omega, by dsimp only; rw [if_neg (by omega), he]⟩
  case h_3 hc =>
    obtain rfl := Except.ok.inj h
    obtain ⟨he, hz⟩ := classOf_eq_zero_iff.1 hc
    exact ⟨rfl, hz, he⟩
  all_goals cases h

theorem unpack_injective {x y : Quad} {u : Unpacked} (hx : unpack x = .ok u) (hy : unpack y = .ok u) : x = y := by
  obtain ⟨hsx, hfx, hex⟩ := fields_of_unpack hx
  obtain ⟨hsy, hfy, hey⟩ := fields_of_unpack hy
  exact quad_eq_of_fields (hsx.trans hsy.symm) (hex.trans hey.symm) (hfx.trans hfy.symm)

/-- A significand without the leading bit stands at the least weight exponent (R100). -/
theorem leading_bit_or_lsbMin_of_unpack {x : Quad} {u : Unpacked} (h : unpack x = .ok u) :
    2 ^ 128 ≤ u.significand ∨ u.exponent = Config.lsbMin := by
  by_cases hc : classOf x = .normal
  · obtain ⟨-, -, -, -, hlead⟩ := unpack_eq_ok h
    exact .inl (hlead hc)
  · unfold unpack at h
    split at h
    case h_1 hn => exact absurd hn hc
    case h_2 | h_3 =>
      obtain rfl := Except.ok.inj h
      exact .inr rfl
    all_goals cases h

/-- A magnitude has one form with a 129-bit significand, where a significand without its leading bit stands only at
the least weight exponent `l`. -/
theorem significand_exponent_unique {m n : ℕ} {j k l : ℤ} (hm : m < 2 ^ 129) (hn : n < 2 ^ 129)
    (hj : l ≤ j) (hk : l ≤ k) (hmj : 2 ^ 128 ≤ m ∨ j = l) (hnk : 2 ^ 128 ≤ n ∨ k = l)
    (h : (m : ℚ) * 2 ^ j = n * 2 ^ k) : m = n ∧ j = k := by
  wlog hle : j ≤ k generalizing m n j k
  · obtain ⟨hnm, hkj⟩ := this hn hm hk hj hnk hmj h.symm (by omega)
    exact ⟨hnm.symm, hkj.symm⟩
  obtain ⟨d, rfl⟩ : ∃ d : ℕ, k = j + d := ⟨(k - j).toNat, by omega⟩
  have hmn : m = n * 2 ^ d := by
    have hpos : (2 : ℚ) ^ j ≠ 0 := zpow_ne_zero _ two_ne_zero
    rw [zpow_add₀ two_ne_zero, zpow_natCast] at h
    have hq : (m : ℚ) = n * 2 ^ d := mul_right_cancel₀ hpos (by linear_combination h)
    exact_mod_cast hq
  obtain rfl | hd := Nat.eq_zero_or_pos d
  · simpa using hmn
  · have hlead : 2 ^ 128 ≤ n := hnk.resolve_right (by omega)
    have htwo : 2 ^ 1 ≤ 2 ^ d := Nat.pow_le_pow_right (by decide) hd
    have hbig : 2 ^ 128 * 2 ^ 1 ≤ n * 2 ^ d := Nat.mul_le_mul hlead htwo
    omega

theorem signFactor_mul_eq {s t : Bool} {a b : ℚ} (ha : 0 ≤ a) (hb : 0 ≤ b)
    (h : signFactor s * a = signFactor t * b) : (s = t ∧ a = b) ∨ (a = 0 ∧ b = 0) := by
  cases s <;> cases t <;> simp only [signFactor, if_true, if_false, Bool.false_eq_true, neg_mul, one_mul] at h
  · exact .inl ⟨rfl, h⟩
  · exact .inr ⟨by linarith, by linarith⟩
  · exact .inr ⟨by linarith, by linarith⟩
  · exact .inl ⟨rfl, neg_inj.1 h⟩

/-- Two finite quads of one value are the same quad, or both are zeros. -/
theorem eq_or_zeros_of_valueOf_eq {x y : Quad} {u v : Unpacked} (hu : unpack x = .ok u) (hv : unpack y = .ok v)
    (h : valueOf x = valueOf y) : x = y ∨ (classOf x = .zero ∧ classOf y = .zero) := by
  obtain ⟨-, hsu, hku, hzu, -⟩ := unpack_eq_ok hu
  obtain ⟨-, hsv, hkv, hzv, -⟩ := unpack_eq_ok hv
  rw [valueOf_of_unpack hu, valueOf_of_unpack hv] at h
  obtain ⟨hsign, hmag⟩ | ⟨hu0, hv0⟩ := signFactor_mul_eq (by positivity) (by positivity) (Option.some.inj h)
  · obtain ⟨hsig, hexp⟩ := significand_exponent_unique hsu hsv hku hkv (leading_bit_or_lsbMin_of_unpack hu)
      (leading_bit_or_lsbMin_of_unpack hv) hmag
    obtain rfl : u = v := by
      cases u; cases v; simp_all
    exact .inl (unpack_injective hu hv)
  · have hpos : ∀ k : ℤ, (2 : ℚ) ^ k ≠ 0 := fun k => zpow_ne_zero k two_ne_zero
    exact .inr ⟨hzu.1 (by simpa [hpos] using hu0), hzv.1 (by simpa [hpos] using hv0)⟩

theorem valueOf_eq_none_of_infinity {x : Quad} (h : classOf x = .infinity) : valueOf x = none := by
  simp [valueOf, h]

/-- A quad that is no NaN is an Infinity, or unpacks. -/
theorem infinity_or_unpack {x : Quad} (h : classOf x ≠ .nan) : classOf x = .infinity ∨ ∃ u, unpack x = .ok u :=
  or_iff_not_imp_left.2 fun hi => unpack_of_finite hi h

/-- Settles O7: the value of a finite quad fixes sign, significand and weight exponent unless it is 0; zeros and Infinities
are fixed by their sign. -/
theorem distinctQuadsDenoteDistinctValues : Obligations.DistinctQuadsDenoteDistinctValues := by
  intro x y hx hy hne
  obtain hxi | ⟨u, hu⟩ := infinity_or_unpack hx <;> obtain hyi | ⟨v, hv⟩ := infinity_or_unpack hy
  · refine .inr (.inr ⟨hxi, hyi, fun hs => hne ?_⟩)
    rw [eq_infQuad_of_classOf hxi, eq_infQuad_of_classOf hyi, hs]
  · exact .inl (by simp [valueOf_eq_none_of_infinity hxi, valueOf_of_unpack hv])
  · exact .inl (by simp [valueOf_eq_none_of_infinity hyi, valueOf_of_unpack hu])
  · refine or_iff_not_imp_left.2 fun hval => .inl ?_
    obtain heq | ⟨hx0, hy0⟩ := eq_or_zeros_of_valueOf_eq hu hv (not_not.1 hval)
    · exact absurd heq hne
    · refine ⟨hx0, hy0, fun hs => hne ?_⟩
      rw [eq_zeroQuad_of_classOf hx0, eq_zeroQuad_of_classOf hy0, hs]

end Sys2Proof.Machine
end

section
/-! SUPPORT. The encoding of requests and responses: the opcode map and its inverse, and the fields of the two words. -/

namespace Sys2Proof.Machine

/-! The opcode map (spec/30_encoding.md R73, R74) -/

theorem decodeRequest_requestOf (i : Instr) : decodeRequest (requestOf i) = .ok i := by
  have h : Laws.RequestRoundTrip.Statement i := by
    cases i with
    | qadd a b => exact Laws.RequestRoundTrip.qadd a b
    | qsub a b => exact Laws.RequestRoundTrip.qsub a b
    | qmul a b => exact Laws.RequestRoundTrip.qmul a b
    | qdiv a b => exact Laws.RequestRoundTrip.qdiv a b
    | qsqrt a b => exact Laws.RequestRoundTrip.qsqrt a b
  obtain ⟨-, -, hdec⟩ := h
  exact hdec

theorem decodeRequest_of_reserved {q : Request} (h : 5 ≤ q.op.toNat) :
    decodeRequest q = .error (.reservedOpcode q.op) := by
  have hne : ∀ c : Opcode, c.toNat < 5 → q.op ≠ c := fun c hc hq => by rw [hq] at h; omega
  rw [decodeRequest, if_neg (hne _ (by decide)), if_neg (hne _ (by decide)), if_neg (hne _ (by decide)),
    if_neg (hne _ (by decide)), if_neg (hne _ (by decide))]

theorem legalOpcode_cases : ∀ op : Opcode, op.toNat < 5 →
    op = 0b000#3 ∨ op = 0b001#3 ∨ op = 0b010#3 ∨ op = 0b011#3 ∨ op = 0b100#3 := by
  decide

/-- A legal opcode is the opcode of a command on the request's own operands. -/
theorem exists_requestOf_of_legal {q : Request} (h : q.op.toNat < 5) : ∃ i, requestOf i = q := by
  obtain ⟨op, a, b⟩ := q
  obtain rfl | rfl | rfl | rfl | rfl := legalOpcode_cases op h
  · exact ⟨.qadd a b, rfl⟩
  · exact ⟨.qsub a b, rfl⟩
  · exact ⟨.qmul a b, rfl⟩
  · exact ⟨.qdiv a b, rfl⟩
  · exact ⟨.qsqrt a b, rfl⟩

/-- The opcode map is the inverse of the requests of instructions. -/
theorem decodeRequest_eq_ok_iff {q : Request} {i : Instr} : decodeRequest q = .ok i ↔ requestOf i = q := by
  refine ⟨fun h => ?_, fun h => h ▸ decodeRequest_requestOf i⟩
  obtain hlegal | hres := Nat.lt_or_ge q.op.toNat 5
  · obtain ⟨j, rfl⟩ := exists_requestOf_of_legal hlegal
    rw [decodeRequest_requestOf] at h
    rw [Except.ok.inj h]
  · rw [decodeRequest_of_reserved hres] at h
    cases h

theorem exists_decodeRequest_iff_legal {q : Request} : (∃ i, decodeRequest q = .ok i) ↔ q.op.toNat < 5 := by
  refine ⟨fun ⟨i, hi⟩ => ?_, fun h => ?_⟩
  · by_contra hres
    rw [decodeRequest_of_reserved (by omega)] at hi
    cases hi
  · obtain ⟨i, rfl⟩ := exists_requestOf_of_legal h
    exact ⟨i, decodeRequest_requestOf i⟩

theorem decodeRequest_eq_reserved_iff {q : Request} :
    decodeRequest q = .error (.reservedOpcode q.op) ↔ 5 ≤ q.op.toNat := by
  refine ⟨fun h => ?_, decodeRequest_of_reserved⟩
  by_contra hlegal
  obtain ⟨i, hi⟩ := exists_decodeRequest_iff_legal.2 (by omega : q.op.toNat < 5)
  rw [hi] at h
  cases h

/-! The request word (spec/30_encoding.md R70) -/

/-- The three fields make up the whole request word. -/
theorem requestWord_requestOfWord (w : ReqWord) : requestWord (requestOfWord w) = w := by
  have hab : w.extractLsb' 161 161 ++ w.extractLsb' 0 161 = w.extractLsb' 0 322 :=
    BitVec.extractLsb'_append_extractLsb'_eq_extractLsb' rfl
  have hw : w.extractLsb' 322 3 ++ w.extractLsb' 0 322 = w.extractLsb' 0 325 :=
    BitVec.extractLsb'_append_extractLsb'_eq_extractLsb' rfl
  change w.extractLsb' 322 3 ++ (w.extractLsb' 161 161 ++ w.extractLsb' 0 161) = w
  rw [hab, hw, BitVec.extractLsb'_eq_self]

/-- Settles O1: the fields of the request word are the instruction's, and the opcode map reads them back. -/
theorem encodedInstructionDecodesBack : Obligations.EncodedInstructionDecodesBack := by
  intro i
  rw [encode, decode_requestWord, decodeRequest_requestOf]

/-- Settles O2: what decodes has the request of the word's fields, and these make up the word. -/
theorem decodedWordEncodesBack : Obligations.DecodedWordEncodesBack := by
  intro w i h
  have hreq : requestOf i = requestOfWord w := decodeRequest_eq_ok_iff.1 h
  rw [encode, hreq, requestWord_requestOfWord]

/-- Settles O3: by the two outcomes of the opcode map on the word's opcode field. -/
theorem reservedOpcodesAreRefusedByName : Obligations.ReservedOpcodesAreRefusedByName := by
  intro w
  exact ⟨(decodeRequest_eq_reserved_iff (q := requestOfWord w)).symm,
    (exists_decodeRequest_iff_legal (q := requestOfWord w)).symm⟩

/-- Settles O4, by evaluation of the decoder on the five words. -/
theorem specRequestWordsDecode : Obligations.SpecRequestWordsDecode := by
  refine ⟨?qadd, ?qsub, ?qmul, ?qdiv, ?qsqrt⟩
  all_goals decide +kernel

/-! The response word (spec/30_encoding.md R71, R79) -/

@[simp] theorem statusOfCode_statusCode (s : Status) : statusOfCode (statusCode s) = some s := by
  cases s <;> rfl

theorem responseWord_status (p : Response) : (responseWord p).extractLsb' 164 2 = statusCode p.status :=
  BitVec.extractLsb'_append_eq_left

theorem responseWord_cls (p : Response) : (responseWord p).extractLsb' 161 3 = p.cls :=
  (BitVec.extractLsb'_append_eq_of_add_le (by decide)).trans BitVec.extractLsb'_append_eq_left

theorem responseWord_r (p : Response) : (responseWord p).extractLsb' 0 161 = p.r :=
  (BitVec.extractLsb'_append_eq_of_add_le (by decide)).trans BitVec.extractLsb'_append_eq_right

theorem responseOfWord_responseWord (p : Response) : responseOfWord (responseWord p) = some p := by
  rw [responseOfWord, responseWord_status, responseWord_cls, responseWord_r, statusOfCode_statusCode]
  rfl

/-- Settles O5: field by field, and the fields make up the response. -/
theorem responseWordCarriesItsFields : Obligations.ResponseWordCarriesItsFields := fun p =>
  ⟨responseWord_status p, responseWord_cls p, responseWord_r p, responseOfWord_responseWord p⟩

end Sys2Proof.Machine
end

section
/-! SUPPORT. COMPLETE answers every request: a command with its result, a reserved opcode with ILLEGAL_OP. -/

namespace Sys2Proof.Machine

theorem State.completeCommand_of_reserved {s : State} {q : Request} (hst : s.block.st = .busy)
    (hcmd : s.block.cmd = some q) (hop : 5 ≤ q.op.toNat) : s.completeCommand = .next s.respondIllegal := by
  have hread : s.block.readCommand = .ok q := Block.readCommand_eq_ok_iff.2 ⟨hst, hcmd⟩
  simp [State.completeCommand, hread, decodeRequest_of_reserved hop]

/-- Settles O48: the step is the transaction step of its edge; the COMPLETE of a reserved opcode looks at no
operand. -/
theorem reservedOpcodeCompletesWithIllegalOp : Obligations.ReservedOpcodeCompletesWithIllegalOp := by
  intro s e vs q hs hrst hseen hk hst hcmd hc hop
  have hsamp : s.Samples e := .of_schedule hs hrst hseen hk
  have hstep : step s = .next (s.atEdge e).respondIllegal :=
    calc step s = (s.atEdge e).transact e := hsamp.step_eq
      _ = (s.atEdge e).completeCommand := State.transact_of_busy_completing hst hc
      _ = .next (s.atEdge e).respondIllegal := State.completeCommand_of_reserved hst hcmd hop
  rw [State.atEdge, State.pastEvent_of_schedule hs] at hstep
  exact ⟨_, _, hstep⟩

end Sys2Proof.Machine
end

section
/-! SUPPORT. Every command has a result: the precondition of RoundPack holds wherever a command calls it
(spec/60_exceptions.md R250, spec/40_limbs_and_rounding.md R111). -/

namespace Sys2Proof.Machine

/-- Without a sticky RoundPack has no precondition (R111). -/
@[simp] theorem exists_roundPack_false (s : Bool) (m : Nat) (k : Int) : ∃ r, roundPack s m k false = .ok r :=
  ⟨_, roundPack_ok (by simp)⟩

theorem exists_roundPack_of_le {m : Nat} (h : 2 ^ 129 ≤ m) (s : Bool) (k : Int) (st : Bool) :
    ∃ r, roundPack s m k st = .ok r :=
  ⟨_, roundPack_ok fun _ => h⟩

/-- Each branch is a zero or a RoundPack without a sticky. -/
theorem exists_addOrdered (x y : Unpacked) : ∃ r, addOrdered x y = .ok r := by
  unfold addOrdered
  dsimp only
  split_ifs <;> simp

theorem exists_addFinite {a b : Quad} {x y : Unpacked} (hx : unpack a = .ok x) (hy : unpack b = .ok y) :
    ∃ r, addFinite a b = .ok r := by
  unfold addFinite
  rw [hx, hy]
  dsimp only [bind, Except.bind]
  split_ifs
  · exact ⟨_, rfl⟩
  · exact ⟨_, rfl⟩
  · exact ⟨_, rfl⟩
  · exact exists_addOrdered y x
  · exact exists_addOrdered x y

theorem exists_mulFinite {a b : Quad} {x y : Unpacked} (hx : unpack a = .ok x) (hy : unpack b = .ok y) (s : Bool) :
    ∃ r, mulFinite s a b = .ok r := by
  unfold mulFinite
  rw [hx, hy]
  dsimp only [bind, Except.bind]
  split_ifs
  · exact ⟨_, rfl⟩
  · exact exists_roundPack_false ..

theorem two_pow_mul_self_le {a e : Nat} (h : a + a ≤ e) : 2 ^ a * 2 ^ a ≤ 2 ^ e := by
  rw [← pow_add]
  exact Nat.pow_le_pow_right (by decide) h

/-- 260 extra bits leave a quotient of more than 129 bits (spec/43_divide.md R193). -/
theorem le_extended_quotient {m n : Nat} (hm : m ≠ 0) (hn : n ≠ 0) (hlt : n < 2 ^ 129) :
    2 ^ 129 ≤ m <<< Config.divisionExtension / n := by
  rw [Nat.le_div_iff_mul_le (Nat.pos_of_ne_zero hn), Nat.shiftLeft_eq]
  calc 2 ^ 129 * n ≤ 2 ^ 129 * 2 ^ 129 := Nat.mul_le_mul_left _ hlt.le
    _ ≤ 2 ^ Config.divisionExtension := two_pow_mul_self_le (by decide)
    _ ≤ m * 2 ^ Config.divisionExtension := Nat.le_mul_of_pos_left _ (Nat.pos_of_ne_zero hm)

theorem exists_divFinite {a b : Quad} {x y : Unpacked} (hx : unpack a = .ok x) (hy : unpack b = .ok y)
    (hxz : x.significand ≠ 0) (hyz : y.significand ≠ 0) (s : Bool) : ∃ r, divFinite s a b = .ok r := by
  obtain ⟨-, hlt, -, -, -⟩ := unpack_eq_ok hy
  unfold divFinite
  rw [hx, hy]
  dsimp only [bind, Except.bind]
  exact exists_roundPack_of_le (le_extended_quotient hxz hyz hlt) ..

/-- 262 extra bits leave an integer root of more than 129 bits (spec/44_sqrt.md R223). -/
theorem le_extended_isqrt {m : Nat} (hm : m ≠ 0) : 2 ^ 129 ≤ isqrt (m <<< Config.sqrtExtension) := by
  obtain ⟨-, hlt⟩ := isqrt_spec (m <<< Config.sqrtExtension)
  by_contra hroot
  have hm' : 2 ^ Config.sqrtExtension ≤ m <<< Config.sqrtExtension := by
    rw [Nat.shiftLeft_eq]
    exact Nat.le_mul_of_pos_left _ (Nat.pos_of_ne_zero hm)
  have hbound : m <<< Config.sqrtExtension < 2 ^ Config.sqrtExtension :=
    calc m <<< Config.sqrtExtension < _ := hlt
      _ ≤ 2 ^ 129 * 2 ^ 129 := Nat.mul_le_mul (by omega) (by omega)
      _ ≤ 2 ^ Config.sqrtExtension := two_pow_mul_self_le (by decide)
  exact absurd hm' (not_le.2 hbound)

theorem evenExponent_ne_zero {m : Nat} (hm : m ≠ 0) (k : Int) : (evenExponent m k).1 ≠ 0 := by
  unfold evenExponent
  split_ifs
  · simpa [Nat.shiftLeft_eq] using hm
  · exact hm

theorem exists_sqrtFinite {a : Quad} {u : Unpacked} (hu : unpack a = .ok u) (hz : u.significand ≠ 0) :
    ∃ r, sqrtFinite a = .ok r := by
  unfold sqrtFinite
  rw [hu]
  dsimp only [bind, Except.bind]
  exact exists_roundPack_of_le (le_extended_isqrt (evenExponent_ne_zero hz u.exponent)) ..

theorem exists_qadd (a b : Quad) : ∃ r, qadd a b = .ok r := by
  unfold qadd
  split_ifs with hnan hinf hs hai hbi
  · exact ⟨_, rfl⟩
  · exact ⟨_, rfl⟩
  · exact ⟨_, rfl⟩
  · exact ⟨_, rfl⟩
  · exact ⟨_, rfl⟩
  · obtain ⟨han, hbn⟩ := not_or.1 hnan
    obtain ⟨x, hx⟩ := unpack_of_finite hai han
    obtain ⟨y, hy⟩ := unpack_of_finite hbi hbn
    exact exists_addFinite hx hy

theorem exists_qmul (a b : Quad) : ∃ r, qmul a b = .ok r := by
  unfold qmul
  dsimp only
  split_ifs with hnan hind hinf
  · exact ⟨_, rfl⟩
  · exact ⟨_, rfl⟩
  · exact ⟨_, rfl⟩
  · obtain ⟨han, hbn⟩ := not_or.1 hnan
    obtain ⟨hai, hbi⟩ := not_or.1 hinf
    obtain ⟨x, hx⟩ := unpack_of_finite hai han
    obtain ⟨y, hy⟩ := unpack_of_finite hbi hbn
    exact exists_mulFinite hx hy _

/-- A finite quad that is no zero unpacks to a significand that is not 0. -/
theorem unpack_nonzero {x : Quad} (hn : classOf x ≠ .nan) (hi : classOf x ≠ .infinity) (hz : classOf x ≠ .zero) :
    ∃ u, unpack x = .ok u ∧ u.significand ≠ 0 := by
  obtain ⟨u, hu⟩ := unpack_of_finite hi hn
  obtain ⟨-, -, -, hzero, -⟩ := unpack_eq_ok hu
  exact ⟨u, hu, mt hzero.1 hz⟩

theorem exists_qdiv (a b : Quad) : ∃ r, qdiv a b = .ok r := by
  unfold qdiv
  dsimp only
  split_ifs with hnan hinf hai hbi hbz haz' haz
  · exact ⟨_, rfl⟩
  · exact ⟨_, rfl⟩
  · exact ⟨_, rfl⟩
  · exact ⟨_, rfl⟩
  · exact ⟨_, rfl⟩
  · exact ⟨_, rfl⟩
  · exact ⟨_, rfl⟩
  · obtain ⟨han, hbn⟩ := not_or.1 hnan
    obtain ⟨x, hx, hxz⟩ := unpack_nonzero han hai haz
    obtain ⟨y, hy, hyz⟩ := unpack_nonzero hbn hbi hbz
    exact exists_divFinite hx hy hxz hyz _

theorem exists_qsqrt (a : Quad) : ∃ r, qsqrt a = .ok r := by
  unfold qsqrt
  split_ifs with hnan hz hs hinf
  · exact ⟨_, rfl⟩
  · exact ⟨_, rfl⟩
  · exact ⟨_, rfl⟩
  · exact ⟨_, rfl⟩
  · obtain ⟨u, hu, huz⟩ := unpack_nonzero hnan hinf hz
    exact exists_sqrtFinite hu huz

/-- Every command has a result, on every pair of operands (spec/60_exceptions.md R250). -/
theorem exists_commandResult (i : Instr) : ∃ r, commandResult i = .ok r := by
  cases i with
  | qadd a b => exact exists_qadd a b
  | qsub a b => exact exists_qadd a (flipSign b)
  | qmul a b => exact exists_qmul a b
  | qdiv a b => exact exists_qdiv a b
  | qsqrt a b => exact exists_qsqrt a

end Sys2Proof.Machine
end

section
/-! SUPPORT. One transaction, phase by phase: ACCEPT, the edges before COMPLETE, COMPLETE, the edges before DELIVER,
DELIVER (spec/30_encoding.md R83). -/

namespace Sys2Proof.Machine

/-! The response of a COMPLETE -/

theorem State.completeCommand_answers {s : State} {q : Request} (hst : s.block.st = .busy)
    (hcmd : s.block.cmd = some q) : ∃ p, s.completeCommand = .next (s.respond p) ∧ s.Answers q p := by
  obtain hlegal | hres := Nat.lt_or_ge q.op.toNat 5
  · obtain ⟨i, hi⟩ := exists_decodeRequest_iff_legal.2 hlegal
    obtain ⟨r, hr⟩ := exists_commandResult i
    have hnext : s.completeCommand = .next (s.respond (okResponse r)) :=
      (State.completeCommand_of_decode hst hcmd hi).trans (exec_eq_next_iff.2 ⟨r, hr, rfl⟩)
    exact ⟨okResponse r, hnext, .inl ⟨i, r, hi, hr, rfl⟩⟩
  · exact ⟨illegalResponse s.draws, State.completeCommand_of_reserved hst hcmd hres,
      .inr ⟨⟨_, decodeRequest_of_reserved hres⟩, rfl⟩⟩

theorem State.Answers.of_decode {s : State} {q : Request} {p : Response} {i : Instr} (h : s.Answers q p)
    (hi : decodeRequest q = .ok i) : ∃ r, commandResult i = .ok r ∧ p = okResponse r := by
  obtain ⟨j, r, hj, hr, rfl⟩ | ⟨⟨d, hd⟩, -⟩ := h
  · obtain rfl : j = i := Except.ok.inj (hj.symm.trans hi)
    exact ⟨r, hr, rfl⟩
  · cases hd.symm.trans hi

theorem State.Answers.status_of_reserved {s : State} {q : Request} {p : Response} (h : s.Answers q p)
    (hres : 5 ≤ q.op.toNat) : p.status = .illegalOp := by
  obtain ⟨i, r, hi, -, -⟩ | ⟨-, rfl⟩ := h
  · cases (decodeRequest_of_reserved hres).symm.trans hi
  · rfl

theorem codesProduced_of_wellFormed {p : Response} (h : p.wellFormed = true) : codesProduced p = true := by
  obtain ⟨_ | _, cls, r⟩ := p
  · obtain ⟨hcls, -⟩ : cls = classCode (classOf r) ∧ _ := by simpa [Response.wellFormed] using h
    cases hc : classOf r <;> rw [hcls, hc] <;> rfl
  · rfl

/-! The state between the edges of a transaction -/

/-- Inside a transaction of a host that holds no other request: the block's state and latches, the events to come, and
the responses delivered. -/
structure State.Stands (s : State) (st : TxState) (cmd : Option Request) (res : Option Response) (vs : List Event)
    (d : List Response) : Prop where
  st_eq : s.block.st = st
  cmd_eq : s.block.cmd = cmd
  res_eq : s.block.res = res
  schedule_eq : s.schedule = vs
  delivered_eq : s.delivered = d
  offered_eq : s.offered = none
  resetSeen_eq : s.resetSeen = true

section
variable {s : State} {st : TxState} {cmd : Option Request} {res : Option Response} {vs : List Event}
  {d : List Response} {e : Edge}

theorem State.Stands.samples (h : s.Stands st cmd res (.edge e :: vs) d) (hrst : e.rst = false) : s.Samples e :=
  .of_schedule h.schedule_eq hrst h.resetSeen_eq (by simp [State.keepsOffer, h.offered_eq])

/-- Time passes an edge at which the host offers nothing. -/
theorem State.Stands.atEdge (h : s.Stands st cmd res (.edge e :: vs) d) (hv : e.reqValid = false) :
    (s.atEdge e).Stands st cmd res vs d where
  st_eq := h.st_eq
  cmd_eq := h.cmd_eq
  res_eq := h.res_eq
  schedule_eq := congrArg List.tail h.schedule_eq
  delivered_eq := h.delivered_eq
  offered_eq := by simp [hv]
  resetSeen_eq := h.resetSeen_eq

/-- An edge at which the transaction waits: for COMPLETE in BUSY, for the host in DONE. -/
theorem State.Stands.step_waiting (h : s.Stands st cmd res (.edge e :: vs) d) (hrst : e.rst = false)
    (hv : e.reqValid = false) (hwait : (st = .busy ∧ e.completes = false) ∨ (st = .done ∧ e.rspReady = false)) :
    ∃ t, step s = .next t ∧ t.Stands st cmd res vs d := by
  refine ⟨s.atEdge e, ?_, h.atEdge hv⟩
  rw [(h.samples hrst).step_eq]
  obtain ⟨rfl, hc⟩ | ⟨rfl, hr⟩ := hwait
  · exact State.transact_of_busy_waiting h.st_eq hc
  · exact State.transact_of_done_waiting h.st_eq hr

theorem State.Stands.runSteps_waiting {n : Nat} (h : s.Stands st cmd res (List.replicate n (.edge e) ++ vs) d)
    (hrst : e.rst = false) (hv : e.reqValid = false)
    (hwait : (st = .busy ∧ e.completes = false) ∨ (st = .done ∧ e.rspReady = false)) :
    ∃ t, runSteps n s = .next t ∧ t.Stands st cmd res vs d := by
  induction n generalizing s with
  | zero => exact ⟨s, rfl, h⟩
  | succ n ih =>
    obtain ⟨t, hstep, ht⟩ := State.Stands.step_waiting h hrst hv hwait
    rw [runSteps_succ hstep]
    exact ih ht

/-- ACCEPT of a request offered for the first time or held from before (R40). -/
theorem step_accept {q : Request} (hs : s.schedule = .edge (Edge.offer q) :: vs) (hst : s.block.st = .idle)
    (hseen : s.resetSeen = true) (hoff : s.offered = none ∨ s.offered = some q) :
    ∃ t, step s = .next t ∧ t.Stands .busy (some q) s.block.res vs s.delivered := by
  have hk : s.keepsOffer (Edge.offer q) = true := by
    obtain h | h := hoff <;> simp [State.keepsOffer, h]
  have hready : s.block.reqReady = true := Block.reqReady_eq_true_iff.2 hst
  have hsamp : s.Samples (Edge.offer q) := .of_schedule hs rfl hseen hk
  refine ⟨(s.atEdge (Edge.offer q)).accept q, hsamp.step_eq.trans (State.transact_of_idle_offer hst rfl), ?_⟩
  exact ⟨rfl, rfl, rfl, congrArg List.tail hs, rfl, by simp [hready], hseen⟩

/-- COMPLETE (R41). -/
theorem State.Stands.step_completing {q : Request} (h : s.Stands .busy (some q) res (.edge e :: vs) d)
    (hrst : e.rst = false) (hv : e.reqValid = false) (hc : e.completes = true) :
    ∃ t p, step s = .next t ∧ t.Stands .done none (some p) vs d ∧ (s.atEdge e).Answers q p := by
  have hedge := h.atEdge hv
  obtain ⟨p, hnext, hp⟩ := State.completeCommand_answers hedge.st_eq hedge.cmd_eq
  have hstep : step s = .next ((s.atEdge e).respond p) :=
    calc step s = (s.atEdge e).transact e := (h.samples hrst).step_eq
      _ = (s.atEdge e).completeCommand := State.transact_of_busy_completing hedge.st_eq hc
      _ = .next ((s.atEdge e).respond p) := hnext
  exact ⟨_, p, hstep,
    ⟨rfl, rfl, rfl, hedge.schedule_eq, hedge.delivered_eq, hedge.offered_eq, hedge.resetSeen_eq⟩, hp⟩

/-- DELIVER (R43). -/
theorem State.Stands.step_taking {p : Response} (h : s.Stands .done cmd (some p) (.edge e :: vs) d)
    (hrst : e.rst = false) (hv : e.reqValid = false) (hr : e.rspReady = true) (hp : codesProduced p = true) :
    ∃ t, step s = .next t ∧ t.Stands .idle cmd none vs (d ++ [p]) := by
  have hedge := h.atEdge hv
  have hstep := (h.samples hrst).step_eq.trans (State.transact_of_done_taking hedge.st_eq hedge.res_eq hp hr)
  exact ⟨_, hstep, ⟨rfl, hedge.cmd_eq, rfl, hedge.schedule_eq, by rw [hedge.delivered_eq], hedge.offered_eq,
    hedge.resetSeen_eq⟩⟩

end

/-- One whole transaction, of any latency and with any wait for the host (R83); `u` is the state at its COMPLETE. -/
theorem runTransaction_delivers {s : State} {q : Request} (n m : Nat) (hst : s.block.st = .idle)
    (hseen : s.resetSeen = true) (hoff : s.offered = none ∨ s.offered = some q) :
    ∃ t p, runTransaction q n m s = .next t ∧ t.Stands .idle none none s.schedule (s.delivered ++ [p]) ∧
      ∃ u : State, u.Answers q p := by
  have hsched : transactionEvents q n m ++ s.schedule =
      .edge (Edge.offer q) :: (List.replicate n (.edge Edge.wait) ++
        .edge Edge.quiet :: (List.replicate m (.edge Edge.quiet) ++ .edge Edge.take :: s.schedule)) := by
    simp [transactionEvents]
  obtain ⟨t₁, hrun₁, ht₁⟩ :=
    step_accept (s := s.withSchedule (transactionEvents q n m ++ s.schedule)) hsched hst hseen hoff
  obtain ⟨t₂, hrun₂, ht₂⟩ := ht₁.runSteps_waiting rfl rfl (.inl ⟨rfl, rfl⟩)
  obtain ⟨t₃, p, hrun₃, ht₃, hp⟩ := ht₂.step_completing rfl rfl rfl
  obtain ⟨t₄, hrun₄, ht₄⟩ := ht₃.runSteps_waiting rfl rfl (.inr ⟨rfl, rfl⟩)
  obtain ⟨t₅, hrun₅, ht₅⟩ := ht₄.step_taking rfl rfl rfl (codesProduced_of_wellFormed hp.wellFormed)
  refine ⟨t₅, p, ?_, ht₅, _, hp⟩
  have hcount : n + m + 3 = n + (m + 1 + 1) + 1 := by omega
  rw [runTransaction, hcount, runSteps_succ hrun₁, runSteps_add hrun₂, runSteps_succ hrun₃, runSteps_add hrun₄,
    runSteps_succ hrun₅, runSteps_zero]

/-- Settles O56: the phases of the transaction one after the other; the response delivered is the one COMPLETE gave. -/
theorem transactionDeliversItsResponse : Obligations.TransactionDeliversItsResponse := by
  intro s q n m hst hseen hoff
  obtain ⟨t, p, hrun, ht, u, hp⟩ := runTransaction_delivers n m hst hseen hoff
  refine ⟨t, p, hrun, ht.st_eq, ht.cmd_eq, ht.res_eq, ht.schedule_eq, ht.offered_eq, ht.delivered_eq, fun i hi => ?_,
    hp.status_of_reserved⟩
  rw [decode_requestWord] at hi
  exact hp.of_decode hi

end Sys2Proof.Machine
end

section
/-! SUPPORT. RoundPack of an exact magnitude: a magnitude that is a quad's comes back as that quad
(spec/40_limbs_and_rounding.md R112, R114), and so a rational literal assembles exactly (spec/30_encoding.md R81). -/

namespace Sys2Proof.Machine

/-! Magnitudes `m * 2^k` -/

theorem mul_zpow_eq_mul_zpow_add_iff (m n d : ℕ) (k : ℤ) : (m : ℚ) * 2 ^ k = n * 2 ^ (k + d) ↔ m = n <<< d := by
  have hk : (2 : ℚ) ^ k ≠ 0 := zpow_ne_zero _ two_ne_zero
  rw [zpow_add₀ two_ne_zero, zpow_natCast, mul_comm (2 ^ k : ℚ), ← mul_assoc, mul_left_inj' hk, Nat.shiftLeft_eq]
  norm_cast

/-- Two magnitudes are equal where the integers are, shifted to the lower of the two weight exponents. -/
theorem mul_zpow_eq_mul_zpow_iff (m n : ℕ) (j k : ℤ) :
    (m : ℚ) * 2 ^ j = n * 2 ^ k ↔ m <<< (j - k).toNat = n <<< (k - j).toNat := by
  obtain hle | hle := le_total j k
  · obtain ⟨d, rfl⟩ := Int.le.dest hle
    simp [mul_zpow_eq_mul_zpow_add_iff]
  · obtain ⟨d, rfl⟩ := Int.le.dest hle
    simp [eq_comm (b := (n : ℚ) * 2 ^ k), mul_zpow_eq_mul_zpow_add_iff, eq_comm (b := n)]

theorem zpow_le_mul_zpow {m a : ℕ} (h : 2 ^ a ≤ m) (k : ℤ) : (2 : ℚ) ^ (a + k) ≤ m * 2 ^ k := by
  rw [zpow_add₀ two_ne_zero, zpow_natCast]
  gcongr
  exact_mod_cast h

theorem mul_zpow_lt_zpow {m b : ℕ} (h : m < 2 ^ b) (k : ℤ) : (m : ℚ) * 2 ^ k < 2 ^ (b + k) := by
  rw [zpow_add₀ two_ne_zero, zpow_natCast]
  gcongr
  exact_mod_cast h

/-- The highest bit of a magnitude lies below every bound of it. -/
theorem exponent_lt_of_mul_zpow_eq {m n a b : ℕ} {j k : ℤ} (h : (m : ℚ) * 2 ^ j = n * 2 ^ k) (hm : 2 ^ a ≤ m)
    (hn : n < 2 ^ b) : a + j < b + k :=
  (zpow_lt_zpow_iff_right₀ one_lt_two).1 <|
    calc (2 : ℚ) ^ (a + j) ≤ m * 2 ^ j := zpow_le_mul_zpow hm j
      _ = n * 2 ^ k := h
      _ < 2 ^ (b + k) := mul_zpow_lt_zpow hn k

/-! The branches of RoundPack on the magnitude of a quad (R112) -/

/-- The lowest bit RoundPack keeps is the quad's. -/
theorem roundLsb_of_unpack {x : Quad} {u : Unpacked} {m : ℕ} {k : ℤ} (hu : unpack x = .ok u) (hm : m ≠ 0)
    (h : (m : ℚ) * 2 ^ k = u.significand * 2 ^ u.exponent) : roundLsb (bitLength m - 1) k = u.exponent := by
  obtain ⟨-, hsig, hexp, -, -⟩ := unpack_eq_ok hu
  obtain ⟨hlow, hhigh⟩ := bitLength_bounds hm
  have hbits : bitLength m - 1 + 1 = bitLength m := rfl
  have hmin : Config.lsbMin = 1 - Config.bias - 128 := rfl
  unfold roundLsb
  by_cases hlead : 2 ^ 128 ≤ u.significand
  · have hle := exponent_lt_of_mul_zpow_eq h hlow hsig
    have hge := exponent_lt_of_mul_zpow_eq h.symm hlead hhigh
    rw [if_pos (by omega)]
    omega
  · have hle := exponent_lt_of_mul_zpow_eq h hlow (not_le.1 hlead)
    have hlsb := (leading_bit_or_lsbMin_of_unpack hu).resolve_left hlead
    rw [if_neg (by omega), hlsb]

/-- Nothing is rounded off where the lowest bit kept weighs no more than the magnitude's last. -/
theorem roundSignificand_of_exact {m n q : ℕ} {k l : ℤ} (hm : m < 2 ^ (n + 1)) (hq : q ≠ 0)
    (h : (m : ℚ) * 2 ^ k = q * 2 ^ l) : roundSignificand m n (l - k) false = q := by
  have hshift := (mul_zpow_eq_mul_zpow_iff m q k l).1 h
  unfold roundSignificand
  by_cases hle : l ≤ k
  · have hzero : (l - k).toNat = 0 := by omega
    rw [if_pos (by omega), neg_sub, hshift, hzero, Nat.shiftLeft_zero]
  · obtain ⟨d, rfl⟩ : ∃ d : ℕ, l = k + (d + 1 : ℕ) := ⟨(l - k - 1).toNat, by omega⟩
    have hexact : m = q <<< (d + 1) := (mul_zpow_eq_mul_zpow_add_iff m q (d + 1) k).1 h
    have hd : d + 1 < n + 1 := by
      refine (Nat.pow_lt_pow_iff_right (by decide : 1 < 2)).1 (lt_of_le_of_lt ?_ hm)
      rw [hexact, Nat.shiftLeft_eq]
      exact Nat.le_mul_of_pos_left _ (Nat.pos_of_ne_zero hq)
    have hguard : m.testBit d = false := by
      rw [hexact, Nat.testBit_shiftLeft]
      simp
    have hkept : m >>> (d + 1) = q := by rw [hexact, Nat.shiftLeft_shiftRight]
    have hsub : k + (d + 1 : ℕ) - k = (d + 1 : ℕ) := by omega
    rw [hsub, if_neg (by omega), if_neg (by omega)]
    simp [hguard, hkept]

theorem exponentOf_lt_expInf_of_unpack {x : Quad} {u : Unpacked} (h : unpack x = .ok u) :
    exponentOf x < Config.expInf := by
  have hlt := exponentOf_lt x
  have hinf : Config.expInf = 2 ^ 32 - 1 := rfl
  by_contra hge
  have he : exponentOf x = Config.expInf := by omega
  have hf : fractionOf x ≠ 0 := fun hf => by simp [unpack, classOf_eq_infinity_iff.2 ⟨he, hf⟩] at h
  exact classOf_ne_nan_of_unpack h (classOf_eq_nan_iff.2 ⟨he, hf⟩)

/-- The significand and the weight exponent of a quad pack to the quad. -/
theorem packRounded_of_unpack {x : Quad} {u : Unpacked} (h : unpack x = .ok u) (hz : u.significand ≠ 0) :
    packRounded u.sign u.significand u.exponent = x := by
  obtain ⟨-, hsig, hexp, -, -⟩ := unpack_eq_ok h
  obtain ⟨hs, hf, he⟩ := fields_of_unpack h
  have hinf := exponentOf_lt_expInf_of_unpack h
  have hbound : Config.expInf < 2 ^ 32 := by decide
  have hmin : Config.lsbMin = 1 - Config.bias - 128 := rfl
  rw [packRounded, if_neg (by omega), packSignificand, if_neg hz]
  dsimp only
  split_ifs with hlead hover
  · rw [if_neg (by omega)] at he
    exact quad_eq_of_fields (by simp [hs]) (by simp [he]) (by simp [hf])
  · rw [if_pos (by omega)] at he
    omega
  · rw [if_pos (by omega)] at he
    refine quad_eq_of_fields (by simp [hs]) ?_ ?_
    · rw [exponentOf_packQuad, BitVec.toNat_ofInt]
      omega
    · rw [fractionOf_packQuad, BitVec.toNat_ofNat]
      omega

/-- RoundPack of the magnitude of a quad, with the quad's sign, is the quad (R114). -/
theorem roundPackValue_of_exact {x : Quad} {u : Unpacked} {m : ℕ} {k : ℤ} (hu : unpack x = .ok u)
    (h : (m : ℚ) * 2 ^ k = u.significand * 2 ^ u.exponent) : roundPackValue u.sign m k false = x := by
  obtain ⟨hsign, -, -, hzero, -⟩ := unpack_eq_ok hu
  have hpow : ∀ j : ℤ, (2 : ℚ) ^ j ≠ 0 := fun j => zpow_ne_zero j two_ne_zero
  have hmz : m = 0 ↔ u.significand = 0 := by
    simpa [hpow] using congrArg (· = 0) h
  unfold roundPackValue
  split_ifs with hm
  · rw [hsign, ← eq_zeroQuad_of_classOf (hzero.1 (hmz.1 hm))]
  · have hsig : u.significand ≠ 0 := mt hmz.2 hm
    have hhigh : m < 2 ^ (bitLength m - 1 + 1) := (bitLength_bounds hm).2
    dsimp only
    rw [roundLsb_of_unpack hu hm h, roundSignificand_of_exact hhigh hsig h, packRounded_of_unpack hu hsig]

/-! The assembler's exact quad (spec/30_encoding.md R81) -/

theorem exactQuad_zero (s : Bool) (k : ℤ) : exactQuad s 0 k = .ok (zeroQuad s) := by
  simp [exactQuad, roundPack_ok, roundPackValue, bind, Except.bind]

/-- The assembler takes RoundPack's quad exactly where its magnitude is the literal's. -/
theorem exactQuad_eq_ok_iff {s : Bool} {n : ℕ} {k : ℤ} {q : Quad} (hn : n ≠ 0) :
    exactQuad s n k = .ok q ↔ q = roundPackValue s n k false ∧
      ∃ u, unpack q = .ok u ∧ (n : ℚ) * 2 ^ k = u.significand * 2 ^ u.exponent := by
  unfold exactQuad
  rw [roundPack_ok (by simp)]
  dsimp only [bind, Except.bind]
  rw [if_neg hn]
  generalize roundPackValue s n k false = r
  constructor
  · intro h
    split at h
    case h_1 => cases h
    case h_2 u hu =>
      split_ifs at h with hz hshift
      obtain rfl := Except.ok.inj h
      exact ⟨rfl, u, hu, (mul_zpow_eq_mul_zpow_iff ..).2 hshift⟩
  · rintro ⟨rfl, u, hu, hmag⟩
    have hz : u.significand ≠ 0 := by
      intro hz
      have hpos : (0 : ℚ) < n * 2 ^ k := by positivity
      simp [hmag, hz] at hpos
    simp [hu, hz, (mul_zpow_eq_mul_zpow_iff ..).1 hmag]

theorem unpack_of_valueOf {x : Quad} {y : ℚ} (h : valueOf x = some y) : ∃ u, unpack x = .ok u := by
  refine unpack_of_finite (fun hi => ?_) (fun hn => ?_)
  · simp [valueOf, hi] at h
  · simp [valueOf, hn] at h

/-- Settles O6: a literal of 0 is a zero of its sign; another is RoundPack's quad, whose magnitude the assembler compares
with the literal's, and a quad of the literal's value is what RoundPack gives. -/
theorem rationalLiteralIsExact : Obligations.RationalLiteralIsExact := by
  intro s n k
  change (∀ q, exactQuad s n k = .ok q → _) ∧ (∀ x, _ → ∃ q, exactQuad s n k = .ok q)
  obtain rfl | hn := eq_or_ne n 0
  · rw [exactQuad_zero]
    refine ⟨fun q hq => ?_, fun _ _ => ⟨_, rfl⟩⟩
    obtain rfl := Except.ok.inj hq
    simp [valueOf]
  · refine ⟨fun q hq => ?_, fun x hx => ?_⟩
    · obtain ⟨hround, u, hu, hmag⟩ := (exactQuad_eq_ok_iff hn).1 hq
      obtain ⟨hsign, -⟩ := unpack_eq_ok hu
      have hs : signOf q = s := by rw [hround, signOf_roundPackValue]
      rw [valueOf_of_unpack hu, hsign, hs, hmag]
      exact ⟨rfl, rfl⟩
    · obtain ⟨u, hu⟩ := unpack_of_valueOf hx
      rw [valueOf_of_unpack hu] at hx
      obtain ⟨rfl, hmag⟩ | ⟨-, hzero⟩ := signFactor_mul_eq (by positivity) (by positivity) (Option.some.inj hx)
      · have hround := roundPackValue_of_exact hu hmag.symm
        exact ⟨x, (exactQuad_eq_ok_iff hn).2 ⟨hround.symm, u, hu, hmag.symm⟩⟩
      · have hpos : (0 : ℚ) < n * 2 ^ k := by positivity
        exact absurd hzero hpos.ne'

end Sys2Proof.Machine
end

section
/-! SUPPORT. No step is refused: every command has a result, and the other operations on the machine refuse nothing. -/

namespace Sys2Proof.Machine

theorem exec_ne_refused (i : Instr) (s : State) (e : Refusal) : exec i s ≠ .refused e := by
  obtain ⟨r, hr⟩ := exists_commandResult i
  rw [exec_eq_finish, hr]
  simp [State.finish]

theorem State.completeCommand_ne_refused (s : State) (e : Refusal) : s.completeCommand ≠ .refused e := by
  unfold State.completeCommand
  split
  · simp
  · split
    · exact exec_ne_refused _ _ _
    · simp

theorem State.deliver_ne_refused (s : State) (e : Refusal) : s.deliver ≠ .refused e := by
  unfold State.deliver
  split
  · simp
  · split <;> simp

theorem State.readResponse_ne_refused (s : State) (e : Refusal) : s.readResponse ≠ .refused e := by
  unfold State.readResponse
  split
  · simp
  · split <;> simp

theorem State.transact_ne_refused (s : State) (e : Edge) (f : Refusal) : s.transact e ≠ .refused f := by
  cases hst : s.block.st with
  | idle => simp [State.transact, hst]
  | busy =>
    cases hc : e.completes with
    | false => simp [State.transact_of_busy_waiting hst hc]
    | true => rw [State.transact_of_busy_completing hst hc]; exact s.completeCommand_ne_refused f
  | done =>
    cases hr : e.rspReady with
    | false => simp [State.transact_of_done_waiting hst hr]
    | true => simpa [State.transact, hst, hr] using s.deliver_ne_refused f

theorem State.clockEdge_ne_refused (s : State) (e : Edge) (f : Refusal) : s.clockEdge e ≠ .refused f := by
  unfold State.clockEdge
  split_ifs
  · simp
  · simp
  · simp
  · exact State.transact_ne_refused _ e f
  · simp

/-- Settles O55: a step is an edge, a look at the port or a loss of power, and the one command an edge may complete has a
result. -/
theorem noStepIsRefused : Obligations.NoStepIsRefused := by
  intro s r
  rw [step_eq_event]
  cases s.upcoming with
  | edge e => exact State.clockEdge_ne_refused _ e r
  | readResponse => exact State.readResponse_ne_refused _ r
  | losePower => simp [State.event]

end Sys2Proof.Machine
end

section
/-! SUPPORT. Unpack and Normalize keep the value (spec/40_limbs_and_rounding.md R100, R101). -/

namespace Sys2Proof.Machine

theorem unpack_of_normal {x : Quad} (h : classOf x = .normal) :
    unpack x = .ok ⟨signOf x, 2 ^ 128 + fractionOf x, exponentOf x - Config.bias - 128⟩ := by
  simp [unpack, h]

theorem unpack_of_subnormal {x : Quad} (h : classOf x = .subnormal) :
    unpack x = .ok ⟨signOf x, fractionOf x, Config.lsbMin⟩ := by
  simp [unpack, h]

theorem unpack_of_zero {x : Quad} (h : classOf x = .zero) : unpack x = .ok ⟨signOf x, 0, Config.lsbMin⟩ := by
  simp [unpack, h]

theorem unpack_of_nonfinite {x : Quad} (h : classOf x = .infinity ∨ classOf x = .nan) :
    unpack x = .error .unpackOfNonFinite := by
  obtain hi | hn := h
  · simp [unpack, hi]
  · simp [unpack, hn]

/-- Settles O8: the value is `valueOf_of_unpack`; the sizes are read off the branch of the operand's class. -/
theorem unpackGivesTheExactValue : Obligations.UnpackGivesTheExactValue := by
  intro x
  refine ⟨unpack_of_nonfinite, fun hi hn => ?_⟩
  obtain ⟨u, hu⟩ := unpack_of_finite hi hn
  obtain ⟨hsign, -⟩ := unpack_eq_ok hu
  have hlt := fractionOf_lt x
  refine ⟨u, hu, hsign, valueOf_of_unpack hu, fun hc => ?_, fun hc => ?_, fun hc => ?_⟩
  · rw [unpack_of_normal hc] at hu
    obtain rfl := Except.ok.inj hu
    exact ⟨Nat.le_add_right _ _, by dsimp only; omega, rfl⟩
  · rw [unpack_of_subnormal hc] at hu
    obtain rfl := Except.ok.inj hu
    exact ⟨Nat.pos_of_ne_zero (classOf_eq_subnormal_iff.1 hc).2, hlt, rfl⟩
  · rw [unpack_of_zero hc] at hu
    obtain rfl := Except.ok.inj hu
    exact ⟨rfl, rfl⟩

theorem bitLength_le {m n : Nat} (hm : m ≠ 0) (h : m < 2 ^ n) : bitLength m ≤ n :=
  (Nat.log2_lt hm).2 h

/-- A shift left by `d`, the weight exponent lowered by `d`, keeps the magnitude. -/
theorem shiftLeft_mul_zpow_sub (m d : ℕ) (k : ℤ) : ((m <<< d : ℕ) : ℚ) * 2 ^ (k - d) = m * 2 ^ k := by
  refine (mul_zpow_eq_mul_zpow_iff ..).2 ?_
  rw [show (k - d - k).toNat = 0 by omega, show (k - (k - d)).toNat = d by omega, Nat.shiftLeft_zero]

/-- Settles O9: the highest bit of `M`, at `bitLength M - 1`, moves to 128. -/
theorem normalizeKeepsTheValue : Obligations.NormalizeKeepsTheValue := by
  intro m k hpos hlt
  have hm : m ≠ 0 := by omega
  obtain ⟨hlow, hhigh⟩ := bitLength_bounds hm
  have hle : bitLength m ≤ 129 := bitLength_le hm hlt
  have hone : 1 ≤ bitLength m := Nat.le_add_left ..
  refine ⟨?_, ?_, shiftLeft_mul_zpow_sub ..⟩
  · calc 2 ^ 128 = 2 ^ (bitLength m - 1) * 2 ^ (129 - bitLength m) := by rw [← pow_add]; congr 1; omega
      _ ≤ m * 2 ^ (129 - bitLength m) := Nat.mul_le_mul_right _ hlow
      _ = (normalize m k).1 := (Nat.shiftLeft_eq ..).symm
  · calc (normalize m k).1 = m * 2 ^ (129 - bitLength m) := Nat.shiftLeft_eq ..
      _ < 2 ^ bitLength m * 2 ^ (129 - bitLength m) := Nat.mul_lt_mul_of_pos_right hhigh (Nat.two_pow_pos _)
      _ = 2 ^ 129 := by rw [← pow_add]; congr 1; omega

end Sys2Proof.Machine
end

section
/-! SUPPORT. The limb primitives: each is the arithmetic of the buffers' values (spec/40_limbs_and_rounding.md
section 2). -/

namespace Sys2Proof.Machine

/-! Values and well-formedness of buffers -/

@[simp] theorem intVal_nil : intVal [] = 0 := rfl

@[simp] theorem intVal_cons (x : Slot) (l : Limbs) :
    intVal (x :: l) = x.toNat * 2 ^ (32 * l.length) + intVal l := rfl

/-- The slots on the left weigh more by the slots on the right (R102). -/
theorem intVal_append (l r : Limbs) : intVal (l ++ r) = intVal l * 2 ^ (32 * r.length) + intVal r := by
  induction l with
  | nil => simp
  | cons x l ih =>
    rw [List.cons_append, intVal_cons, ih, intVal_cons, List.length_append, Nat.mul_add, pow_add]
    ring

theorem intVal_replicate_zero_append (n : Nat) (l : Limbs) : intVal (List.replicate n 0 ++ l) = intVal l := by
  induction n with
  | zero => rfl
  | succ n ih => rw [List.replicate_succ, List.cons_append, intVal_cons, ih]; simp

theorem wellFormed_cons {x : Slot} {l : Limbs} :
    Limbs.wellFormed (x :: l) = true ↔ x.toNat < 2 ^ 32 ∧ Limbs.wellFormed l = true := by
  simp [Limbs.wellFormed]

theorem wellFormed_append {l r : Limbs} :
    Limbs.wellFormed (l ++ r) = true ↔ Limbs.wellFormed l = true ∧ Limbs.wellFormed r = true := by
  simp [Limbs.wellFormed]

theorem wellFormed_replicate_zero (n : Nat) : Limbs.wellFormed (List.replicate n 0) = true := by
  simp [Limbs.wellFormed]

/-! isEmpty and compare (R104, R107) -/

theorem limbsEmpty_iff (l : Limbs) : limbsEmpty l = true ↔ intVal l = 0 := by
  induction l with
  | nil => simp [limbsEmpty]
  | cons x l ih =>
    have hx : (x == 0) = true ↔ x.toNat = 0 := by
      rw [beq_iff_eq, ← BitVec.toNat_inj]
      rfl
    have hcons : limbsEmpty (x :: l) = true ↔ (x == 0) = true ∧ limbsEmpty l = true := by
      simp [limbsEmpty]
    rw [hcons, hx, ih, intVal_cons]
    simp

/-- A lower leading slot makes a lower value, whatever slots follow. -/
theorem intVal_cons_lt {x y : Slot} {l r : Limbs} (h : x.toNat < y.toNat) (hl : Limbs.wellFormed l = true)
    (hlen : l.length = r.length) : intVal (x :: l) < intVal (y :: r) := by
  have hlow := intVal_lt hl
  have hhigh := Nat.mul_le_mul_right (2 ^ (32 * l.length)) (Nat.succ_le_of_lt h)
  rw [intVal_cons, intVal_cons, ← hlen]
  linarith

theorem compareSlots_zip {a b : Limbs} (ha : Limbs.wellFormed a = true) (hb : Limbs.wellFormed b = true)
    (hlen : a.length = b.length) : compareSlots (a.zip b) = compare (intVal a) (intVal b) := by
  induction a generalizing b with
  | nil =>
    obtain rfl := List.eq_nil_of_length_eq_zero hlen.symm
    rfl
  | cons x a ih =>
    obtain ⟨y, b, rfl⟩ := List.exists_cons_of_length_eq_add_one hlen.symm
    obtain ⟨-, ha⟩ := wellFormed_cons.1 ha
    obtain ⟨-, hb⟩ := wellFormed_cons.1 hb
    have hlen' : a.length = b.length := Nat.succ_injective hlen
    rw [List.zip_cons_cons, compareSlots]
    split_ifs with hlt hgt
    · exact (compare_lt_iff_lt.2 (intVal_cons_lt hlt ha hlen')).symm
    · exact (compare_gt_iff_gt.2 (intVal_cons_lt hgt hb hlen'.symm)).symm
    · have heq : x.toNat = y.toNat := by omega
      rw [ih ha hb hlen', intVal_cons, intVal_cons, heq, hlen']
      simp only [Nat.compare_eq_ite_lt, Nat.add_lt_add_iff_left]

/-- Settles O45: the first unequal pair of slots decides, and only a buffer of zeros has the value 0. -/
theorem compareLimbsComparesValues : Obligations.CompareLimbsComparesValues := by
  intro a b ha hb hlen
  refine ⟨?_, limbsEmpty_iff a⟩
  rw [compareLimbs, if_pos hlen, compareSlots_zip ha hb hlen]

/-! subtractAligned and addAligned (R105, R106) -/

theorem toNat_lowHalf (t : Slot) : (lowHalf t).toNat = t.toNat % 2 ^ 32 := by
  rw [lowHalf, BitVec.toNat_and]
  exact Nat.and_two_pow_sub_one_eq_mod t.toNat 32

/-- The high half of a slot is not zero where the slot has left its 32 bits. -/
theorem highHalf_bne_zero (t : Slot) : (highHalf t != 0) = decide (2 ^ 32 ≤ t.toNat) := by
  have hzero : highHalf t = 0 ↔ t.toNat / 2 ^ 32 = 0 := by
    rw [highHalf, ← BitVec.toNat_inj, BitVec.toNat_ushiftRight, Nat.shiftRight_eq_div_pow]
    rfl
  rw [Bool.eq_iff_iff, bne_iff_ne, Ne, hzero, decide_eq_true_iff]
  omega

theorem toNat_zeroExtend_ofBool (b : Bool) : ((BitVec.ofBool b).zeroExtend 64).toNat = b.toNat := by
  cases b <;> rfl

/-- One slot of a subtraction, in 64 bits: what stays, and the borrow (R105). -/
theorem subtract_slot {x y : Slot} (hx : x.toNat < 2 ^ 32) (hy : y.toNat < 2 ^ 32) (b : Bool) :
    let t : Slot := x - y - (BitVec.ofBool b).zeroExtend 64
    (lowHalf t).toNat + y.toNat + b.toNat = x.toNat + (highHalf t != 0).toNat * 2 ^ 32 := by
  intro t
  have hb : b.toNat ≤ 1 := Bool.toNat_le b
  have ht : t.toNat = (2 ^ 64 - b.toNat + (2 ^ 64 - y.toNat + x.toNat) % 2 ^ 64) % 2 ^ 64 := by
    rw [BitVec.toNat_sub, BitVec.toNat_sub, toNat_zeroExtend_ofBool]
  rw [toNat_lowHalf, highHalf_bne_zero]
  by_cases h : 2 ^ 32 ≤ t.toNat
  · rw [decide_eq_true h, Bool.toNat_true]
    omega
  · rw [decide_eq_false h, Bool.toNat_false]
    omega

/-- One slot of an addition, in 64 bits: what stays, and the carry (R106). -/
theorem add_slot {x y : Slot} (hx : x.toNat < 2 ^ 32) (hy : y.toNat < 2 ^ 32) (b : Bool) :
    let t : Slot := x + y + (BitVec.ofBool b).zeroExtend 64
    x.toNat + y.toNat + b.toNat = (lowHalf t).toNat + (highHalf t != 0).toNat * 2 ^ 32 := by
  intro t
  have hb : b.toNat ≤ 1 := Bool.toNat_le b
  have ht : t.toNat = ((x.toNat + y.toNat) % 2 ^ 64 + b.toNat) % 2 ^ 64 := by
    rw [BitVec.toNat_add, BitVec.toNat_add, toNat_zeroExtend_ofBool]
  rw [toNat_lowHalf, highHalf_bne_zero]
  by_cases h : 2 ^ 32 ≤ t.toNat
  · rw [decide_eq_true h, Bool.toNat_true]
    omega
  · rw [decide_eq_false h, Bool.toNat_false]
    omega

theorem toNat_lowHalf_lt (t : Slot) : (lowHalf t).toNat < 2 ^ 32 := by
  rw [toNat_lowHalf]
  exact Nat.mod_lt _ (by decide)

/-- The difference of two buffers of one length, slot by slot, with the borrow that enters and the one that leaves. -/
theorem subtractSlots_zip {a s : Limbs} (ha : Limbs.wellFormed a = true) (hs : Limbs.wellFormed s = true)
    (hlen : a.length = s.length) (b : Bool) :
    (subtractSlots (a.zip s) b).1.length = a.length ∧ Limbs.wellFormed (subtractSlots (a.zip s) b).1 = true ∧
      intVal (subtractSlots (a.zip s) b).1 + intVal s + b.toNat =
        intVal a + (subtractSlots (a.zip s) b).2.toNat * 2 ^ (32 * a.length) := by
  induction a generalizing s with
  | nil =>
    obtain rfl := List.eq_nil_of_length_eq_zero hlen.symm
    simp [subtractSlots, Limbs.wellFormed]
  | cons x a ih =>
    obtain ⟨y, s, rfl⟩ := List.exists_cons_of_length_eq_add_one hlen.symm
    obtain ⟨hx, ha⟩ := wellFormed_cons.1 ha
    obtain ⟨hy, hs⟩ := wellFormed_cons.1 hs
    have hlen' : a.length = s.length := Nat.succ_injective hlen
    obtain ⟨ihlen, ihwf, ihval⟩ := ih ha hs hlen'
    have hslot := subtract_slot hx hy (subtractSlots (a.zip s) b).2
    rw [List.zip_cons_cons, subtractSlots]
    refine ⟨by simp [ihlen], wellFormed_cons.2 ⟨toNat_lowHalf_lt _, ihwf⟩, ?_⟩
    dsimp only at hslot ⊢
    rw [intVal_cons, intVal_cons, intVal_cons, ihlen, ← hlen', List.length_cons, Nat.mul_succ, pow_add]
    linear_combination ihval + 2 ^ (32 * a.length) * hslot

/-- The sum of two buffers of one length, slot by slot, with the carry that enters and the one that leaves. -/
theorem addSlots_zip {a s : Limbs} (ha : Limbs.wellFormed a = true) (hs : Limbs.wellFormed s = true)
    (hlen : a.length = s.length) (b : Bool) :
    (addSlots (a.zip s) b).1.length = a.length ∧ Limbs.wellFormed (addSlots (a.zip s) b).1 = true ∧
      intVal a + intVal s + b.toNat =
        intVal (addSlots (a.zip s) b).1 + (addSlots (a.zip s) b).2.toNat * 2 ^ (32 * a.length) := by
  induction a generalizing s with
  | nil =>
    obtain rfl := List.eq_nil_of_length_eq_zero hlen.symm
    simp [addSlots, Limbs.wellFormed]
  | cons x a ih =>
    obtain ⟨y, s, rfl⟩ := List.exists_cons_of_length_eq_add_one hlen.symm
    obtain ⟨hx, ha⟩ := wellFormed_cons.1 ha
    obtain ⟨hy, hs⟩ := wellFormed_cons.1 hs
    have hlen' : a.length = s.length := Nat.succ_injective hlen
    obtain ⟨ihlen, ihwf, ihval⟩ := ih ha hs hlen'
    have hslot := add_slot hx hy (addSlots (a.zip s) b).2
    rw [List.zip_cons_cons, addSlots]
    refine ⟨by simp [ihlen], wellFormed_cons.2 ⟨toNat_lowHalf_lt _, ihwf⟩, ?_⟩
    dsimp only at hslot ⊢
    rw [intVal_cons, intVal_cons, intVal_cons, ihlen, ← hlen', List.length_cons, Nat.mul_succ, pow_add]
    linear_combination ihval + 2 ^ (32 * a.length) * hslot

section
variable {m s : Limbs} {o : Nat}

/-- The slots of `M` over the aligned `S`, and `S` with its padding: two well-formed buffers of one length (R105). -/
theorem aligned_operands (hm : Limbs.wellFormed m = true) (hs : Limbs.wellFormed s = true)
    (ho : o + s.length ≤ m.length) :
    Limbs.wellFormed (m.take (o + s.length)) = true ∧ Limbs.wellFormed (List.replicate o 0 ++ s) = true ∧
      (m.take (o + s.length)).length = o + s.length ∧
      (m.take (o + s.length)).length = (List.replicate o (0 : Slot) ++ s).length := by
  refine ⟨?_, wellFormed_append.2 ⟨wellFormed_replicate_zero o, hs⟩, by simp [ho], by simp [ho]⟩
  rw [← List.take_append_drop (o + s.length) m, wellFormed_append] at hm
  exact hm.1

/-- The slots of `M` right of the aligned `S` stay below whatever takes the place of the others. -/
theorem aligned_result (hm : Limbs.wellFormed m = true) (ho : o + s.length ≤ m.length) {l : Limbs}
    (hl : Limbs.wellFormed l = true) (hlen : l.length = o + s.length) :
    (l ++ m.drop (o + s.length)).length = m.length ∧ Limbs.wellFormed (l ++ m.drop (o + s.length)) = true ∧
      intVal (l ++ m.drop (o + s.length)) =
        intVal l * 2 ^ (32 * (m.length - s.length - o)) + intVal (m.drop (o + s.length)) := by
  refine ⟨?_, wellFormed_append.2 ⟨hl, ?_⟩, ?_⟩
  · rw [List.length_append, hlen, List.length_drop]
    omega
  · rw [← List.take_append_drop (o + s.length) m, wellFormed_append] at hm
    exact hm.2
  · rw [intVal_append, List.length_drop, Nat.add_comm o, Nat.sub_add_eq]

theorem two_pow_aligned (ho : o + s.length ≤ m.length) :
    2 ^ (32 * m.length) = 2 ^ (32 * (o + s.length)) * 2 ^ (32 * (m.length - s.length - o)) := by
  rw [← pow_add]
  congr 1
  omega

/-- subtractAligned, with the borrow as a number. -/
theorem subtractAligned_spec (hm : Limbs.wellFormed m = true) (hs : Limbs.wellFormed s = true)
    (ho : o + s.length ≤ m.length) :
    ∃ d b, subtractAligned m s o = .ok (d, b) ∧ d.length = m.length ∧ Limbs.wellFormed d = true ∧
      intVal d + intVal s * 2 ^ (32 * (m.length - s.length - o)) = intVal m + b.toNat * 2 ^ (32 * m.length) := by
  obtain ⟨htake, hpad, htlen, hplen⟩ := aligned_operands hm hs ho
  obtain ⟨dlen, dwf, dval⟩ := subtractSlots_zip htake hpad hplen false
  obtain ⟨-, -, mval⟩ := aligned_result hm ho htake htlen
  obtain ⟨rlen, rwf, rval⟩ := aligned_result hm ho dwf (dlen.trans htlen)
  refine ⟨_, _, by rw [subtractAligned, if_pos ho, alignedPairs], rlen, rwf, ?_⟩
  rw [List.take_append_drop] at mval
  rw [intVal_replicate_zero_append, htlen, Bool.toNat_false, Nat.add_zero] at dval
  rw [rval, mval, two_pow_aligned ho]
  linear_combination 2 ^ (32 * (m.length - s.length - o)) * dval

/-- addAligned, with the carry as a number. -/
theorem addAligned_spec (hm : Limbs.wellFormed m = true) (hs : Limbs.wellFormed s = true)
    (ho : o + s.length ≤ m.length) :
    ∃ d c, addAligned m s o = .ok (d, c) ∧ d.length = m.length ∧ Limbs.wellFormed d = true ∧
      intVal m + intVal s * 2 ^ (32 * (m.length - s.length - o)) = intVal d + c.toNat * 2 ^ (32 * m.length) := by
  obtain ⟨htake, hpad, htlen, hplen⟩ := aligned_operands hm hs ho
  obtain ⟨dlen, dwf, dval⟩ := addSlots_zip htake hpad hplen false
  obtain ⟨-, -, mval⟩ := aligned_result hm ho htake htlen
  obtain ⟨rlen, rwf, rval⟩ := aligned_result hm ho dwf (dlen.trans htlen)
  refine ⟨_, _, by rw [addAligned, if_pos ho, alignedPairs], rlen, rwf, ?_⟩
  rw [List.take_append_drop] at mval
  rw [intVal_replicate_zero_append, htlen, Bool.toNat_false, Nat.add_zero] at dval
  rw [rval, mval, two_pow_aligned ho]
  linear_combination 2 ^ (32 * (m.length - s.length - o)) * dval

end

/-- Settles O43: a result below 2^(32n) leaves a borrow exactly where the subtrahend is the greater. -/
theorem subtractAlignedSubtracts : Obligations.SubtractAlignedSubtracts := by
  intro m s o hm hs ho
  obtain ⟨d, b, hd, hlen, hwf, hval⟩ := subtractAligned_spec hm hs ho
  have hlt := intVal_lt hwf
  rw [hlen] at hlt
  refine ⟨d, b, hd, hlen, hwf, ?_, ?_⟩
  · cases b <;> simpa using hval
  · cases b
    · simp only [Bool.toNat_false, Nat.zero_mul] at hval
      simp only [Bool.false_eq_true, false_iff]
      omega
    · simp only [Bool.toNat_true, Nat.one_mul] at hval
      simp only [true_iff]
      omega

/-- Settles O44: the carry and the slots kept are the quotient and the rest by 2^(32n). -/
theorem addAlignedAdds : Obligations.AddAlignedAdds := by
  intro m s o hm hs ho
  obtain ⟨d, c, hd, hlen, hwf, hval⟩ := addAligned_spec hm hs ho
  have hlt := intVal_lt hwf
  rw [hlen] at hlt
  refine ⟨d, c, hd, hlen, hwf, ?_, ?_⟩
  · rw [hval, Nat.add_mul_mod_self_right, Nat.mod_eq_of_lt hlt]
  · rw [hval]
    cases c
    · simpa using hlt
    · simp

/-! The shifts (R108) -/

theorem ne_shiftRight_shiftLeft_iff (n d : ℕ) : (n != (n >>> d) <<< d) = true ↔ n % 2 ^ d ≠ 0 := by
  have h := Nat.div_add_mod' n (2 ^ d)
  rw [bne_iff_ne, Nat.shiftRight_eq_div_pow, Nat.shiftLeft_eq]
  omega

theorem intVal_toLimbs_of_lt {n m : ℕ} (h : m < 2 ^ (32 * n)) : intVal (toLimbs n m) = m := by
  rw [intVal_toLimbs, Nat.mod_eq_of_lt h]

theorem log2_mul_two_pow {n : ℕ} (hn : n ≠ 0) (d : ℕ) : Nat.log2 (n * 2 ^ d) = Nat.log2 n + d := by
  induction d with
  | zero => simp
  | succ d ih =>
    have hd : n * 2 ^ d ≠ 0 := mul_ne_zero hn (by simp)
    rw [pow_succ, ← mul_assoc, mul_comm _ 2, Nat.log2_two_mul hd, ih, Nat.add_assoc]

/-- The shifted value fits exactly where its highest bit does. -/
theorem log2_add_lt_iff {n d e : ℕ} (hn : n ≠ 0) : Nat.log2 n + d < e ↔ n * 2 ^ d < 2 ^ e := by
  rw [← log2_mul_two_pow hn, Nat.log2_lt (mul_ne_zero hn (by simp))]

theorem shiftLeftLimbs_of_lt {l : Limbs} {d : ℕ} (hl : Limbs.wellFormed l = true)
    (h : intVal l * 2 ^ d < 2 ^ (32 * l.length)) :
    ∃ k, shiftLeftLimbs l d = .ok k ∧ intVal k = intVal l * 2 ^ d ∧ k.length = l.length ∧
      Limbs.wellFormed k = true := by
  unfold shiftLeftLimbs
  by_cases hz : intVal l = 0
  · exact ⟨l, if_pos hz, by simp [hz], rfl, hl⟩
  · rw [if_neg hz, if_pos ((log2_add_lt_iff hz).2 h), Nat.shiftLeft_eq]
    exact ⟨_, rfl, intVal_toLimbs_of_lt h, length_toLimbs .., wellFormed_toLimbs ..⟩

theorem shiftLeftLimbs_of_le {l : Limbs} {d : ℕ} (h : 2 ^ (32 * l.length) ≤ intVal l * 2 ^ d) :
    shiftLeftLimbs l d = .error .scratchOutOfRange := by
  have hz : intVal l ≠ 0 := by
    intro hz
    rw [hz, Nat.zero_mul] at h
    exact absurd h (not_le.2 (Nat.two_pow_pos _))
  rw [shiftLeftLimbs, if_neg hz, if_neg (mt (log2_add_lt_iff hz).1 (not_lt.2 h))]

/-- Settles O46: a buffer made of an integer that fits has that value. -/
theorem shiftLimbsShiftValues : Obligations.ShiftLimbsShiftValues := by
  intro l d hl
  have hfits : intVal l >>> d < 2 ^ (32 * l.length) := (Nat.shiftRight_le ..).trans_lt (intVal_lt hl)
  refine ⟨?_, wellFormed_toLimbs .., length_toLimbs .., ne_shiftRight_shiftLeft_iff .., shiftLeftLimbs_of_lt hl,
    shiftLeftLimbs_of_le⟩
  rw [← Nat.shiftRight_eq_div_pow]
  exact intVal_toLimbs_of_lt hfits

end Sys2Proof.Machine
end

section
/-! SUPPORT. What RoundPack does to the magnitude it is given: one rounding, half to even, to a multiple of the weight of
the lowest bit kept (spec/40_limbs_and_rounding.md R111, R112). -/

namespace Sys2Proof.Machine

/-- `v` is a magnitude that `m`, `k` and the sticky `st` of a call of RoundPack stand for, and the call meets the
precondition (spec/40_limbs_and_rounding.md R110, R111). -/
structure StandsFor (m : ℕ) (k : ℤ) (st : Bool) (v : ℝ) : Prop where
  precondition : st = true → 2 ^ 129 ≤ m
  lower : (m : ℝ) * 2 ^ k ≤ v
  upper : v < ((m : ℝ) + 1) * 2 ^ k
  exact_iff : v = (m : ℝ) * 2 ^ k ↔ st = false

/-- The magnitude `v` rounds, half to even, to the significand `q` with its lowest bit at the weight exponent `l`, where
`l` is the least one, or `v` has its leading bit 128 places above (R112). -/
structure RoundsTo (v : ℝ) (q : ℕ) (l : ℤ) : Prop where
  lsbMin_le : Config.lsbMin ≤ l
  le : q ≤ 2 ^ 129
  lead : l = Config.lsbMin ∨ (2 : ℝ) ^ (l + 128) ≤ v
  error : |v - q * 2 ^ l| ≤ 2 ^ l / 2
  tie : |v - q * 2 ^ l| = 2 ^ l / 2 → Even q

theorem StandsFor.nonneg {m : ℕ} {k : ℤ} {st : Bool} {v : ℝ} (h : StandsFor m k st v) : 0 ≤ v :=
  le_trans (by positivity) h.lower

/-- Where `m` has its highest bit at `n`, so does `v`, `k` places up. -/
theorem StandsFor.bounds {m n : ℕ} {k : ℤ} {st : Bool} {v : ℝ} (h : StandsFor m k st v) (hlow : 2 ^ n ≤ m)
    (hhigh : m < 2 ^ (n + 1)) : (2 : ℝ) ^ (n + k) ≤ v ∧ v < 2 ^ (n + 1 + k) := by
  constructor
  · calc (2 : ℝ) ^ (n + k) = 2 ^ n * 2 ^ k := by rw [zpow_add₀ two_ne_zero, zpow_natCast]
      _ ≤ m * 2 ^ k := by gcongr; exact_mod_cast hlow
      _ ≤ v := h.lower
  · have hsucc : (m : ℝ) + 1 ≤ 2 ^ (n + 1) := by exact_mod_cast hhigh
    calc v < ((m : ℝ) + 1) * 2 ^ k := h.upper
      _ ≤ 2 ^ (n + 1) * 2 ^ k := by gcongr
      _ = 2 ^ (n + 1 + k) := by rw [zpow_add₀ two_ne_zero]; norm_cast

/-! The significand kept -/

/-- The significand kept where `j + 1` bits lie below it: the guard bit `j` decides, with the bits below it, the sticky and
the lowest bit kept (R112). -/
theorem roundSignificand_of_shift {m n j : ℕ} (h : j < n + 1) (st : Bool) :
    roundSignificand m n (j + 1 : ℕ) st =
      if m.testBit j && ((m % 2 ^ j != 0 || st) || (m >>> (j + 1)).testBit 0) then m >>> (j + 1) + 1
      else m >>> (j + 1) := by
  unfold roundSignificand
  rw [if_neg (by omega), if_neg (by omega)]
  simp only [Int.toNat_natCast, Nat.add_sub_cancel]

/-- A magnitude `w` in units of the last bit of `m` is the bits kept, the guard bit and a rest below half a step; the rest
is not 0 exactly where a bit below the guard bit or the sticky is set. -/
theorem exists_rest {m : ℕ} {st : Bool} {w : ℝ} (hlow : m ≤ w) (hhigh : w < m + 1) (hst : w = m ↔ st = false) (j : ℕ) :
    ∃ ε : ℝ, 0 ≤ ε ∧ ε < 2 ^ j ∧ w = (m >>> (j + 1) : ℕ) * (2 * 2 ^ j) + (m.testBit j).toNat * 2 ^ j + ε ∧
      (ε = 0 ↔ (m % 2 ^ j != 0 || st) = false) := by
  have hbits : m = (m >>> (j + 1)) * (2 * 2 ^ j) + (m.testBit j).toNat * 2 ^ j + m % 2 ^ j := by
    have hguard : (m.testBit j).toNat = m / 2 ^ j % 2 := Nat.toNat_testBit m j
    have hkept : m >>> (j + 1) = m / 2 ^ j / 2 := by rw [Nat.shiftRight_eq_div_pow, pow_succ, Nat.div_div_eq_div_mul]
    have hdiv := Nat.div_add_mod' m (2 ^ j)
    have hdiv' := Nat.div_add_mod' (m / 2 ^ j) 2
    rw [hguard, hkept]
    linear_combination -hdiv - 2 ^ j * hdiv'
  have hrest : ((m % 2 ^ j : ℕ) : ℝ) + 1 ≤ 2 ^ j := by exact_mod_cast Nat.mod_lt m (Nat.two_pow_pos j)
  have hnonneg : (0 : ℝ) ≤ (m % 2 ^ j : ℕ) := by positivity
  refine ⟨(m % 2 ^ j : ℕ) + (w - m), by linarith, by linarith, ?_, ?_⟩
  · have hcast : (m : ℝ) =
        (m >>> (j + 1) : ℕ) * (2 * 2 ^ j) + (m.testBit j).toNat * 2 ^ j + (m % 2 ^ j : ℕ) := by exact_mod_cast hbits
    linear_combination hcast
  · rw [Bool.or_eq_false_iff, ← hst, bne_eq_false_iff_eq, ← Nat.cast_eq_zero (R := ℝ)]
    constructor
    · intro hsum
      constructor <;> linarith
    · rintro ⟨hmod, rfl⟩
      rw [hmod]
      ring

/-- Where bits are rounded off, the significand kept is the nearest to `w`, and the even one at a tie. -/
theorem roundSignificand_nearest_of_shift {m n j : ℕ} {st : Bool} {w : ℝ} (hj : j < n + 1) (hlow : m ≤ w)
    (hhigh : w < m + 1) (hst : w = m ↔ st = false) :
    |w - roundSignificand m n (j + 1 : ℕ) st * (2 * 2 ^ j)| ≤ 2 ^ j ∧
      (|w - roundSignificand m n (j + 1 : ℕ) st * (2 * 2 ^ j)| = 2 ^ j →
        Even (roundSignificand m n (j + 1 : ℕ) st)) := by
  obtain ⟨ε, hpos, hlt, hw, hzero⟩ := exists_rest hlow hhigh hst j
  rw [roundSignificand_of_shift hj]
  generalize (m % 2 ^ j != 0 || st) = rest at hzero
  generalize m >>> (j + 1) = q at hw
  cases hguard : m.testBit j with
  | false =>
    have hdiff : w - q * (2 * 2 ^ j) = ε := by
      rw [hw, hguard]
      simp
    simp only [Bool.false_and, Bool.false_eq_true, if_false, hdiff, abs_of_nonneg hpos]
    exact ⟨hlt.le, fun htie => absurd htie hlt.ne⟩
  | true =>
    rw [hguard, Bool.toNat_true, Nat.cast_one, one_mul] at hw
    cases hup : (rest || q.testBit 0) with
    | true =>
      have hdiff : w - (q + 1 : ℕ) * (2 * 2 ^ j) = -(2 ^ j - ε) := by
        push_cast
        linear_combination hw
      simp only [Bool.and_self, if_true, hdiff, abs_neg, abs_of_pos (sub_pos.2 hlt)]
      refine ⟨by linarith, fun htie => ?_⟩
      have hrest : rest = false := hzero.1 (by linarith)
      have hodd : q % 2 = 1 := by simpa [hrest, Nat.testBit_zero] using hup
      exact Nat.even_iff.2 (by omega)
    | false =>
      obtain ⟨hrest, heven⟩ := Bool.or_eq_false_iff.1 hup
      have hdiff : w - q * (2 * 2 ^ j) = 2 ^ j := by
        rw [hw, hzero.2 hrest]
        ring
      have hhalf : (0 : ℝ) ≤ 2 ^ j := by positivity
      simp only [Bool.and_false, Bool.false_eq_true, if_false, hdiff, abs_of_nonneg hhalf]
      refine ⟨le_rfl, fun _ => Nat.even_iff.2 ?_⟩
      simpa [Nat.testBit_zero] using heven

theorem roundLsb_cases (n : ℕ) (k : ℤ) : roundLsb n k = Config.lsbMin ∧ n + k - 128 ≤ Config.lsbMin ∨
    roundLsb n k = n + k - 128 := by
  have hmin : Config.lsbMin = 1 - Config.bias - 128 := rfl
  unfold roundLsb
  split_ifs
  · exact .inr rfl
  · exact .inl ⟨rfl, by omega⟩

/-- With a sticky at least one bit lies below the significand kept: the reason for R111's precondition. -/
theorem lt_roundLsb_of_le {m n : ℕ} (hm : 2 ^ 129 ≤ m) (hn : m < 2 ^ (n + 1)) (k : ℤ) : k < roundLsb n k := by
  have hbits : 129 < n + 1 := (Nat.pow_lt_pow_iff_right (by decide : 1 < 2)).1 (hm.trans_lt hn)
  obtain ⟨hlsb, hle⟩ | hlsb := roundLsb_cases n k <;> omega

theorem roundSignificand_of_le {m n : ℕ} {sh : ℤ} (h : sh ≤ 0) (st : Bool) :
    roundSignificand m n sh st = m <<< (-sh).toNat := if_pos h

theorem roundSignificand_of_ge {m n : ℕ} {sh : ℤ} (h : n + 2 ≤ sh) (st : Bool) : roundSignificand m n sh st = 0 := by
  rw [roundSignificand, if_neg (by omega), if_pos h]

/-- The significand kept is the nearest to the magnitude in units of its lowest bit, and the even one at a tie. -/
theorem StandsFor.roundSignificand_nearest {m n : ℕ} {k : ℤ} {st : Bool} {v : ℝ} (h : StandsFor m k st v)
    (hlow : 2 ^ n ≤ m) (hhigh : m < 2 ^ (n + 1)) :
    |v - roundSignificand m n (roundLsb n k - k) st * 2 ^ roundLsb n k| ≤ 2 ^ roundLsb n k / 2 ∧
      (|v - roundSignificand m n (roundLsb n k - k) st * 2 ^ roundLsb n k| = 2 ^ roundLsb n k / 2 →
        Even (roundSignificand m n (roundLsb n k - k) st)) := by
  have hsticky : st = true → k < roundLsb n k := fun hst => lt_roundLsb_of_le (h.precondition hst) hhigh k
  generalize roundLsb n k = l at hsticky
  have hl : (0 : ℝ) < 2 ^ l := by positivity
  by_cases hle : l - k ≤ 0
  · have hst : st = false := Bool.eq_false_iff.2 fun hst => absurd (hsticky hst) (by omega)
    have hexact : (m : ℝ) * 2 ^ k = (m <<< (-(l - k)).toNat : ℕ) * 2 ^ l := by
      obtain ⟨d, rfl⟩ : ∃ d : ℕ, k = l + d := ⟨(k - l).toNat, by omega⟩
      have hd : (-(l - (l + d))).toNat = d := by omega
      rw [hd, zpow_add₀ two_ne_zero, zpow_natCast, Nat.shiftLeft_eq]
      push_cast
      ring
    rw [roundSignificand_of_le hle, h.exact_iff.2 hst, hexact, sub_self, abs_zero]
    exact ⟨by positivity, fun htie => absurd htie (by positivity)⟩
  · by_cases hge : n + 2 ≤ l - k
    · have hv : v < 2 ^ l / 2 :=
        calc v < 2 ^ (n + 1 + k) := (h.bounds hlow hhigh).2
          _ ≤ 2 ^ (l - 1) := zpow_le_zpow_right₀ one_le_two (by omega)
          _ = 2 ^ l / 2 := zpow_sub_one₀ two_ne_zero l
      rw [roundSignificand_of_ge hge, Nat.cast_zero, zero_mul, sub_zero, abs_of_nonneg h.nonneg]
      exact ⟨hv.le, fun htie => absurd htie hv.ne⟩
    · obtain ⟨j, rfl⟩ : ∃ j : ℕ, l = k + (j + 1 : ℕ) := ⟨(l - k - 1).toNat, by omega⟩
      have hk : (0 : ℝ) < 2 ^ k := by positivity
      have hscale : (2 : ℝ) ^ (k + (j + 1 : ℕ)) = 2 ^ k * (2 * 2 ^ j) := by
        rw [zpow_add₀ two_ne_zero, zpow_natCast, pow_succ']
      obtain ⟨herror, htie⟩ := roundSignificand_nearest_of_shift (n := n) (j := j) (st := st) (w := v / 2 ^ k)
        (by omega) ((le_div_iff₀ hk).2 h.lower) ((div_lt_iff₀ hk).2 h.upper) (by rw [div_eq_iff hk.ne', h.exact_iff])
      rw [add_sub_cancel_left, hscale]
      generalize roundSignificand m n (j + 1 : ℕ) st = q at herror htie
      have hdiff : v - q * (2 ^ k * (2 * 2 ^ j)) = 2 ^ k * (v / 2 ^ k - q * (2 * 2 ^ j)) := by
        field_simp
      have hhalf : (2 : ℝ) ^ k * (2 * 2 ^ j) / 2 = 2 ^ k * 2 ^ j := by ring
      rw [hdiff, hhalf, abs_mul, abs_of_pos hk]
      exact ⟨by gcongr, fun heq => htie (mul_left_cancel₀ hk.ne' heq)⟩

/-- What RoundPack answers: the quad of a significand and a weight exponent that the magnitude rounds to (R112). -/
theorem StandsFor.roundsTo {m : ℕ} {k : ℤ} {st : Bool} {v : ℝ} (h : StandsFor m k st v) :
    ∃ q l, RoundsTo v q l ∧ ∀ s, roundPack s m k st = .ok (packRounded s q l) := by
  by_cases hm : m = 0
  · have hst : st = false := Bool.eq_false_iff.2 fun hst => absurd (h.precondition hst) (by simp [hm])
    have hv : v = 0 := by simpa [hm] using h.exact_iff.2 hst
    have hl : (0 : ℝ) < 2 ^ Config.lsbMin := by positivity
    refine ⟨0, Config.lsbMin, ⟨le_rfl, by simp, .inl rfl, ?_, fun _ => Even.zero⟩, fun s => ?_⟩
    · simpa [hv] using (half_pos hl).le
    · rw [roundPack_ok h.precondition, hm]
      simp [roundPackValue, packRounded, packSignificand]
  · obtain ⟨hlow, hhigh⟩ := bitLength_bounds hm
    have hhigh' : m < 2 ^ (bitLength m - 1 + 1) := hhigh
    obtain ⟨herror, htie⟩ := h.roundSignificand_nearest hlow hhigh'
    refine ⟨_, _, ⟨lsbMin_le_roundLsb .., roundSignificand_le hhigh', ?_, herror, htie⟩, fun s => ?_⟩
    · obtain ⟨hlsb, -⟩ | hlsb := roundLsb_cases (bitLength m - 1) k
      · exact .inl hlsb
      · rw [hlsb, sub_add_cancel]
        exact .inr (h.bounds hlow hhigh').1
    · rw [roundPack_ok h.precondition, roundPackValue, if_neg hm]

end Sys2Proof.Machine
end

section
/-! SUPPORT. The points of the grid, and the quad that a rounded significand packs to: the converse of
`packRounded_of_unpack`, and the overflow (spec/40_limbs_and_rounding.md R112, R113). -/

namespace Sys2Proof.Machine

/-! The grid without its upper end -/

/-- `p` has a significand of at most 129 bits at a weight exponent that is not below a subnormal's: a point of the grid, if
the grid went on for ever upwards. `OV` is one (R113). -/
def OnGrid (p : ℝ) : Prop := ∃ (n : ℕ) (k : ℤ), n < 2 ^ 129 ∧ Config.lsbMin ≤ k ∧ p = n * 2 ^ k

theorem overflowPoint_eq :
    (overflowPoint : ℝ) = (2 ^ 128 : ℕ) * 2 ^ ((Config.emaxField : ℤ) - Config.bias - 127) := by
  rw [overflowPoint, Nat.cast_pow, Nat.cast_ofNat, ← zpow_natCast, ← zpow_add₀ two_ne_zero, Rat.cast_zpow]
  rfl

theorem onGrid_overflowPoint : OnGrid overflowPoint :=
  ⟨2 ^ 128, _, by decide, by decide, overflowPoint_eq⟩

theorem onGrid_of_unpack {x : Quad} {u : Unpacked} (h : unpack x = .ok u) : OnGrid (u.significand * 2 ^ u.exponent) := by
  obtain ⟨-, hsig, hexp, -, -⟩ := unpack_eq_ok h
  exact ⟨_, _, hsig, hexp, rfl⟩

/-! The grid at one weight exponent -/

section
variable {v p : ℝ} {q : ℕ} {l : ℤ}

theorem two_zpow_add_128 (l : ℤ) : (2 : ℝ) ^ (l + 128) = 2 ^ 128 * 2 ^ l := by
  rw [zpow_add₀ two_ne_zero, mul_comm]
  norm_cast

/-- A point of the grid is a multiple of the lowest bit's weight, or lies in a binade below the magnitude's. -/
theorem RoundsTo.multiple_or_below (h : RoundsTo v q l) (hp : OnGrid p) :
    (∃ j : ℕ, p = j * 2 ^ l) ∨ (p < 2 ^ 128 * 2 ^ l ∧ 2 ^ 128 * 2 ^ l ≤ v) := by
  obtain ⟨n, k, hn, hk, rfl⟩ := hp
  obtain hle | hlt := le_or_gt l k
  · obtain ⟨d, rfl⟩ : ∃ d : ℕ, k = l + d := ⟨(k - l).toNat, by omega⟩
    refine .inl ⟨n * 2 ^ d, ?_⟩
    rw [zpow_add₀ two_ne_zero, zpow_natCast]
    push_cast
    ring
  · rw [← two_zpow_add_128]
    refine .inr ⟨?_, h.lead.resolve_left (by omega)⟩
    have hn' : (n : ℝ) < 2 ^ 129 := by exact_mod_cast hn
    calc (n : ℝ) * 2 ^ k < 2 ^ 129 * 2 ^ k := by gcongr
      _ = 2 ^ (129 + k) := by rw [zpow_add₀ two_ne_zero]; norm_cast
      _ ≤ 2 ^ (l + 128) := zpow_le_zpow_right₀ one_le_two (by omega)

/-- No other multiple of the lowest bit's weight is nearer; where one is as near, the significand is even. -/
theorem RoundsTo.nearest_multiple (h : RoundsTo v q l) (j : ℕ) :
    |v - q * 2 ^ l| ≤ |v - j * 2 ^ l| ∧
      (|v - q * 2 ^ l| = |v - j * 2 ^ l| → (j : ℝ) * 2 ^ l ≠ q * 2 ^ l → Even q) := by
  obtain rfl | hne := eq_or_ne j q
  · exact ⟨le_rfl, fun _ hp => absurd rfl hp⟩
  · have hl : (0 : ℝ) < 2 ^ l := by positivity
    have hone : (1 : ℝ) ≤ |(j : ℝ) - q| := by
      have hint : (1 : ℤ) ≤ |(j : ℤ) - q| := Int.one_le_abs (sub_ne_zero.2 (by exact_mod_cast hne))
      exact_mod_cast hint
    have hapart : 2 ^ l ≤ |v - q * 2 ^ l| + |v - j * 2 ^ l| :=
      calc (2 : ℝ) ^ l ≤ |(j : ℝ) - q| * 2 ^ l := le_mul_of_one_le_left hl.le hone
        _ = |(v - q * 2 ^ l) - (v - j * 2 ^ l)| := by rw [← abs_of_pos hl, ← abs_mul, abs_of_pos hl]; ring_nf
        _ ≤ |v - q * 2 ^ l| + |v - j * 2 ^ l| := abs_sub _ _
    have herror := h.error
    exact ⟨by linarith, fun heq _ => h.tie (by linarith)⟩

/-- Of all the points of the grid none is nearer to the magnitude than what it rounds to; where one is as near, the
significand is even. -/
theorem RoundsTo.nearest (h : RoundsTo v q l) (hp : OnGrid p) :
    |v - q * 2 ^ l| ≤ |v - p| ∧ (|v - q * 2 ^ l| = |v - p| → p ≠ q * 2 ^ l → Even q) := by
  obtain ⟨j, rfl⟩ | ⟨hbelow, hv⟩ := h.multiple_or_below hp
  · exact h.nearest_multiple j
  · have hbetween := (h.nearest_multiple (2 ^ 128)).1
    rw [Nat.cast_pow, Nat.cast_ofNat, abs_of_nonneg (sub_nonneg.2 hv)] at hbetween
    have hstrict : |v - q * 2 ^ l| < |v - p| := by
      rw [abs_of_pos (by linarith : 0 < v - p)]
      linarith
    exact ⟨hstrict.le, fun heq => absurd heq hstrict.ne⟩

/-- Past a point of the grid only what lies beyond the middle rounds. -/
theorem RoundsTo.add_le_of_lt (h : RoundsTo v q l) (hp : OnGrid p) (hlt : p < q * 2 ^ l) : p + q * 2 ^ l ≤ 2 * v := by
  nlinarith [sq_le_sq.2 (h.nearest hp).1]

/-- What a point of the grid rounds to is the point. -/
theorem RoundsTo.eq_of_onGrid (h : RoundsTo v q l) (hv : OnGrid v) : q * 2 ^ l = v := by
  have hnear := (h.nearest hv).1
  rw [sub_self, abs_zero] at hnear
  linarith [abs_nonpos_iff.1 hnear]

/-- The significand has its leading bit, but at the least weight exponent. -/
theorem RoundsTo.lead_significand (h : RoundsTo v q l) : l = Config.lsbMin ∨ 2 ^ 128 ≤ q := by
  refine h.lead.imp_right fun hv => ?_
  by_contra hq
  have hl : (0 : ℝ) < 2 ^ l := by positivity
  have hq' : (q : ℝ) + 1 ≤ 2 ^ 128 := by exact_mod_cast not_le.1 hq
  rw [two_zpow_add_128] at hv
  have herror := (le_abs_self _).trans h.error
  nlinarith

end

/-! The magnitude of a quad -/

theorem abs_signFactor_mul (s : Bool) {a : ℚ} (h : 0 ≤ a) : |signFactor s * a| = a := by
  cases s <;> simp [signFactor, abs_of_nonneg h]

theorem gridPoint_of_unpack {x : Quad} {u : Unpacked} (h : unpack x = .ok u) :
    gridPoint x = some ((u.significand : ℚ) * 2 ^ u.exponent) := by
  have hval : (valueOf x).map abs = some ((u.significand : ℚ) * 2 ^ u.exponent) := by
    rw [valueOf_of_unpack h, Option.map_some, abs_signFactor_mul _ (by positivity)]
  rw [← hval]
  unfold gridPoint
  cases hc : classOf x with
  | infinity => simp [unpack, hc] at h
  | nan => simp [unpack, hc] at h
  | zero => rfl
  | subnormal => rfl
  | normal => rfl

theorem gridPoint_of_infinity {x : Quad} (h : classOf x = .infinity) : gridPoint x = some overflowPoint := by
  simp [gridPoint, h]

/-- The weight exponent of a finite quad stops below the Infinities' (R22). -/
theorem exponent_le_of_unpack {x : Quad} {u : Unpacked} (h : unpack x = .ok u) :
    u.exponent ≤ (Config.emaxField : ℤ) - Config.bias - 128 := by
  have hinf := exponentOf_lt_expInf_of_unpack h
  have hmax : Config.emaxField = Config.expInf - 1 := rfl
  obtain hlead | hmin := leading_bit_or_lsbMin_of_unpack h
  · obtain ⟨-, -, hexp⟩ := fields_of_unpack h
    rw [if_pos hlead] at hexp
    omega
  · rw [hmin]
    decide

/-- Every finite magnitude is below `OV`. -/
theorem magnitude_lt_overflowPoint {x : Quad} {u : Unpacked} (h : unpack x = .ok u) :
    (u.significand : ℚ) * 2 ^ u.exponent < overflowPoint := by
  obtain ⟨-, hsig, -, -, -⟩ := unpack_eq_ok h
  have hexp := exponent_le_of_unpack h
  refine (mul_zpow_lt_zpow hsig u.exponent).trans_le ?_
  rw [overflowPoint]
  exact zpow_le_zpow_right₀ one_le_two (by push_cast; omega)

/-- The points that quads stand for are points of the grid and end with `OV`. -/
theorem onGrid_of_gridPoint {x : Quad} {p : ℚ} (h : gridPoint x = some p) : OnGrid p ∧ p ≤ overflowPoint := by
  by_cases hn : classOf x = .nan
  · simp [gridPoint, hn] at h
  · obtain hi | ⟨u, hu⟩ := infinity_or_unpack hn
    · rw [gridPoint_of_infinity hi] at h
      obtain rfl := Option.some.inj h
      exact ⟨onGrid_overflowPoint, le_rfl⟩
    · rw [gridPoint_of_unpack hu] at h
      obtain rfl := Option.some.inj h
      exact ⟨by push_cast; exact onGrid_of_unpack hu, (magnitude_lt_overflowPoint hu).le⟩

/-! The quad of a significand and a weight exponent -/

/-- What a significand of at most 129 bits packs to, below the overflow. -/
theorem unpack_packSignificand {s : Bool} {q : ℕ} {l : ℤ} (hq : q < 2 ^ 129) (hl : Config.lsbMin ≤ l)
    (hlead : l = Config.lsbMin ∨ 2 ^ 128 ≤ q) (htop : l + Config.bias + 128 < Config.expInf) :
    unpack (packSignificand s q l) = .ok ⟨s, q, l⟩ := by
  have hmin : Config.lsbMin = 1 - Config.bias - 128 := rfl
  have hbound : Config.expInf < 2 ^ 32 := by decide
  unfold packSignificand
  dsimp only
  split_ifs with hzero hsub hover
  · have hlsb : l = Config.lsbMin := hlead.resolve_right (by omega)
    rw [unpack_of_zero (classOf_zeroQuad s), signOf_zeroQuad, hzero, hlsb]
  · have hlsb : l = Config.lsbMin := hlead.resolve_right (by omega)
    have hf : fractionOf (packQuad s 0 (BitVec.ofNat 128 q)) = q := by
      rw [fractionOf_packQuad, BitVec.toNat_ofNat, Nat.mod_eq_of_lt hsub]
    rw [unpack_of_subnormal (classOf_eq_subnormal_iff.2 ⟨by simp, by rwa [hf]⟩), signOf_packQuad, hf, hlsb]
  · exact absurd htop (not_lt.2 hover)
  · have he : (exponentOf (packQuad s (BitVec.ofInt 32 (l + Config.bias + 128)) (BitVec.ofNat 128 (q - 2 ^ 128))) : ℤ) =
        l + Config.bias + 128 := by
      rw [exponentOf_packQuad, BitVec.toNat_ofInt]
      omega
    have hf : fractionOf (packQuad s (BitVec.ofInt 32 (l + Config.bias + 128)) (BitVec.ofNat 128 (q - 2 ^ 128))) =
        q - 2 ^ 128 := by
      rw [fractionOf_packQuad, BitVec.toNat_ofNat]
      omega
    rw [unpack_of_normal (classOf_eq_normal_iff.2 ⟨by omega, by omega⟩), signOf_packQuad, hf, he]
    have hsig : 2 ^ 128 + (q - 2 ^ 128) = q := by omega
    have hexp : l + Config.bias + 128 - Config.bias - 128 = l := by omega
    rw [hsig, hexp]

/-- What a rounded significand packs to, below the overflow, has its magnitude. -/
theorem unpack_packRounded {q : ℕ} {l : ℤ} (s : Bool) (hq : q ≤ 2 ^ 129) (hl : Config.lsbMin ≤ l)
    (hlead : l = Config.lsbMin ∨ 2 ^ 128 ≤ q) (hlt : (q : ℚ) * 2 ^ l < overflowPoint) :
    ∃ u, unpack (packRounded s q l) = .ok u ∧ u.sign = s ∧ (u.significand : ℚ) * 2 ^ u.exponent = q * 2 ^ l := by
  have hmax : Config.emaxField = Config.expInf - 1 := rfl
  have hpos : 0 < Config.expInf := by decide
  unfold packRounded
  split_ifs with hcarry
  · have hsame : ((2 ^ 128 : ℕ) : ℚ) * 2 ^ (l + 1) = q * 2 ^ l := by
      rw [hcarry, zpow_add_one₀ two_ne_zero]
      push_cast
      ring
    have htop : (128 : ℕ) + (l + 1) < (Config.emaxField : ℤ) - Config.bias + 1 :=
      (zpow_lt_zpow_iff_right₀ one_lt_two).1 <|
        ((zpow_le_mul_zpow le_rfl (l + 1)).trans_eq hsame).trans_lt hlt
    exact ⟨_, unpack_packSignificand (by decide) (by omega) (.inr le_rfl) (by omega), rfl, hsame⟩
  · refine ⟨_, unpack_packSignificand (by omega) hl hlead ?_, rfl, rfl⟩
    obtain rfl | hlead := hlead
    · decide
    · have htop : (128 : ℕ) + l < (Config.emaxField : ℤ) - Config.bias + 1 :=
        (zpow_lt_zpow_iff_right₀ one_lt_two).1 ((zpow_le_mul_zpow hlead l).trans_lt hlt)
      omega

theorem packSignificand_of_overflow {s : Bool} {q : ℕ} {l : ℤ} (hq : 2 ^ 128 ≤ q)
    (hover : (Config.expInf : ℤ) ≤ l + Config.bias + 128) : packSignificand s q l = infQuad s := by
  rw [packSignificand, if_neg (by omega), if_neg (by omega)]
  exact if_pos hover

/-- From `OV` on a rounded significand packs to an Infinity (R112, R116). -/
theorem packRounded_of_overflow {q : ℕ} {l : ℤ} (s : Bool) (hq : q ≤ 2 ^ 129)
    (hlead : l = Config.lsbMin ∨ 2 ^ 128 ≤ q) (hle : overflowPoint ≤ (q : ℚ) * 2 ^ l) :
    packRounded s q l = infQuad s := by
  have hmax : Config.emaxField = Config.expInf - 1 := rfl
  have hpos : 0 < Config.expInf := by decide
  have htop : ∀ b : ℕ, q < 2 ^ b → (Config.emaxField : ℤ) - Config.bias + 1 < b + l := fun b hb =>
    (zpow_lt_zpow_iff_right₀ one_lt_two).1 (hle.trans_lt (mul_zpow_lt_zpow hb l))
  unfold packRounded
  split_ifs with hcarry
  · have htop := htop 130 (by omega)
    exact packSignificand_of_overflow le_rfl (by omega)
  · have htop := htop 129 (by omega)
    have hlead : 2 ^ 128 ≤ q := hlead.resolve_left fun hmin => by
      rw [hmin] at htop
      exact absurd htop (by decide)
    exact packSignificand_of_overflow hlead (by omega)

theorem getLsbD_zero_ofNat_of_even {n : ℕ} (h : n % 2 = 0) : (BitVec.ofNat 128 n).getLsbD 0 = false := by
  rw [BitVec.getLsbD_ofNat, Nat.testBit_zero, h]
  rfl

theorem getLsbD_zero_packSignificand {s : Bool} {q : ℕ} {l : ℤ} (hq : Even q) :
    (packSignificand s q l).getLsbD 0 = false := by
  have hq2 : q % 2 = 0 := Nat.even_iff.1 hq
  unfold packSignificand zeroQuad infQuad
  dsimp only
  split_ifs with hzero hsub hover <;> rw [getLsbD_zero_packQuad]
  · rfl
  · exact getLsbD_zero_ofNat_of_even hq2
  · rfl
  · exact getLsbD_zero_ofNat_of_even (by omega)

/-- The sign packed is the one given (spec/40_limbs_and_rounding.md R119). -/
@[simp] theorem signOf_packRounded (s : Bool) (q : ℕ) (l : ℤ) : signOf (packRounded s q l) = s := by
  unfold packRounded packSignificand
  dsimp only
  split_ifs <;> simp

/-- An even significand gives an even fraction; the carry out of 129 bits and the overflow give 0. -/
theorem getLsbD_zero_packRounded {s : Bool} {q : ℕ} {l : ℤ} (hq : Even q) :
    (packRounded s q l).getLsbD 0 = false := by
  unfold packRounded
  split_ifs
  · exact getLsbD_zero_packSignificand (by decide)
  · exact getLsbD_zero_packSignificand hq

end Sys2Proof.Machine
end

section
/-! SUPPORT. What RoundPack returns: the nearest point of the grid, exact points, underflow, overflow and the error bound
(spec/40_limbs_and_rounding.md R113 to R116). -/

namespace Sys2Proof.Machine

theorem cast_mul_zpow (n : ℕ) (k : ℤ) : (((n : ℚ) * 2 ^ k : ℚ) : ℝ) = n * 2 ^ k := by
  rw [Rat.cast_mul, Rat.cast_zpow, Rat.cast_natCast, Rat.cast_ofNat]

/-- `MAX_FINITE` plus half its ulp: from here on a magnitude rounds to `OV` (R116). -/
noncomputable def overflowThreshold : ℝ := (2 ^ 129 - 2 ^ (-1 : ℤ)) * 2 ^ ((Config.emaxField : ℤ) - Config.bias - 128)

/-- The threshold is the middle between the last finite point and `OV`. -/
theorem overflowThreshold_middle :
    ((2 ^ 129 - 1 : ℕ) : ℝ) * 2 ^ ((Config.emaxField : ℤ) - Config.bias - 128) + overflowPoint =
      2 * overflowThreshold := by
  have hstep : (Config.emaxField : ℤ) - Config.bias - 127 = (Config.emaxField : ℤ) - Config.bias - 128 + 1 := by omega
  rw [overflowPoint_eq, overflowThreshold, hstep, zpow_add_one₀ two_ne_zero]
  generalize (2 : ℝ) ^ ((Config.emaxField : ℤ) - Config.bias - 128) = ulp
  norm_num
  ring

theorem overflowThreshold_lt_overflowPoint : overflowThreshold < overflowPoint := by
  have hulp : (0 : ℝ) < 2 ^ ((Config.emaxField : ℤ) - Config.bias - 128) := by positivity
  have hstep : (Config.emaxField : ℤ) - Config.bias - 127 = (Config.emaxField : ℤ) - Config.bias - 128 + 1 := by omega
  rw [overflowPoint_eq, overflowThreshold, hstep, zpow_add_one₀ two_ne_zero]
  generalize (2 : ℝ) ^ ((Config.emaxField : ℤ) - Config.bias - 128) = ulp at hulp
  norm_num
  linarith

section
variable {v : ℝ} {q : ℕ} {l : ℤ}

/-- Below `OV` the lowest bit kept is at most the last of `MAX_FINITE`. -/
theorem RoundsTo.le_of_lt_overflowPoint (h : RoundsTo v q l) (hlt : (q : ℝ) * 2 ^ l < overflowPoint) :
    l ≤ (Config.emaxField : ℤ) - Config.bias - 128 := by
  obtain rfl | hlead := h.lead_significand
  · decide
  · rw [← cast_mul_zpow, Rat.cast_lt] at hlt
    have htop : (128 : ℕ) + l < (Config.emaxField : ℤ) - Config.bias + 1 :=
      (zpow_lt_zpow_iff_right₀ one_lt_two).1 ((zpow_le_mul_zpow hlead l).trans_lt hlt)
    omega

/-- Below `OV` the magnitude is below the threshold: the significand of `MAX_FINITE` is odd, so the tie goes up (R116). -/
theorem RoundsTo.lt_threshold (h : RoundsTo v q l) (hlt : (q : ℝ) * 2 ^ l < overflowPoint) : v < overflowThreshold := by
  have hl : (0 : ℝ) < 2 ^ l := by positivity
  obtain ⟨d, hd⟩ := Int.le.dest (h.le_of_lt_overflowPoint hlt)
  have hulp : (2 : ℝ) ^ ((Config.emaxField : ℤ) - Config.bias - 128) = 2 ^ d * 2 ^ l := by
    rw [← hd, zpow_add₀ two_ne_zero, zpow_natCast, mul_comm]
  have hthreshold : overflowThreshold = ((2 ^ 130 - 1 : ℕ) * 2 ^ d) * (2 ^ l / 2) := by
    rw [overflowThreshold, hulp]
    norm_num
    ring
  have hov : (overflowPoint : ℝ) = 2 ^ 129 * 2 ^ d * 2 ^ l := by
    have hmiddle := overflowThreshold_middle
    rw [hthreshold, hulp] at hmiddle
    norm_num at hmiddle ⊢
    linarith
  have hq : q < 2 ^ 129 * 2 ^ d := by
    rw [hov] at hlt
    exact_mod_cast lt_of_mul_lt_mul_right hlt hl.le
  have herror : v ≤ (2 * q + 1 : ℕ) * (2 ^ l / 2) := by
    push_cast
    linarith [(le_abs_self _).trans h.error]
  by_contra hge
  rw [not_lt, hthreshold] at hge
  have hodd : (2 ^ 130 - 1) * 2 ^ d ≤ 2 * q + 1 := by
    exact_mod_cast le_of_mul_le_mul_right (hge.trans herror) (half_pos hl)
  have hle := h.le
  obtain rfl | hpos := Nat.eq_zero_or_pos d
  · have hmax : q = 2 ^ 129 - 1 := by omega
    have htie : v - q * 2 ^ l = 2 ^ l / 2 := by
      rw [hmax] at herror ⊢
      norm_num at hge herror ⊢
      linarith
    have heven := h.tie (by rw [htie, abs_of_pos (half_pos hl)])
    rw [hmax] at heven
    exact absurd heven (by decide)
  · have htwo : 2 ^ 1 ≤ 2 ^ d := Nat.pow_le_pow_right (by decide) hpos
    omega

/-- A magnitude rounds to `OV` or beyond exactly from the threshold on (R116). -/
theorem RoundsTo.overflowPoint_le_iff (h : RoundsTo v q l) :
    overflowPoint ≤ (q : ℚ) * 2 ^ l ↔ overflowThreshold ≤ v := by
  constructor
  · intro hle
    rw [← Rat.cast_le (K := ℝ), cast_mul_zpow] at hle
    have hmiddle := overflowThreshold_middle
    have hbelow := overflowThreshold_lt_overflowPoint
    have hgrid : OnGrid ((2 ^ 129 - 1 : ℕ) * 2 ^ ((Config.emaxField : ℤ) - Config.bias - 128)) :=
      ⟨_, _, by decide, by decide, rfl⟩
    linarith [h.add_le_of_lt hgrid (by linarith)]
  · intro hge
    by_contra hlt
    rw [← Rat.cast_le (K := ℝ), cast_mul_zpow, not_le] at hlt
    exact absurd hge (not_le.2 (h.lt_threshold hlt))

/-! What the significand packs to -/

theorem RoundsTo.packed_of_lt (h : RoundsTo v q l) (s : Bool) (hlt : v < overflowThreshold) :
    ∃ u, unpack (packRounded s q l) = .ok u ∧ u.sign = s ∧ (u.significand : ℚ) * 2 ^ u.exponent = q * 2 ^ l :=
  unpack_packRounded s h.le h.lsbMin_le h.lead_significand (not_le.1 (mt h.overflowPoint_le_iff.1 (not_le.2 hlt)))

theorem RoundsTo.valueOf_of_lt (h : RoundsTo v q l) (s : Bool) (hlt : v < overflowThreshold) :
    valueOf (packRounded s q l) = some (signFactor s * (q * 2 ^ l)) := by
  obtain ⟨u, hu, hsign, hmag⟩ := h.packed_of_lt s hlt
  rw [valueOf_of_unpack hu, hsign, hmag]

theorem RoundsTo.packed_of_le (h : RoundsTo v q l) (s : Bool) (hle : overflowThreshold ≤ v) :
    packRounded s q l = infQuad s :=
  packRounded_of_overflow s h.le h.lead_significand (h.overflowPoint_le_iff.2 hle)

/-- The quad packed stands for the nearest point: for what `v` rounds to, and beyond `OV` for `OV`, which then lies between
every other point and `v` (R113). -/
theorem RoundsTo.nearestEven (h : RoundsTo v q l) (s : Bool) : NearestEven v (packRounded s q l) := by
  obtain hlt | hle := lt_or_ge v overflowThreshold
  · obtain ⟨u, hu, -, hmag⟩ := h.packed_of_lt s hlt
    refine ⟨q * 2 ^ l, by rw [gridPoint_of_unpack hu, hmag], fun x p hp => ?_⟩
    obtain ⟨hnear, heven⟩ := h.nearest (onGrid_of_gridPoint hp).1
    rw [← cast_mul_zpow] at hnear heven
    exact ⟨hnear, fun heq hne => getLsbD_zero_packRounded (heven heq (by exact_mod_cast hne))⟩
  · have hinf := h.packed_of_le s hle
    refine ⟨overflowPoint, by rw [hinf, gridPoint_of_infinity (classOf_infQuad s)], fun x p hp => ?_⟩
    obtain ⟨hgrid, hpov⟩ := onGrid_of_gridPoint hp
    have hbit : (packRounded s q l).getLsbD 0 = false := by
      rw [hinf, infQuad, getLsbD_zero_packQuad]
      rfl
    refine ⟨?_, fun _ _ => hbit⟩
    have hov : (overflowPoint : ℝ) ≤ q * 2 ^ l := by
      rw [← cast_mul_zpow, Rat.cast_le]
      exact h.overflowPoint_le_iff.2 hle
    obtain heq | hbeyond := hov.eq_or_lt
    · rw [heq]
      exact (h.nearest hgrid).1
    · have hpv : (p : ℝ) ≤ overflowPoint := by exact_mod_cast hpov
      have hvov := h.add_le_of_lt onGrid_overflowPoint hbeyond
      rw [abs_of_nonneg (by linarith), abs_of_nonneg (by linarith)]
      linarith

/-! The subnormal range -/

theorem minNormal_eq : (2 : ℝ) ^ (1 - Config.bias) = 2 ^ 128 * 2 ^ Config.lsbMin := by
  rw [← two_zpow_add_128]
  rfl

/-- MIN_NORMAL is 2^128 times MIN_SUBNORMAL (spec/00_scope.md R8). -/
theorem minNormal_eq_mul : minNormal = (2 ^ 128 : ℕ) * 2 ^ Config.lsbMin := by
  rw [minNormal, Nat.cast_pow, Nat.cast_ofNat, ← zpow_natCast, ← zpow_add₀ two_ne_zero]
  rfl

theorem valueOf_packRounded_two_pow (s : Bool) :
    valueOf (packRounded s (2 ^ 128) Config.lsbMin) = some (signFactor s * ((2 ^ 128 : ℕ) * 2 ^ Config.lsbMin)) := by
  rw [packRounded, if_neg (by decide)]
  exact valueOf_of_unpack (unpack_packSignificand (by decide) le_rfl (.inl rfl) (by decide))

/-- Below MIN_NORMAL the lowest bit kept is that of a subnormal. -/
theorem RoundsTo.eq_lsbMin_of_lt (h : RoundsTo v q l) (hv : v < 2 ^ (1 - Config.bias)) : l = Config.lsbMin := by
  refine h.lead.resolve_right fun hlead => ?_
  have hmin : Config.lsbMin = 1 - Config.bias - 128 := rfl
  have hlt : l + 128 < 1 - Config.bias := (zpow_lt_zpow_iff_right₀ one_lt_two).1 (hlead.trans_lt hv)
  have hle := h.lsbMin_le
  omega

theorem half_lsbMin_lt_minNormal : (2 : ℝ) ^ Config.lsbMin / 2 < 2 ^ (1 - Config.bias) := by
  have hl : (0 : ℝ) < 2 ^ Config.lsbMin := by positivity
  rw [minNormal_eq]
  nlinarith

/-- The tie at half of MIN_SUBNORMAL goes to the even significand 0 (R115). -/
theorem RoundsTo.eq_zero_of_le (h : RoundsTo v q l) (hv : v ≤ 2 ^ Config.lsbMin / 2) :
    q = 0 ∧ l = Config.lsbMin := by
  obtain rfl := h.eq_lsbMin_of_lt (hv.trans_lt half_lsbMin_lt_minNormal)
  refine ⟨?_, rfl⟩
  have hl : (0 : ℝ) < 2 ^ Config.lsbMin := by positivity
  have hq : (q : ℝ) ≤ 1 := by
    have herror := (neg_le_abs _).trans h.error
    nlinarith
  have hq : q ≤ 1 := by exact_mod_cast hq
  obtain rfl | rfl := Nat.le_one_iff_eq_zero_or_eq_one.1 hq
  · rfl
  · have htie : |v - (1 : ℕ) * 2 ^ Config.lsbMin| = 2 ^ Config.lsbMin / 2 := by
      refine le_antisymm h.error ?_
      rw [Nat.cast_one, one_mul, abs_sub_comm]
      exact le_trans (by linarith) (le_abs_self _)
    exact absurd (h.tie htie) (by decide)

theorem RoundsTo.pos_of_lt (h : RoundsTo v q Config.lsbMin) (hv : 2 ^ Config.lsbMin / 2 < v) : q ≠ 0 := by
  rintro rfl
  have herror := (le_abs_self _).trans h.error
  simp only [Nat.cast_zero, zero_mul, sub_zero] at herror
  linarith

/-- A magnitude below MIN_NORMAL rounds to MIN_NORMAL at most. -/
theorem RoundsTo.le_of_lt_minNormal (h : RoundsTo v q Config.lsbMin) (hv : v < 2 ^ (1 - Config.bias)) : q ≤ 2 ^ 128 := by
  by_contra hq
  have hl : (0 : ℝ) < 2 ^ Config.lsbMin := by positivity
  have hgrid : OnGrid (2 ^ (1 - Config.bias)) := ⟨2 ^ 128, Config.lsbMin, by decide, le_rfl, by rw [minNormal_eq]; norm_cast⟩
  have hq : (2 : ℝ) ^ 128 < q := by exact_mod_cast not_le.1 hq
  have hbeyond : (2 : ℝ) ^ (1 - Config.bias) < q * 2 ^ Config.lsbMin := by
    rw [minNormal_eq]
    gcongr
  linarith [h.add_le_of_lt hgrid hbeyond]

theorem classOf_packRounded_of_lt {s : Bool} (hpos : q ≠ 0) (hlt : q < 2 ^ 128) :
    classOf (packRounded s q l) = .subnormal := by
  have hf : (BitVec.ofNat 128 q).toNat = q := by rw [BitVec.toNat_ofNat, Nat.mod_eq_of_lt hlt]
  rw [packRounded, if_neg (by omega), packSignificand, if_neg hpos, if_pos hlt, classOf_eq_subnormal_iff,
    fractionOf_packQuad, hf]
  exact ⟨by simp, hpos⟩

end

/-! The statements -/

/-- Settles O10: RoundPack packs the significand its magnitude rounds to, and no point of the grid is nearer. -/
theorem roundPackIsNearestEven : Obligations.RoundPackIsNearestEven := by
  intro s m k st v hpre hlow hhigh hexact
  obtain ⟨q, l, h, hround⟩ := StandsFor.roundsTo ⟨hpre, hlow, hhigh, hexact⟩
  exact ⟨_, hround s, signOf_packRounded .., h.nearestEven s⟩

/-- The exact magnitude `m * 2^k` without a sticky is a call that meets R111. -/
theorem standsFor_exact (m : ℕ) (k : ℤ) : StandsFor m k false (m * 2 ^ k) where
  precondition := by simp
  lower := le_rfl
  upper := by
    have hk : (0 : ℝ) < 2 ^ k := by positivity
    linarith
  exact_iff := by simp

/-- A finite magnitude is below the threshold: it rounds to itself, which is below `OV`. -/
theorem RoundsTo.lt_threshold_of_unpack {x : Quad} {u : Unpacked} {v : ℝ} {q : ℕ} {l : ℤ} (h : RoundsTo v q l)
    (hu : unpack x = .ok u) (hv : v = u.significand * 2 ^ u.exponent) : v < overflowThreshold := by
  refine h.lt_threshold ?_
  rw [h.eq_of_onGrid (hv ▸ onGrid_of_unpack hu), hv, ← cast_mul_zpow, Rat.cast_lt]
  exact magnitude_lt_overflowPoint hu

/-- Settles O11: a point of the grid rounds to itself. -/
theorem roundPackKeepsGridPoints : Obligations.RoundPackKeepsGridPoints := by
  intro s m k x y hx hy
  obtain ⟨u, hu⟩ := unpack_of_valueOf hx
  obtain ⟨q, l, h, hround⟩ := (standsFor_exact m k).roundsTo
  rw [valueOf_of_unpack hu] at hx
  obtain rfl := Option.some.inj hx
  rw [abs_signFactor_mul _ (by positivity)] at hy
  have hmag : (m : ℝ) * 2 ^ k = u.significand * 2 ^ u.exponent := by
    rw [← cast_mul_zpow, ← cast_mul_zpow, hy]
  have hsame : (q : ℚ) * 2 ^ l = m * 2 ^ k := by
    rw [← Rat.cast_inj (α := ℝ), cast_mul_zpow, cast_mul_zpow, h.eq_of_onGrid (hmag ▸ onGrid_of_unpack hu)]
  refine ⟨_, hround s, signOf_packRounded .., ?_⟩
  rw [h.valueOf_of_lt s (h.lt_threshold_of_unpack hu hmag), hsame]

/-- Settles O12: below MIN_NORMAL the significand counts in MIN_SUBNORMALs, is 0 up to the half of one and 2^128 at most. -/
theorem roundPackUnderflow : Obligations.RoundPackUnderflow := by
  intro s m k st v hpre hlow hhigh hexact
  obtain ⟨q, l, h, hround⟩ := StandsFor.roundsTo ⟨hpre, hlow, hhigh, hexact⟩
  rw [zpow_sub_one₀ two_ne_zero, ← div_eq_mul_inv]
  refine ⟨fun hv => ?_, fun hgt hlt => ⟨_, hround s, signOf_packRounded .., ?_⟩⟩
  · obtain ⟨rfl, rfl⟩ := h.eq_zero_of_le hv
    rw [hround s]
    rfl
  · obtain rfl := h.eq_lsbMin_of_lt hlt
    obtain hsub | rfl := (h.le_of_lt_minNormal hlt).lt_or_eq
    · exact .inl (classOf_packRounded_of_lt (h.pos_of_lt hgt) hsub)
    · refine .inr ?_
      rw [minNormal_eq_mul]
      exact valueOf_packRounded_two_pow s

/-- Settles O13: the magnitudes that round to `OV` or beyond are those from the threshold on. -/
theorem roundPackOverflow : Obligations.RoundPackOverflow := by
  intro s m k st v hpre hlow hhigh hexact
  obtain ⟨q, l, h, hround⟩ := StandsFor.roundsTo ⟨hpre, hlow, hhigh, hexact⟩
  refine ⟨fun hge => ?_, fun hlt => ⟨_, _, hround s, h.valueOf_of_lt s hlt⟩⟩
  rw [hround s, h.packed_of_le s hge]

/-- The lowest bit kept is at least 129 places below every binade from MIN_NORMAL on that reaches the magnitude. -/
theorem RoundsTo.half_ulp_le {v : ℝ} {q : ℕ} {l e : ℤ} (h : RoundsTo v q l) (he : 1 - Config.bias ≤ e)
    (hv : v < 2 ^ (e + 1)) : (2 : ℝ) ^ l / 2 ≤ 2 ^ (e - 129) := by
  have hmin : Config.lsbMin = 1 - Config.bias - 128 := rfl
  have hle : l ≤ e - 128 := by
    obtain rfl | hlead := h.lead
    · omega
    · have hlt : l + 128 < e + 1 := (zpow_lt_zpow_iff_right₀ one_lt_two).1 (hlead.trans_lt hv)
      omega
  calc (2 : ℝ) ^ l / 2 = 2 ^ (l - 1) := (zpow_sub_one₀ two_ne_zero l).symm
    _ ≤ 2 ^ (e - 129) := zpow_le_zpow_right₀ one_le_two (by omega)

theorem RoundsTo.relative_error {v : ℝ} {q : ℕ} {l : ℤ} (h : RoundsTo v q l) (hv : 2 ^ (1 - Config.bias) ≤ v) :
    (2 : ℝ) ^ l / 2 ≤ 2 ^ (-129 : ℤ) * v := by
  have hlead : 2 ^ 128 * 2 ^ l ≤ v := by
    obtain rfl | hlead := h.lead
    · rwa [← minNormal_eq]
    · rwa [← two_zpow_add_128]
  norm_num
  linarith

/-- Settles O14: half of the lowest bit kept is at most half of the ulp of the binade, and below MIN_NORMAL it is half of
MIN_SUBNORMAL. -/
theorem roundPackErrorIsAtMostHalfAnUlp : Obligations.RoundPackErrorIsAtMostHalfAnUlp := by
  intro s m k st v hpre hlow hhigh hexact hlt
  obtain ⟨q, l, h, hround⟩ := StandsFor.roundsTo ⟨hpre, hlow, hhigh, hexact⟩
  have herror : |((q * 2 ^ l : ℚ) : ℝ) - v| ≤ 2 ^ l / 2 := by
    rw [abs_sub_comm]
    rw [cast_mul_zpow]
    exact h.error
  refine ⟨_, _, hround s, h.valueOf_of_lt s hlt, fun e he _ hv => ?_, fun hv => ?_, fun hv => ?_⟩
  · exact herror.trans (h.half_ulp_le he hv)
  · exact herror.trans (h.relative_error hv)
  · obtain rfl := h.eq_lsbMin_of_lt hv
    rwa [zpow_sub_one₀ two_ne_zero, ← div_eq_mul_inv]

end Sys2Proof.Machine
end

section
/-! SUPPORT. Exact results: where a sum, a difference, a product or a quotient is a non-zero quad's value, the command gives
that quad (spec/40_limbs_and_rounding.md R114, spec/41_add_subtract.md R145, R150, spec/42_multiply.md R175,
spec/43_divide.md R193). -/

namespace Sys2Proof.Machine

/-! Signs and finite operands -/

theorem signFactor_xor (s t : Bool) : signFactor (s ^^ t) = signFactor s * signFactor t := by
  cases s <;> cases t <;> simp [signFactor]

theorem signFactor_not (s : Bool) : signFactor (!s) = -signFactor s := by
  cases s <;> simp [signFactor]

theorem signFactor_ne_zero (s : Bool) : signFactor s ≠ 0 := by
  cases s <;> simp [signFactor]

theorem signFactor_mul_self (s : Bool) : signFactor s * signFactor s = 1 := by
  cases s <;> simp [signFactor]

theorem valueOf_flipSign {x : Quad} {y : ℚ} (h : valueOf x = some y) : valueOf (flipSign x) = some (-y) := by
  cases hc : classOf x <;> simp only [valueOf, hc, classOf_flipSign, signOf_flipSign, exponentOf_flipSign,
    fractionOf_flipSign, signFactor_not, Option.some.injEq, reduceCtorEq] at h ⊢ <;> linear_combination -h

theorem classOf_ne_infinity_of_unpack {x : Quad} {u : Unpacked} (h : unpack x = .ok u) : classOf x ≠ .infinity :=
  fun hi => by simp [unpack, hi] at h

theorem classOf_ne_zero_of_unpack {x : Quad} {u : Unpacked} (h : unpack x = .ok u) (hz : u.significand ≠ 0) :
    classOf x ≠ .zero := by
  obtain ⟨-, -, -, hzero, -⟩ := unpack_eq_ok h
  exact mt hzero.2 hz

/-- A non-zero value is that of a quad with a non-zero significand. -/
theorem significand_ne_zero {u : Unpacked} {z : ℚ} (h : signFactor u.sign * (u.significand * 2 ^ u.exponent) = z)
    (hz : z ≠ 0) : u.significand ≠ 0 := by
  intro hsig
  exact hz (by rw [← h, hsig]; simp)

/-- A quad is fixed by a non-zero value. -/
theorem eq_of_valueOf_eq {x y : Quad} {z : ℚ} (hx : valueOf x = some z) (hy : valueOf y = some z) (hz : z ≠ 0) :
    x = y := by
  obtain ⟨u, hu⟩ := unpack_of_valueOf hx
  obtain ⟨v, hv⟩ := unpack_of_valueOf hy
  refine (eq_or_zeros_of_valueOf_eq hu hv (hx.trans hy.symm)).resolve_right ?_
  rintro ⟨hzero, -⟩
  simp only [valueOf, hzero, Option.some.injEq] at hx
  exact hz hx.symm

section
variable {c : Quad} {z : ℚ}

/-- RoundPack of a sign and an exact magnitude that make a non-zero quad's value gives that quad. -/
theorem roundPack_of_valueOf {s : Bool} {m : ℕ} {k : ℤ} (hc : valueOf c = some z) (hz : z ≠ 0)
    (h : z = signFactor s * (m * 2 ^ k)) : roundPack s m k false = .ok c := by
  obtain ⟨w, hw⟩ := unpack_of_valueOf hc
  rw [valueOf_of_unpack hw, h] at hc
  obtain ⟨rfl, hmag⟩ | ⟨-, hzero⟩ := signFactor_mul_eq (by positivity) (by positivity) (Option.some.inj hc)
  · rw [roundPack_ok (by simp), roundPackValue_of_exact hw hmag.symm]
  · exact absurd h (by rw [hzero, mul_zero]; exact hz)

/-! Sums -/

/-- The exact integer sum of two ordered operands, in units of the second one's last bit and with the first one's sign
(R140, R143). -/
def orderedSum (x y : Unpacked) : ℤ :=
  if x.sign = y.sign then ((x.significand <<< (x.exponent - y.exponent).toNat : ℕ) : ℤ) + y.significand
  else ((x.significand <<< (x.exponent - y.exponent).toNat : ℕ) : ℤ) - y.significand

theorem addOrdered_of_lt_cutoff {x y : Unpacked} (h : ¬ Config.addCutoff ≤ (x.exponent - y.exponent).toNat) :
    addOrdered x y = if orderedSum x y = 0 then .ok (zeroQuad false)
      else roundPack (if 0 < orderedSum x y then x.sign else y.sign) (orderedSum x y).natAbs y.exponent false := if_neg h

/-- The integer sum stands for the sum of the operands' values. -/
theorem orderedSum_value {x y : Unpacked} (hle : y.exponent ≤ x.exponent) :
    signFactor x.sign * (x.significand * 2 ^ x.exponent) + signFactor y.sign * (y.significand * 2 ^ y.exponent) =
      signFactor x.sign * (orderedSum x y * 2 ^ y.exponent) := by
  have hx : (x.significand : ℚ) * 2 ^ x.exponent =
      ((x.significand <<< (x.exponent - y.exponent).toNat : ℕ) : ℚ) * 2 ^ y.exponent := by
    refine (mul_zpow_eq_mul_zpow_iff ..).2 ?_
    rw [show (y.exponent - x.exponent).toNat = 0 by omega, Nat.shiftLeft_zero]
  unfold orderedSum
  rw [hx]
  generalize x.significand <<< (x.exponent - y.exponent).toNat = n
  split_ifs with hsign
  · rw [hsign]
    push_cast
    ring
  · rw [Bool.eq_not_of_ne (Ne.symm hsign), signFactor_not]
    push_cast
    ring

/-- The sign of the integer sum is the first operand's, unless the sum is negative, which only operands of different signs
make it. -/
theorem orderedSum_sign {x y : Unpacked} (hy : y.significand ≠ 0) :
    signFactor (if 0 < orderedSum x y then x.sign else y.sign) * ((orderedSum x y).natAbs : ℚ) =
      signFactor x.sign * orderedSum x y := by
  by_cases hpos : 0 < orderedSum x y
  · have habs : ((orderedSum x y).natAbs : ℚ) = orderedSum x y := by
      rw [← Int.cast_natCast, Int.natAbs_of_nonneg hpos.le]
    rw [if_pos hpos, habs]
  · have habs : ((orderedSum x y).natAbs : ℚ) = -orderedSum x y := by
      rw [← Int.cast_natCast, Int.ofNat_natAbs_of_nonpos (not_lt.1 hpos), Int.cast_neg]
    have hsign : x.sign ≠ y.sign := by
      intro hsign
      rw [orderedSum, if_pos hsign] at hpos
      generalize x.significand <<< (x.exponent - y.exponent).toNat = n at hpos
      omega
    rw [if_neg hpos, habs, Bool.eq_not_of_ne (Ne.symm hsign), signFactor_not]
    ring

/-- From the cutoff on no quad has the magnitude of a sum: its lowest bit is the smaller operand's, and its highest lies
more than 129 places above. -/
theorem orderedSum_ne_of_cutoff {a b : Quad} {x y w : Unpacked} (hx : unpack a = .ok x) (hy : unpack b = .ok y)
    (hw : unpack c = .ok w) (hyz : y.significand ≠ 0) (hcut : Config.addCutoff ≤ (x.exponent - y.exponent).toNat) :
    ((orderedSum x y).natAbs : ℚ) * 2 ^ y.exponent ≠ w.significand * 2 ^ w.exponent := by
  intro hmag
  obtain ⟨-, hylt, hyexp, -, -⟩ := unpack_eq_ok hy
  obtain ⟨-, hwlt, -, -, -⟩ := unpack_eq_ok hw
  have hcutoff : Config.addCutoff = 131 := rfl
  have hlead : 2 ^ 128 ≤ x.significand := (leading_bit_or_lsbMin_of_unpack hx).resolve_right (by omega)
  obtain ⟨d, hd⟩ : ∃ d, (x.exponent - y.exponent).toNat = 131 + d := ⟨_, (Nat.add_sub_cancel' hcut).symm⟩
  have hshift : x.significand <<< (x.exponent - y.exponent).toNat = 2 ^ 131 * (x.significand * 2 ^ d) := by
    rw [hd, Nat.shiftLeft_eq, pow_add]
    ring
  have hbig : 2 ^ 128 ≤ x.significand * 2 ^ d := hlead.trans (Nat.le_mul_of_pos_right _ (Nat.two_pow_pos d))
  have hsum : orderedSum x y = ((2 ^ 131 * (x.significand * 2 ^ d) : ℕ) : ℤ) + y.significand ∨
      orderedSum x y = ((2 ^ 131 * (x.significand * 2 ^ d) : ℕ) : ℤ) - y.significand := by
    unfold orderedSum
    rw [hshift]
    split_ifs
    · exact .inl rfl
    · exact .inr rfl
  generalize x.significand * 2 ^ d = n at hbig hsum
  generalize orderedSum x y = t at hmag hsum
  have hhigh : 2 ^ (129 + 128) ≤ t.natAbs := by
    rw [pow_add]
    omega
  have hexp := exponent_lt_of_mul_zpow_eq hmag hhigh hwlt
  obtain ⟨e, he⟩ : ∃ e : ℕ, w.exponent = y.exponent + (129 + e : ℕ) :=
    ⟨(w.exponent - y.exponent - 129).toNat, by push_cast at hexp; omega⟩
  rw [he, mul_zpow_eq_mul_zpow_add_iff, Nat.shiftLeft_eq, pow_add] at hmag
  have hlow : t.natAbs = 2 ^ 129 * (w.significand * 2 ^ e) := by rw [hmag]; ring
  omega

/-- An ordered sum that is a quad's value is that quad. -/
theorem addOrdered_of_exact {a b : Quad} {x y : Unpacked} (hx : unpack a = .ok x) (hy : unpack b = .ok y)
    (hyz : y.significand ≠ 0) (hle : y.exponent ≤ x.exponent) (hc : valueOf c = some z) (hz : z ≠ 0)
    (hsum : signFactor x.sign * (x.significand * 2 ^ x.exponent) +
      signFactor y.sign * (y.significand * 2 ^ y.exponent) = z) : addOrdered x y = .ok c := by
  rw [orderedSum_value hle] at hsum
  have hvalue : z = signFactor (if 0 < orderedSum x y then x.sign else y.sign) *
      ((orderedSum x y).natAbs * 2 ^ y.exponent) := by
    rw [← mul_assoc, orderedSum_sign hyz, mul_assoc, hsum]
  by_cases hcut : Config.addCutoff ≤ (x.exponent - y.exponent).toNat
  · obtain ⟨w, hw⟩ := unpack_of_valueOf hc
    rw [valueOf_of_unpack hw, hvalue] at hc
    obtain ⟨-, hmag⟩ | ⟨-, hzero⟩ := signFactor_mul_eq (by positivity) (by positivity) (Option.some.inj hc)
    · exact absurd hmag.symm (orderedSum_ne_of_cutoff hx hy hw hyz hcut)
    · exact absurd hvalue (by rw [hzero, mul_zero]; exact hz)
  · have hne : orderedSum x y ≠ 0 := by
      intro hzero
      exact hz (by rw [← hsum, hzero]; simp)
    rw [addOrdered_of_lt_cutoff hcut, if_neg hne]
    exact roundPack_of_valueOf hc hz hvalue

theorem qadd_of_unpack {a b : Quad} {x y : Unpacked} (hx : unpack a = .ok x) (hy : unpack b = .ok y) :
    qadd a b = addFinite a b := by
  simp [qadd, classOf_ne_nan_of_unpack hx, classOf_ne_nan_of_unpack hy, classOf_ne_infinity_of_unpack hx,
    classOf_ne_infinity_of_unpack hy]

variable {a b : Quad} {p r : ℚ}

theorem qadd_of_exact (ha : valueOf a = some p) (hb : valueOf b = some r) (hc : valueOf c = some z) (hz : z ≠ 0)
    (hsum : p + r = z) : qadd a b = .ok c := by
  obtain ⟨x, hx⟩ := unpack_of_valueOf ha
  obtain ⟨y, hy⟩ := unpack_of_valueOf hb
  have hxv := Option.some.inj ((valueOf_of_unpack hx).symm.trans ha)
  have hyv := Option.some.inj ((valueOf_of_unpack hy).symm.trans hb)
  rw [qadd_of_unpack hx hy, addFinite, hx, hy]
  dsimp only [bind, Except.bind]
  split_ifs with hzeros hxz hyz hlt
  · obtain ⟨hxz, hyz⟩ := hzeros
    exact absurd hsum.symm (by rw [← hxv, ← hyv, hxz, hyz]; simpa using hz)
  · have hrz : r = z := by rw [← hsum, ← hxv, hxz]; simp
    exact congrArg Except.ok (eq_of_valueOf_eq (hrz ▸ hb) hc hz)
  · have hpz : p = z := by rw [← hsum, ← hyv, hyz]; simp
    exact congrArg Except.ok (eq_of_valueOf_eq (hpz ▸ ha) hc hz)
  · exact addOrdered_of_exact hy hx hxz hlt.le hc hz (by rw [hxv, hyv, add_comm, hsum])
  · exact addOrdered_of_exact hx hy hyz (not_lt.1 hlt) hc hz (by rw [hxv, hyv, hsum])

/-! Products -/

theorem qmul_of_exact (ha : valueOf a = some p) (hb : valueOf b = some r) (hc : valueOf c = some z) (hz : z ≠ 0)
    (hprod : p * r = z) : qmul a b = .ok c := by
  obtain ⟨x, hx⟩ := unpack_of_valueOf ha
  obtain ⟨y, hy⟩ := unpack_of_valueOf hb
  obtain ⟨hxs, -⟩ := unpack_eq_ok hx
  obtain ⟨hys, -⟩ := unpack_eq_ok hy
  have hxv := Option.some.inj ((valueOf_of_unpack hx).symm.trans ha)
  have hyv := Option.some.inj ((valueOf_of_unpack hy).symm.trans hb)
  have hxz : x.significand ≠ 0 := significand_ne_zero hxv (left_ne_zero_of_mul (hprod.symm ▸ hz))
  have hyz : y.significand ≠ 0 := significand_ne_zero hyv (right_ne_zero_of_mul (hprod.symm ▸ hz))
  have hfinite : qmul a b = mulFinite (signOf a ^^ signOf b) a b := by
    simp [qmul, classOf_ne_nan_of_unpack hx, classOf_ne_nan_of_unpack hy, classOf_ne_infinity_of_unpack hx,
      classOf_ne_infinity_of_unpack hy]
  rw [hfinite, mulFinite, hx, hy]
  dsimp only [bind, Except.bind]
  rw [if_neg (by simp [hxz, hyz])]
  refine roundPack_of_valueOf hc hz ?_
  rw [← hprod, ← hxv, ← hyv, ← hxs, ← hys, signFactor_xor, zpow_add₀ two_ne_zero]
  push_cast
  ring

/-! Quotients -/

/-- A quotient that is a quad's magnitude leaves no remainder: the 260 extra bits reach below its lowest bit (R193). -/
theorem dvd_extended_dividend {x y w : Unpacked} (hy : unpack b = .ok y) (hw : unpack c = .ok w)
    (hxz : x.significand ≠ 0)
    (h : (x.significand : ℚ) * 2 ^ x.exponent = w.significand * 2 ^ w.exponent * (y.significand * 2 ^ y.exponent)) :
    y.significand ∣ x.significand <<< Config.divisionExtension := by
  obtain ⟨-, hylt, -, -, -⟩ := unpack_eq_ok hy
  obtain ⟨-, hwlt, -, -, -⟩ := unpack_eq_ok hw
  have hmag : ((x.significand <<< Config.divisionExtension : ℕ) : ℚ) * 2 ^ (x.exponent - Config.divisionExtension) =
      (w.significand * y.significand : ℕ) * 2 ^ (w.exponent + y.exponent) := by
    rw [shiftLeft_mul_zpow_sub, h, zpow_add₀ two_ne_zero]
    push_cast
    ring
  have hhigh : 2 ^ Config.divisionExtension ≤ x.significand <<< Config.divisionExtension := by
    rw [Nat.shiftLeft_eq]
    exact Nat.le_mul_of_pos_left _ (Nat.pos_of_ne_zero hxz)
  have hlow : w.significand * y.significand < 2 ^ (129 + 129) := by
    rw [pow_add]
    exact Nat.mul_lt_mul'' hwlt hylt
  have hexp := exponent_lt_of_mul_zpow_eq hmag hhigh hlow
  have hext : Config.divisionExtension = 260 := rfl
  obtain ⟨e, he⟩ : ∃ e : ℕ, w.exponent + y.exponent = x.exponent - Config.divisionExtension + e :=
    ⟨(w.exponent + y.exponent - (x.exponent - Config.divisionExtension)).toNat, by push_cast at hexp; omega⟩
  rw [he, mul_zpow_eq_mul_zpow_add_iff, Nat.shiftLeft_eq _ e] at hmag
  rw [hmag]
  exact ⟨w.significand * 2 ^ e, by ring⟩

theorem qdiv_of_unpack {x y : Unpacked} (hx : unpack a = .ok x) (hy : unpack b = .ok y) (hxz : x.significand ≠ 0)
    (hyz : y.significand ≠ 0) : qdiv a b = divFinite (signOf a ^^ signOf b) a b := by
  simp [qdiv, classOf_ne_nan_of_unpack hx, classOf_ne_nan_of_unpack hy, classOf_ne_infinity_of_unpack hx,
    classOf_ne_infinity_of_unpack hy, classOf_ne_zero_of_unpack hx hxz, classOf_ne_zero_of_unpack hy hyz]

theorem qdiv_of_exact (ha : valueOf a = some p) (hb : valueOf b = some r) (hc : valueOf c = some z) (hz : z ≠ 0)
    (hr : r ≠ 0) (hquot : p / r = z) : qdiv a b = .ok c := by
  have hprod : z * r = p := by rw [← hquot, div_mul_cancel₀ _ hr]
  obtain ⟨x, hx⟩ := unpack_of_valueOf ha
  obtain ⟨y, hy⟩ := unpack_of_valueOf hb
  obtain ⟨w, hw⟩ := unpack_of_valueOf hc
  obtain ⟨hxs, -⟩ := unpack_eq_ok hx
  obtain ⟨hys, -⟩ := unpack_eq_ok hy
  have hxv := Option.some.inj ((valueOf_of_unpack hx).symm.trans ha)
  have hyv := Option.some.inj ((valueOf_of_unpack hy).symm.trans hb)
  have hwv := Option.some.inj ((valueOf_of_unpack hw).symm.trans hc)
  have hxz : x.significand ≠ 0 := significand_ne_zero hxv (hprod ▸ mul_ne_zero hz hr)
  have hyz : y.significand ≠ 0 := significand_ne_zero hyv hr
  have hmag : (x.significand : ℚ) * 2 ^ x.exponent =
      w.significand * 2 ^ w.exponent * (y.significand * 2 ^ y.exponent) := by
    have habs := congrArg abs hprod
    rwa [abs_mul, ← hxv, ← hyv, ← hwv, abs_signFactor_mul _ (by positivity), abs_signFactor_mul _ (by positivity),
      abs_signFactor_mul _ (by positivity), eq_comm] at habs
  have hdvd := dvd_extended_dividend hy hw hxz hmag
  rw [qdiv_of_unpack hx hy hxz hyz, divFinite, hx, hy]
  dsimp only [bind, Except.bind]
  rw [Nat.mod_eq_zero_of_dvd hdvd]
  refine roundPack_of_valueOf hc hz ?_
  have hyq : (y.significand : ℚ) ≠ 0 := by exact_mod_cast hyz
  have hsub : x.exponent - y.exponent - (Config.divisionExtension : ℕ) =
      x.exponent - (Config.divisionExtension : ℕ) - y.exponent := by omega
  rw [Nat.cast_div hdvd hyq, hsub, zpow_sub₀ two_ne_zero, ← hxs, ← hys, signFactor_xor,
    div_mul_div_comm, shiftLeft_mul_zpow_sub, ← hquot, ← hxv, ← hyv]
  have hysf := signFactor_ne_zero y.sign
  have hyself := signFactor_mul_self y.sign
  have hpow : (2 : ℚ) ^ y.exponent ≠ 0 := zpow_ne_zero _ two_ne_zero
  field_simp
  linear_combination -signFactor x.sign * hyself

end

/-- Settles O18: each command rounds the exact result once, and RoundPack gives a quad's magnitude back. -/
theorem exactResultsAreReturnedExactly : Obligations.ExactResultsAreReturnedExactly := by
  intro a b c s x y z ha hb hc hz
  refine ⟨fun h => ?_, fun h => ?_, fun h => ?_, fun hy h => ?_⟩ <;> refine exec_eq_next_iff.2 ⟨c, ?_, rfl⟩
  · exact qadd_of_exact ha hb hc hz h
  · exact qadd_of_exact ha (valueOf_flipSign hb) hc hz (by rw [← sub_eq_add_neg, h])
  · exact qmul_of_exact ha hb hc hz h
  · exact qdiv_of_exact ha hb hc hz hy h

end Sys2Proof.Machine
end

section
/-! SUPPORT. The cases of QADD that are no rounded sum: NaNs, Infinities and two zeros (spec/41_add_subtract.md R141,
R142). -/

namespace Sys2Proof.Machine

section
variable {a b r : Quad}

theorem exec_qadd_of_eq (h : qadd a b = .ok r) (s : State) : exec (.qadd a b) s = .next (s.respond (okResponse r)) :=
  exec_eq_next_iff.2 ⟨r, h, rfl⟩

theorem exec_qsub_of_eq (h : qadd a (flipSign b) = .ok r) (s : State) :
    exec (.qsub a b) s = .next (s.respond (okResponse r)) :=
  exec_eq_next_iff.2 ⟨r, h, rfl⟩

/-! The special values of QADD (R141) -/

theorem qadd_of_nan (h : classOf a = .nan ∨ classOf b = .nan) : qadd a b = .ok nanQuad := if_pos h

theorem qadd_of_opposite_infinities (ha : classOf a = .infinity) (hb : classOf b = .infinity) (hs : signOf a ≠ signOf b) :
    qadd a b = .ok nanQuad := by
  simp [qadd, ha, hb, hs]

theorem qadd_of_like_infinities (ha : classOf a = .infinity) (hb : classOf b = .infinity) (hs : signOf a = signOf b) :
    qadd a b = .ok (infQuad (signOf a)) := by
  simp [qadd, ha, hb, hs]

theorem qadd_of_left_infinity (ha : classOf a = .infinity) (hb : classOf b ≠ .infinity) (hn : classOf b ≠ .nan) :
    qadd a b = .ok (infQuad (signOf a)) := by
  simp [qadd, ha, hb, hn]

theorem qadd_of_right_infinity (hb : classOf b = .infinity) (ha : classOf a ≠ .infinity) (hn : classOf a ≠ .nan) :
    qadd a b = .ok (infQuad (signOf b)) := by
  simp [qadd, ha, hb, hn]

theorem qadd_of_zeros (ha : classOf a = .zero) (hb : classOf b = .zero) :
    qadd a b = .ok (zeroQuad (signOf a && signOf b)) := by
  rw [qadd_of_unpack (unpack_of_zero ha) (unpack_of_zero hb), addFinite, unpack_of_zero ha, unpack_of_zero hb]
  rfl

end

/-- Settles O20: each clause is one of the cases that QADD tells apart before it unpacks. -/
theorem qaddSpecialValues : Obligations.QaddSpecialValues := by
  intro a b s
  refine ⟨fun h => ?_, fun ha hb hs => ?_, fun ha hb hs => ?_, fun ha hb hn => ?_, fun hb ha hn => ?_⟩
  · exact exec_qadd_of_eq (qadd_of_nan h) s
  · exact exec_qadd_of_eq (qadd_of_opposite_infinities ha hb hs) s
  · exact exec_qadd_of_eq (qadd_of_like_infinities ha hb hs) s
  · exact exec_qadd_of_eq (qadd_of_left_infinity ha hb hn) s
  · exact exec_qadd_of_eq (qadd_of_right_infinity hb ha hn) s

end Sys2Proof.Machine
end

section
/-! SUPPORT. A magnitude rounds to one quad, whatever call of RoundPack it is given by; a quad's own magnitude and those near
it round to the quad (spec/40_limbs_and_rounding.md R112, R113, spec/41_add_subtract.md R143). -/

namespace Sys2Proof.Machine

section
variable {v : ℝ} {q q' : ℕ} {l l' : ℤ}

theorem RoundsTo.significand_unique (h : RoundsTo v q l) (h' : RoundsTo v q' l) : q = q' := by
  by_contra hne
  have hl : (0 : ℝ) < 2 ^ l := by positivity
  have hpoints : (q : ℝ) * 2 ^ l ≠ q' * 2 ^ l := fun heq => hne (by exact_mod_cast mul_right_cancel₀ hl.ne' heq)
  obtain ⟨hle, heven⟩ := h.nearest_multiple q'
  obtain ⟨hge, heven'⟩ := h'.nearest_multiple q
  obtain ⟨i, rfl⟩ := heven (hle.antisymm hge) hpoints.symm
  obtain ⟨j, rfl⟩ := heven' (hge.antisymm hle) hpoints
  have hapart : |((i + i : ℕ) : ℝ) - (j + j : ℕ)| * 2 ^ l ≤ 1 * 2 ^ l :=
    calc |((i + i : ℕ) : ℝ) - (j + j : ℕ)| * 2 ^ l
        = |(v - (j + j : ℕ) * 2 ^ l) - (v - (i + i : ℕ) * 2 ^ l)| := by
          rw [← abs_of_pos hl, ← abs_mul, abs_of_pos hl]
          ring_nf
      _ ≤ |v - (j + j : ℕ) * 2 ^ l| + |v - (i + i : ℕ) * 2 ^ l| := abs_sub _ _
      _ ≤ 1 * 2 ^ l := by linarith [h.error, h'.error]
  have hone : |((i + i : ℕ) : ℤ) - (j + j : ℕ)| ≤ 1 := by exact_mod_cast le_of_mul_le_mul_right hapart hl
  rw [abs_le] at hone
  omega

/-- Two weight exponents are possible only where the significand carries out of its 129 bits. -/
theorem RoundsTo.carry_of_lt (h : RoundsTo v q l) (h' : RoundsTo v q' l') (hlt : l < l') :
    q = 2 ^ 129 ∧ q' = 2 ^ 128 ∧ l' = l + 1 := by
  have hl : (0 : ℝ) < 2 ^ l := by positivity
  have hmin := h.lsbMin_le
  have hlead : (2 : ℝ) ^ (l' + 128) ≤ v := h'.lead.resolve_left (by omega)
  have herror := abs_le.1 h.error
  have hle : (q : ℝ) ≤ 2 ^ 129 := by exact_mod_cast h.le
  have hv : v ≤ (2 ^ 129 + 1 / 2) * 2 ^ l := by nlinarith
  obtain rfl : l' = l + 1 := by
    have hhigh : (2 : ℝ) ^ (l' + 128) < 2 ^ (l + 130) := by
      calc (2 : ℝ) ^ (l' + 128) ≤ (2 ^ 129 + 1 / 2) * 2 ^ l := hlead.trans hv
        _ < 2 ^ 130 * 2 ^ l := by gcongr; norm_num
        _ = 2 ^ (l + 130) := by rw [zpow_add₀ two_ne_zero, mul_comm]; norm_cast
    have hexp := (zpow_lt_zpow_iff_right₀ one_lt_two).1 hhigh
    omega
  have herror' := abs_le.1 h'.error
  rw [two_zpow_add_128] at hlead
  rw [zpow_add_one₀ two_ne_zero] at hlead herror'
  have hq : ((2 ^ 129 : ℕ) : ℝ) < (q + 1 : ℕ) := by
    push_cast
    nlinarith
  have hlow : ((2 ^ 128 : ℕ) : ℝ) < (q' + 1 : ℕ) := by
    push_cast
    nlinarith
  have hhigh : (q' : ℝ) < (2 ^ 128 + 1 : ℕ) := by
    push_cast
    nlinarith
  rw [Nat.cast_lt] at hq hlow hhigh
  have hcarry := h.le
  exact ⟨by omega, by omega, rfl⟩

theorem packRounded_carry (s : Bool) (l : ℤ) : packRounded s (2 ^ 129) l = packRounded s (2 ^ 128) (l + 1) := by
  rw [packRounded, if_pos rfl, packRounded, if_neg (by decide)]

theorem RoundsTo.packRounded_unique (h : RoundsTo v q l) (h' : RoundsTo v q' l') (s : Bool) :
    packRounded s q l = packRounded s q' l' := by
  obtain hlt | rfl | hgt := lt_trichotomy l l'
  · obtain ⟨rfl, rfl, rfl⟩ := h.carry_of_lt h' hlt
    exact packRounded_carry s l
  · rw [h.significand_unique h']
  · obtain ⟨rfl, rfl, rfl⟩ := h'.carry_of_lt h hgt
    exact (packRounded_carry s l').symm

end

theorem roundsTo_of_unpack {x : Quad} {u : Unpacked} (h : unpack x = .ok u) :
    RoundsTo (u.significand * 2 ^ u.exponent) u.significand u.exponent := by
  obtain ⟨-, hlt, hmin, -, -⟩ := unpack_eq_ok h
  refine ⟨hmin, hlt.le, (leading_bit_or_lsbMin_of_unpack h).symm.imp_right fun hlead => ?_, ?_, fun htie => ?_⟩
  · rw [two_zpow_add_128]
    gcongr
    exact_mod_cast hlead
  · rw [sub_self, abs_zero]
    positivity
  · rw [sub_self, abs_zero] at htie
    exact absurd htie (by positivity)

/-- A magnitude less than a quarter of the last place away from a significand with its leading bit rounds to it, also just
below a power of two, where the grid is twice as fine (R143). -/
theorem exists_roundsTo_of_near {v : ℝ} {m : ℕ} {k : ℤ} (hlow : 2 ^ 128 ≤ m) (hhigh : m < 2 ^ 129)
    (hk : Config.lsbMin < k) (hnear : |v - m * 2 ^ k| < 2 ^ k / 4) :
    ∃ q l, RoundsTo v q l ∧ ∀ s, packRounded s q l = packRounded s m k := by
  have hpos : (0 : ℝ) < 2 ^ k := by positivity
  have hbounds := abs_lt.1 hnear
  obtain rfl | hgt := hlow.eq_or_lt
  · obtain ⟨l, rfl⟩ : ∃ l, k = l + 1 := ⟨k - 1, by omega⟩
    have hscale : (2 : ℝ) ^ (l + 1) = 2 * 2 ^ l := by rw [zpow_add_one₀ two_ne_zero, mul_comm]
    have hpoint : ((2 ^ 128 : ℕ) : ℝ) * 2 ^ (l + 1) = (2 ^ 129 : ℕ) * 2 ^ l := by
      rw [hscale]
      push_cast
      ring
    rw [hpoint] at hnear hbounds
    rw [hscale] at hnear hbounds hpos
    have herror : |v - (2 ^ 129 : ℕ) * 2 ^ l| < 2 ^ l / 2 := by linarith
    refine ⟨2 ^ 129, l, ⟨by omega, le_rfl, .inr ?_, herror.le, fun htie => absurd htie herror.ne⟩,
      fun s => packRounded_carry s l⟩
    rw [two_zpow_add_128]
    push_cast at hbounds
    linarith
  · refine ⟨m, k, ⟨hk.le, hhigh.le, .inr ?_, by linarith, fun htie => absurd htie (by linarith)⟩, fun _ => rfl⟩
    have hm : (2 : ℝ) ^ 128 + 1 ≤ m := by exact_mod_cast hgt
    rw [two_zpow_add_128]
    nlinarith

end Sys2Proof.Machine
end

section
/-! SUPPORT. The finite path of QADD rounds the exact sum once (spec/41_add_subtract.md R140, R143). -/

namespace Sys2Proof.Machine

/-! Values -/

section
variable {a : Quad} {p : ℚ}

/-- The value of an unpacked operand (spec/40_limbs_and_rounding.md R100). -/
def Unpacked.value (u : Unpacked) : ℚ := signFactor u.sign * (u.significand * 2 ^ u.exponent)

theorem valueOf_eq_value {u : Unpacked} (h : unpack a = .ok u) : valueOf a = some u.value := valueOf_of_unpack h

theorem Unpacked.value_of_significand_eq_zero {u : Unpacked} (h : u.significand = 0) : u.value = 0 := by
  rw [Unpacked.value, h, Nat.cast_zero, zero_mul, mul_zero]

theorem Unpacked.value_ne_zero {u : Unpacked} (h : u.significand ≠ 0) : u.value ≠ 0 :=
  mul_ne_zero (signFactor_ne_zero _) (by positivity)

theorem exists_unpack_of_valueOf (h : valueOf a = some p) : ∃ u, unpack a = .ok u ∧ u.value = p := by
  obtain ⟨u, hu⟩ := unpack_of_valueOf h
  exact ⟨u, hu, Option.some.inj ((valueOf_eq_value hu).symm.trans h)⟩

theorem valueOf_eq_zero_iff (h : valueOf a = some p) : p = 0 ↔ classOf a = .zero := by
  obtain ⟨u, hu, rfl⟩ := exists_unpack_of_valueOf h
  obtain ⟨-, -, -, hzero, -⟩ := unpack_eq_ok hu
  rw [← hzero]
  exact ⟨not_imp_not.1 Unpacked.value_ne_zero, Unpacked.value_of_significand_eq_zero⟩

theorem decide_signFactor_mul_neg (s : Bool) {m : ℚ} (h : 0 < m) : decide (signFactor s * m < 0) = s := by
  cases s <;> simp [signFactor, h, h.le]

theorem signOf_eq_decide (h : valueOf a = some p) (hp : p ≠ 0) : signOf a = decide (p < 0) := by
  obtain ⟨u, hu, hvalue⟩ := exists_unpack_of_valueOf h
  obtain ⟨hsign, -⟩ := unpack_eq_ok hu
  have hsig := significand_ne_zero hvalue hp
  rw [← hvalue, Unpacked.value, decide_signFactor_mul_neg _ (by positivity), hsign]

theorem cast_abs_sub_lt {v c : ℚ} {m : ℕ} {k : ℤ} (h : |v - m * 2 ^ k| < c) : |(v : ℝ) - m * 2 ^ k| < c := by
  have hcast := (Rat.cast_lt (K := ℝ)).2 h
  push_cast at hcast
  exact hcast

end

/-! Rounded sums -/

/-- `o` is a sum of exact value `z` rounded once: an exact zero is +0, and another sum is packed with its own sign from
what its magnitude rounds to (R142, R143). -/
structure RoundsSum (z : ℚ) (o : Except Refusal Quad) : Prop where
  zero : z = 0 → o = .ok (zeroQuad false)
  ne_zero : z ≠ 0 → ∃ q l, RoundsTo ((|z| : ℚ) : ℝ) q l ∧ o = .ok (packRounded (decide (z < 0)) q l)

/-- A sign and a magnitude that is not 0. -/
theorem roundsSum_of_roundsTo {s : Bool} {m : ℚ} {q : ℕ} {l : ℤ} (hm : 0 < m) (h : RoundsTo m q l) :
    RoundsSum (signFactor s * m) (.ok (packRounded s q l)) where
  zero hzero := absurd hzero (mul_ne_zero (signFactor_ne_zero s) hm.ne')
  ne_zero _ := ⟨q, l, by rwa [abs_signFactor_mul s hm.le], by rw [decide_signFactor_mul_neg s hm]⟩

theorem roundsSum_zero : RoundsSum 0 (.ok (zeroQuad false)) := ⟨fun _ => rfl, fun hne => absurd rfl hne⟩

theorem roundsSum_of_standsFor {s st : Bool} {v : ℚ} {m : ℕ} {k : ℤ} (hv : 0 < v) (h : StandsFor m k st v) :
    RoundsSum (signFactor s * v) (roundPack s m k st) := by
  obtain ⟨q, l, hround, hpack⟩ := h.roundsTo
  rw [hpack]
  exact roundsSum_of_roundsTo hv hround

theorem RoundsSum.unique {z : ℚ} {o o' : Except Refusal Quad} (h : RoundsSum z o) (h' : RoundsSum z o') : o = o' := by
  by_cases hz : z = 0
  · rw [h.zero hz, h'.zero hz]
  · obtain ⟨q, l, hround, rfl⟩ := h.ne_zero hz
    obtain ⟨q', l', hround', rfl⟩ := h'.ne_zero hz
    rw [hround.packRounded_unique hround']

theorem RoundsSum.correctlyRounded {z : ℚ} {o : Except Refusal Quad} (h : RoundsSum z o) (hz : z ≠ 0) :
    ∃ r, o = .ok r ∧ signOf r = decide (z < 0) ∧ NearestEven ((|z| : ℚ) : ℝ) r := by
  obtain ⟨q, l, hround, ho⟩ := h.ne_zero hz
  exact ⟨_, ho, signOf_packRounded .., hround.nearestEven _⟩

/-! The finite path of QADD (R140 step 2) -/

section
variable {a b : Quad} {x y : Unpacked}

/-- From the cutoff on the smaller operand is below a quarter of the last place of the larger one (R143). -/
theorem smaller_lt_quarter (hy : unpack b = .ok y)
    (hcut : Config.addCutoff ≤ (x.exponent - y.exponent).toNat) :
    (y.significand : ℚ) * 2 ^ y.exponent < 2 ^ x.exponent / 4 := by
  obtain ⟨-, hylt, -⟩ := unpack_eq_ok hy
  have hcutoff : Config.addCutoff = 131 := rfl
  calc (y.significand : ℚ) * 2 ^ y.exponent < 2 ^ ((129 : ℕ) + y.exponent) := mul_zpow_lt_zpow hylt _
    _ ≤ 2 ^ (x.exponent - 2) := zpow_le_zpow_right₀ one_le_two (by push_cast; omega)
    _ = 2 ^ x.exponent / 4 := by rw [zpow_sub₀ two_ne_zero]; norm_num

theorem addOrdered_of_cutoff (hx : unpack a = .ok x) (hxz : x.significand ≠ 0)
    (hcut : Config.addCutoff ≤ (x.exponent - y.exponent).toNat) :
    addOrdered x y = .ok (packRounded x.sign x.significand x.exponent) := by
  rw [packRounded_of_unpack hx hxz, ← roundPackValue_of_exact hx rfl, ← roundPack_ok (by simp)]
  exact if_pos hcut

/-- From the cutoff on the exact sum has the larger operand's sign and a magnitude near its own (R143). -/
theorem exists_near_of_cutoff (hy : unpack b = .ok y) (hcut : Config.addCutoff ≤ (x.exponent - y.exponent).toNat) :
    ∃ v : ℚ, x.value + y.value = signFactor x.sign * v ∧
      |v - x.significand * 2 ^ x.exponent| < 2 ^ x.exponent / 4 := by
  refine ⟨x.significand * 2 ^ x.exponent + signFactor (x.sign ^^ y.sign) * (y.significand * 2 ^ y.exponent), ?_, ?_⟩
  · rw [signFactor_xor, Unpacked.value, Unpacked.value]
    linear_combination -(signFactor y.sign * (y.significand * 2 ^ y.exponent)) * signFactor_mul_self x.sign
  · rw [add_sub_cancel_left, abs_signFactor_mul _ (by positivity)]
    exact smaller_lt_quarter hy hcut

theorem roundsSum_addOrdered_of_cutoff (hx : unpack a = .ok x) (hy : unpack b = .ok y)
    (hcut : Config.addCutoff ≤ (x.exponent - y.exponent).toNat) :
    RoundsSum (x.value + y.value) (addOrdered x y) := by
  obtain ⟨-, hxlt, -⟩ := unpack_eq_ok hx
  obtain ⟨-, -, hyexp, -⟩ := unpack_eq_ok hy
  have hcutoff : Config.addCutoff = 131 := rfl
  have hlead : 2 ^ 128 ≤ x.significand := (leading_bit_or_lsbMin_of_unpack hx).resolve_right (by omega)
  obtain ⟨v, hv, hnear⟩ := exists_near_of_cutoff (x := x) hy hcut
  have hpow : (0 : ℚ) < 2 ^ x.exponent := by positivity
  have hone : (2 : ℚ) ^ x.exponent ≤ x.significand * 2 ^ x.exponent :=
    le_mul_of_one_le_left hpow.le (by exact_mod_cast (Nat.two_pow_pos 128).trans_le hlead)
  have hvpos : 0 < v := by linarith [(abs_lt.1 hnear).1]
  obtain ⟨q, l, hround, hpack⟩ := exists_roundsTo_of_near (v := v) hlead hxlt (k := x.exponent) (by omega)
    (by simpa using cast_abs_sub_lt hnear)
  rw [addOrdered_of_cutoff hx (by omega) hcut, hv, ← hpack]
  exact roundsSum_of_roundsTo hvpos hround

theorem value_add_value (hle : y.exponent ≤ x.exponent) :
    x.value + y.value = signFactor x.sign * (orderedSum x y * 2 ^ y.exponent) := orderedSum_value hle

theorem roundsSum_addOrdered (hx : unpack a = .ok x) (hy : unpack b = .ok y)
    (hyz : y.significand ≠ 0) (hle : y.exponent ≤ x.exponent) :
    RoundsSum (x.value + y.value) (addOrdered x y) := by
  by_cases hcut : Config.addCutoff ≤ (x.exponent - y.exponent).toNat
  · exact roundsSum_addOrdered_of_cutoff hx hy hcut
  · rw [value_add_value hle, addOrdered_of_lt_cutoff hcut]
    by_cases hzero : orderedSum x y = 0
    · rw [if_pos hzero, hzero, Int.cast_zero, zero_mul, mul_zero]
      exact roundsSum_zero
    · rw [if_neg hzero]
      have hpos : (0 : ℚ) < (orderedSum x y).natAbs * 2 ^ y.exponent := by positivity
      rw [← mul_assoc, ← orderedSum_sign hyz, mul_assoc]
      refine roundsSum_of_standsFor hpos ?_
      rw [cast_mul_zpow]
      exact standsFor_exact ..

end

/-- A non-zero operand that is returned as it stands is its own value, rounded (R140 step 2). -/
theorem roundsSum_operand {a : Quad} {p : ℚ} (ha : valueOf a = some p) (hp : p ≠ 0) : RoundsSum p (.ok a) := by
  obtain ⟨x, hx, hvalue⟩ := exists_unpack_of_valueOf ha
  have hxz := significand_ne_zero hvalue hp
  rw [← hvalue, ← packRounded_of_unpack hx hxz, Unpacked.value]
  refine roundsSum_of_roundsTo (by positivity) ?_
  rw [cast_mul_zpow]
  exact roundsTo_of_unpack hx

section
variable {a b : Quad} {x y : Unpacked} {p r : ℚ}

/-- The finite path of QADD rounds the exact sum once, but for two zeros (R143). -/
theorem roundsSum_addFinite (hx : unpack a = .ok x) (hy : unpack b = .ok y)
    (hz : ¬ (x.significand = 0 ∧ y.significand = 0)) :
    RoundsSum (x.value + y.value) (addFinite a b) := by
  rw [addFinite, hx, hy]
  dsimp only [bind, Except.bind]
  rw [if_neg hz]
  split_ifs with hxz hyz hlt
  · rw [Unpacked.value_of_significand_eq_zero hxz, zero_add]
    exact roundsSum_operand (valueOf_eq_value hy) (Unpacked.value_ne_zero fun hyz => hz ⟨hxz, hyz⟩)
  · rw [Unpacked.value_of_significand_eq_zero hyz, add_zero]
    exact roundsSum_operand (valueOf_eq_value hx) (Unpacked.value_ne_zero hxz)
  · rw [add_comm]
    exact roundsSum_addOrdered hy hx hxz hlt.le
  · exact roundsSum_addOrdered hx hy hyz (not_lt.1 hlt)

theorem roundsSum_qadd (ha : valueOf a = some p) (hb : valueOf b = some r) (hne : p ≠ 0 ∨ r ≠ 0) :
    RoundsSum (p + r) (qadd a b) := by
  obtain ⟨x, hx, rfl⟩ := exists_unpack_of_valueOf ha
  obtain ⟨y, hy, rfl⟩ := exists_unpack_of_valueOf hb
  rw [qadd_of_unpack hx hy]
  refine roundsSum_addFinite hx hy ?_
  rintro ⟨hxz, hyz⟩
  simp [Unpacked.value_of_significand_eq_zero, hxz, hyz] at hne

end

end Sys2Proof.Machine
end

section
/-! SUPPORT. What the rounded sum says of QADD and QSUB: correct rounding, signs, the flipped operand, and commutation, which
QMUL has by its definition (spec/41_add_subtract.md R142, R143, R145, R150, spec/42_multiply.md R175). -/

namespace Sys2Proof.Machine

/-! Correct rounding and signs -/

/-- A sum that is not 0 has an operand that is not. -/
theorem ne_zero_or_of_add_ne_zero {p r : ℚ} (h : p + r ≠ 0) : p ≠ 0 ∨ r ≠ 0 := by
  by_contra hzero
  push Not at hzero
  exact h (by rw [hzero.1, hzero.2, add_zero])

/-- Settles O22: the finite path rounds the exact sum once, and a difference is the sum with the flipped operand. -/
theorem sumsAndDifferencesAreCorrectlyRounded : Obligations.SumsAndDifferencesAreCorrectlyRounded := by
  intro a b s x y ha hb
  refine ⟨fun hz => ?_, fun hz => ?_⟩
  · obtain ⟨r, hr, hround⟩ := (roundsSum_qadd ha hb (ne_zero_or_of_add_ne_zero hz)).correctlyRounded hz
    exact ⟨r, exec_qadd_of_eq hr s, hround⟩
  · rw [sub_eq_add_neg] at hz ⊢
    obtain ⟨r, hr, hround⟩ :=
      (roundsSum_qadd ha (valueOf_flipSign hb) (ne_zero_or_of_add_ne_zero hz)).correctlyRounded hz
    exact ⟨r, exec_qsub_of_eq hr s, hround⟩

/-- A sum has the sign of the term of larger magnitude. -/
theorem add_neg_iff_of_abs_le {p r : ℚ} (hz : p + r ≠ 0) (hle : |r| ≤ |p|) : p ≠ 0 ∧ (p + r < 0 ↔ p < 0) := by
  have hp : p ≠ 0 := by
    rintro rfl
    rw [abs_zero, abs_nonpos_iff] at hle
    exact hz (by rw [hle, add_zero])
  refine ⟨hp, ?_⟩
  obtain hneg | hpos := hp.lt_or_gt
  · rw [abs_of_neg hneg, abs_le] at hle
    exact iff_of_true (lt_of_le_of_ne (by linarith) hz) hneg
  · rw [abs_of_pos hpos, abs_le] at hle
    exact iff_of_false (by linarith) (by linarith)

/-- Settles O21: two zeros are a case of their own; another sum is rounded with its own sign, which is that of the operand
of larger magnitude. -/
theorem qaddZeroSigns : Obligations.QaddZeroSigns := by
  intro a b s x y ha hb
  refine ⟨fun hza hzb => ?_, fun hx hz => ?_, fun hz hle => ?_, fun hz hle => ?_⟩
  · exact exec_qadd_of_eq (qadd_of_zeros hza hzb) s
  · exact exec_qadd_of_eq ((roundsSum_qadd ha hb (.inl hx)).zero hz) s
  · obtain ⟨hx, hneg⟩ := add_neg_iff_of_abs_le hz hle
    obtain ⟨r, hr, hsign, -⟩ := (roundsSum_qadd ha hb (.inl hx)).correctlyRounded hz
    exact ⟨r, exec_qadd_of_eq hr s, by rw [hsign, signOf_eq_decide ha hx, decide_eq_decide.2 hneg]⟩
  · obtain ⟨hy, hneg⟩ := add_neg_iff_of_abs_le (add_comm x y ▸ hz) hle
    obtain ⟨r, hr, hsign, -⟩ := (roundsSum_qadd ha hb (.inr hy)).correctlyRounded hz
    exact ⟨r, exec_qadd_of_eq hr s, by rw [hsign, signOf_eq_decide hb hy, add_comm, decide_eq_decide.2 hneg]⟩

/-! The flipped operand -/

/-- A finite quad minus itself is +0: a zero is added to the zero of the other sign, and another sum cancels. -/
theorem qadd_flipSign_self {a : Quad} {x : Unpacked} (hx : unpack a = .ok x) : qadd a (flipSign a) = .ok (zeroQuad false) := by
  have ha := valueOf_eq_value hx
  by_cases hz : classOf a = .zero
  · rw [qadd_of_zeros hz (by rwa [classOf_flipSign]), signOf_flipSign, Bool.and_not_self]
  · exact (roundsSum_qadd ha (valueOf_flipSign ha) (.inl (mt (valueOf_eq_zero_iff ha).1 hz))).zero (add_neg_cancel _)

/-- Settles O24: QSUB is QADD of the flipped operand by definition, and the corner cases are QADD's. -/
theorem qsubAddsTheFlippedOperand : Obligations.QsubAddsTheFlippedOperand := by
  intro a b s
  refine ⟨rfl, signOf_flipSign b, exponentOf_flipSign b, fractionOf_flipSign b, classOf_flipSign b, fun ha hb hs => ?like,
    fun ha hb hs => ?unlike, fun hb ha hn => ?finite, fun hi hn => ?self, fun hi => ?infinity, ?minusZero, ?plusZero⟩ <;>
    apply exec_qsub_of_eq
  case like => exact qadd_of_opposite_infinities ha (by rwa [classOf_flipSign]) (by simp [hs])
  case unlike =>
    exact qadd_of_like_infinities ha (by rwa [classOf_flipSign]) (by rw [signOf_flipSign, Bool.eq_not_of_ne hs])
  case finite =>
    rw [← signOf_flipSign]
    exact qadd_of_right_infinity (by rwa [classOf_flipSign]) ha hn
  case self =>
    obtain ⟨x, hx⟩ := unpack_of_finite hi hn
    exact qadd_flipSign_self hx
  case infinity => exact qadd_of_opposite_infinities hi (by rwa [classOf_flipSign]) (by simp)
  case minusZero => rw [qadd_of_zeros] <;> simp
  case plusZero => rw [qadd_of_zeros] <;> simp

/-! Commutation -/

section
variable {a b : Quad} {x y : Unpacked}

theorem qadd_comm_of_unpack (hx : unpack a = .ok x) (hy : unpack b = .ok y) : qadd a b = qadd b a := by
  by_cases hz : classOf a = .zero ∧ classOf b = .zero
  · obtain ⟨ha, hb⟩ := hz
    rw [qadd_of_zeros ha hb, qadd_of_zeros hb ha, Bool.and_comm]
  · have ha := valueOf_eq_value hx
    have hb := valueOf_eq_value hy
    rw [← valueOf_eq_zero_iff ha, ← valueOf_eq_zero_iff hb, not_and_or] at hz
    refine (roundsSum_qadd ha hb hz).unique ?_
    rw [add_comm]
    exact roundsSum_qadd hb ha hz.symm

end

theorem qadd_comm (a b : Quad) : qadd a b = qadd b a := by
  by_cases hnan : classOf a = .nan ∨ classOf b = .nan
  · rw [qadd_of_nan hnan, qadd_of_nan hnan.symm]
  · obtain ⟨han, hbn⟩ := not_or.1 hnan
    obtain ha | ⟨x, hx⟩ := infinity_or_unpack han <;> obtain hb | ⟨y, hy⟩ := infinity_or_unpack hbn
    · by_cases hs : signOf a = signOf b
      · rw [qadd_of_like_infinities ha hb hs, qadd_of_like_infinities hb ha hs.symm, hs]
      · rw [qadd_of_opposite_infinities ha hb hs, qadd_of_opposite_infinities hb ha (Ne.symm hs)]
    · have hb := classOf_ne_infinity_of_unpack hy
      rw [qadd_of_left_infinity ha hb hbn, qadd_of_right_infinity ha hb hbn]
    · have ha := classOf_ne_infinity_of_unpack hx
      rw [qadd_of_right_infinity hb ha han, qadd_of_left_infinity hb ha han]
    · exact qadd_comm_of_unpack hx hy

theorem mulFinite_comm {a b : Quad} {x y : Unpacked} (hx : unpack a = .ok x) (hy : unpack b = .ok y) (s : Bool) :
    mulFinite s a b = mulFinite s b a := by
  simp only [mulFinite, hx, hy, bind, Except.bind, or_comm, Nat.mul_comm, Int.add_comm]

theorem qmul_comm (a b : Quad) : qmul a b = qmul b a := by
  have hinvalid : (classOf b = .infinity ∧ classOf a = .zero) ∨ (classOf b = .zero ∧ classOf a = .infinity) ↔
      (classOf a = .infinity ∧ classOf b = .zero) ∨ (classOf a = .zero ∧ classOf b = .infinity) := by
    rw [or_comm, and_comm, and_comm (a := classOf b = .infinity)]
  simp only [qmul, hinvalid, or_comm (a := classOf b = .nan), or_comm (a := classOf b = .infinity),
    Bool.xor_comm (signOf b)]
  split_ifs with hnan _ hinf
  · rfl
  · rfl
  · rfl
  · obtain ⟨han, hbn⟩ := not_or.1 hnan
    obtain ⟨hai, hbi⟩ := not_or.1 hinf
    obtain ⟨x, hx⟩ := unpack_of_finite hai han
    obtain ⟨y, hy⟩ := unpack_of_finite hbi hbn
    exact mulFinite_comm hx hy _

/-- Settles O19: a finite sum is fixed by the exact sum, and the special cases and the product are symmetric. -/
theorem additionAndMultiplicationCommute : Obligations.AdditionAndMultiplicationCommute := by
  intro a b s
  constructor
  · rw [exec_eq_finish, exec_eq_finish, commandResult, commandResult, qadd_comm]
  · rw [exec_eq_finish, exec_eq_finish, commandResult, commandResult, qmul_comm]

end Sys2Proof.Machine
end

section
/-! SUPPORT. The guard-round-sticky datapath of QADD: what its integer sum stands for, and that it rounds as the command rule
does (spec/41_add_subtract.md R144). -/

namespace Sys2Proof.Machine

/-! The aligned operand -/

/-- `m` shifted right by `d`, the bits shifted out jammed into the lowest bit (R144). -/
def jamShift (m d : ℕ) : ℕ := (m >>> d) ||| (if m % 2 ^ d != 0 then 1 else 0)

/-- A shift by more bits than there are jams as much. -/
theorem jamShift_min {m c : ℕ} (h : m < 2 ^ c) (d : ℕ) : jamShift m (min d c) = jamShift m d := by
  obtain hle | hle := le_total d c
  · rw [min_eq_left hle]
  · have hd : m < 2 ^ d := h.trans_le (Nat.pow_le_pow_right (by decide) hle)
    simp only [min_eq_right hle, jamShift, Nat.shiftRight_eq_div_pow, Nat.div_eq_of_lt h, Nat.div_eq_of_lt hd,
      Nat.mod_eq_of_lt h, Nat.mod_eq_of_lt hd]

theorem or_one_eq (n : ℕ) : n ||| 1 = 2 * (n / 2) + 1 := by
  have hodd : (n ||| 1) % 2 = 1 := Nat.or_mod_two_eq_one.2 (.inr rfl)
  have hhalf : (n ||| 1) / 2 = n / 2 := by rw [Nat.or_div_two]; exact Nat.or_zero _
  omega

/-- Where no bit is lost the shift is exact; otherwise its result is odd and less than one off. -/
theorem jamShift_cases (m d : ℕ) : jamShift m d * 2 ^ d = m ∨
    (m % 2 ^ d ≠ 0 ∧ jamShift m d % 2 = 1 ∧ jamShift m d * 2 ^ d < m + 2 ^ d ∧ m < jamShift m d * 2 ^ d + 2 ^ d) := by
  have hpos : 0 < 2 ^ d := Nat.two_pow_pos d
  have hdiv := Nat.div_add_mod' m (2 ^ d)
  have hlt := Nat.mod_lt m hpos
  rw [jamShift, Nat.shiftRight_eq_div_pow]
  generalize m % 2 ^ d = rest at hdiv hlt
  generalize m / 2 ^ d = n at hdiv
  obtain rfl | hrest := eq_or_ne rest 0
  · exact .inl (by simpa using hdiv)
  · refine .inr ⟨hrest, ?_⟩
    rw [if_pos (by simpa using hrest), or_one_eq]
    obtain heven | hodd := Nat.mod_two_eq_zero_or_one n
    · have hjam : 2 * (n / 2) + 1 = n + 1 := by omega
      rw [hjam, Nat.add_one_mul]
      exact ⟨by omega, by omega, by omega⟩
    · have hjam : 2 * (n / 2) + 1 = n := by omega
      rw [hjam]
      exact ⟨hodd, by omega, by omega⟩

theorem jamShift_mul_lt {m d c : ℕ} (hpos : 0 < c) (hc : c ≤ 2 ^ d) : jamShift m d * c < m + c := by
  have hlt : jamShift m d * 2 ^ d < m + 2 ^ d := by
    obtain heq | ⟨-, -, hlt, -⟩ := jamShift_cases m d
    · omega
    · exact hlt
  generalize jamShift m d = t at hlt
  cases t with
  | zero => omega
  | succ n =>
    rw [Nat.add_one_mul] at hlt ⊢
    have hle : n * c ≤ n * 2 ^ d := Nat.mul_le_mul_left n hc
    omega

theorem four_le_of_mod_ne_zero {n d : ℕ} (h : (n <<< 3) % 2 ^ d ≠ 0) : 4 ≤ d := by
  by_contra hd
  have hdvd : 2 ^ d ∣ n <<< 3 := by
    rw [Nat.shiftLeft_eq]
    exact (Nat.pow_dvd_pow 2 (by omega)).mul_left n
  exact h (Nat.mod_eq_zero_of_dvd hdvd)

/-! The datapath's sum -/

/-- The order in which the datapath takes its operands (R144). -/
def DatapathOrder (x y : Unpacked) : Prop :=
  y.exponent < x.exponent ∨ (x.exponent = y.exponent ∧ y.significand ≤ x.significand)

theorem DatapathOrder.exponent_le {x y : Unpacked} (h : DatapathOrder x y) : y.exponent ≤ x.exponent := by
  unfold DatapathOrder at h
  omega

/-- The datapath's sum of two ordered operands, in units of an eighth of the first one's last bit (R144). -/
def datapathSum (x y : Unpacked) : ℕ :=
  if x.sign = y.sign then (x.significand <<< 3) + jamShift (y.significand <<< 3) (x.exponent - y.exponent).toNat
  else (x.significand <<< 3) - jamShift (y.significand <<< 3) (x.exponent - y.exponent).toNat

section
variable {a b : Quad} {x y : Unpacked}

theorem addDatapathOrdered_eq (hy : unpack b = .ok y) :
    addDatapathOrdered x y = if datapathSum x y = 0 then .ok (zeroQuad false)
      else if (datapathSum x y).testBit 0 = true ∧ 2 ^ 130 ≤ datapathSum x y then
        roundPack x.sign (datapathSum x y >>> 1) (x.exponent - 2) true
      else roundPack x.sign (datapathSum x y) (x.exponent - 3) false := by
  obtain ⟨-, hlt, -⟩ := unpack_eq_ok hy
  have hwide : y.significand <<< 3 < 2 ^ 133 := by omega
  rw [datapathSum, ← jamShift_min hwide]
  rfl

/-- The aligned operand is not the larger one, and where bits were jammed into it it is far smaller. -/
theorem jamShift_le (hx : unpack a = .ok x) (hy : unpack b = .ok y) (hord : DatapathOrder x y) :
    jamShift (y.significand <<< 3) (x.exponent - y.exponent).toNat ≤ x.significand <<< 3 ∧
      ((y.significand <<< 3) % 2 ^ (x.exponent - y.exponent).toNat ≠ 0 →
        jamShift (y.significand <<< 3) (x.exponent - y.exponent).toNat + 2 ^ 130 ≤ x.significand <<< 3) := by
  obtain ⟨-, hlt, hyexp, -⟩ := unpack_eq_ok hy
  have hpos : y.exponent < x.exponent → 2 ^ 128 ≤ x.significand := fun hgt =>
    (leading_bit_or_lsbMin_of_unpack hx).resolve_right (by omega)
  refine ⟨?_, fun hlost => ?_⟩
  · obtain hgt | ⟨heq, hle⟩ := hord
    · have hlead := hpos hgt
      have htwo : 2 ^ 1 ≤ 2 ^ (x.exponent - y.exponent).toNat := Nat.pow_le_pow_right (by decide) (by omega)
      have hjam := jamShift_mul_lt (m := y.significand <<< 3) (by decide) htwo
      omega
    · rw [heq, sub_self, Int.toNat_zero]
      have hjam := jamShift_mul_lt (m := y.significand <<< 3) (d := 0) Nat.one_pos le_rfl
      omega
  · have hfour := four_le_of_mod_ne_zero hlost
    have hlead := hpos (by omega)
    have hsixteen : 2 ^ 4 ≤ 2 ^ (x.exponent - y.exponent).toNat := Nat.pow_le_pow_right (by decide) hfour
    have hjam := jamShift_mul_lt (m := y.significand <<< 3) (by decide) hsixteen
    omega

/-- The datapath's sum is as far off the exact one as the aligned operand is off the smaller one. -/
theorem abs_orderedSum_sub_datapathSum
    (hle : jamShift (y.significand <<< 3) (x.exponent - y.exponent).toNat ≤ x.significand <<< 3) :
    |8 * orderedSum x y - datapathSum x y * 2 ^ (x.exponent - y.exponent).toNat| =
      |((y.significand <<< 3 : ℕ) : ℤ) -
        (jamShift (y.significand <<< 3) (x.exponent - y.exponent).toNat * 2 ^ (x.exponent - y.exponent).toNat : ℕ)| := by
  unfold orderedSum datapathSum
  generalize (x.exponent - y.exponent).toNat = d at hle ⊢
  generalize jamShift (y.significand <<< 3) d = t at hle ⊢
  simp only [Nat.shiftLeft_eq] at hle ⊢
  split_ifs
  · congr 1
    push_cast
    ring
  · rw [← abs_neg]
    congr 1
    push_cast [hle]
    ring

/-- The datapath's sum is the exact one, or odd, of at least 131 bits and less than one off (R144). -/
theorem datapathSum_cases (hx : unpack a = .ok x) (hy : unpack b = .ok y) (hord : DatapathOrder x y) :
    8 * orderedSum x y = datapathSum x y * 2 ^ (x.exponent - y.exponent).toNat ∨
      (datapathSum x y % 2 = 1 ∧ 2 ^ 130 ≤ datapathSum x y ∧
        |8 * orderedSum x y - datapathSum x y * 2 ^ (x.exponent - y.exponent).toNat| <
          2 ^ (x.exponent - y.exponent).toNat) := by
  obtain ⟨hle, hfar⟩ := jamShift_le hx hy hord
  have herror := abs_orderedSum_sub_datapathSum hle
  obtain hexact | ⟨hlost, hodd, hlow, hhigh⟩ :=
    jamShift_cases (y.significand <<< 3) (x.exponent - y.exponent).toNat
  · rw [hexact, sub_self, abs_zero, abs_eq_zero, sub_eq_zero] at herror
    exact .inl herror
  · have hfar := hfar hlost
    have hsum : datapathSum x y % 2 = 1 ∧ 2 ^ 130 ≤ datapathSum x y := by
      unfold datapathSum
      split_ifs <;> omega
    refine .inr ⟨hsum.1, hsum.2, ?_⟩
    zify at hlow hhigh
    rw [herror, abs_lt]
    push_cast
    constructor <;> linarith

/-! The datapath's rounding -/

/-- An odd sum less than one off, its lowest bit dropped, with the sticky stands for the exact magnitude (R144). -/
theorem standsFor_of_odd {t : ℕ} {k : ℤ} {v : ℝ} (hodd : t % 2 = 1) (ht : 2 ^ 130 ≤ t) (hv : |v - t * 2 ^ k| < 2 ^ k) :
    StandsFor (t >>> 1) (k + 1) true v := by
  obtain ⟨h, rfl⟩ : ∃ h, t = 2 * h + 1 := ⟨t / 2, by omega⟩
  have hhalf : (2 * h + 1) >>> 1 = h := by omega
  have hscale : (2 : ℝ) ^ (k + 1) = 2 * 2 ^ k := by rw [zpow_add_one₀ two_ne_zero, mul_comm]
  obtain ⟨hlow, hhigh⟩ := abs_lt.1 hv
  push_cast at hlow hhigh
  have hlower : (h : ℝ) * 2 ^ (k + 1) < v := by
    rw [hscale]
    linarith
  rw [hhalf]
  refine ⟨fun _ => by omega, hlower.le, ?_, by simp [hlower.ne']⟩
  rw [hscale]
  linarith

theorem datapathSum_magnitude (hx : unpack a = .ok x) (hy : unpack b = .ok y) (hord : DatapathOrder x y) :
    ((orderedSum x y * 2 ^ y.exponent : ℚ) = datapathSum x y * 2 ^ (x.exponent - 3) ∨
      (datapathSum x y % 2 = 1 ∧ 2 ^ 130 ≤ datapathSum x y)) ∧
    |(orderedSum x y * 2 ^ y.exponent : ℚ) - datapathSum x y * 2 ^ (x.exponent - 3)| < 2 ^ (x.exponent - 3) := by
  have hpow : (0 : ℚ) < 2 ^ (y.exponent - 3) := by positivity
  have hy3 : (2 : ℚ) ^ y.exponent = 8 * 2 ^ (y.exponent - 3) := by
    rw [zpow_sub₀ two_ne_zero]
    norm_num
    ring
  have hx3 : (2 : ℚ) ^ (x.exponent - 3) = (2 ^ (x.exponent - y.exponent).toNat : ℤ) * 2 ^ (y.exponent - 3) := by
    rw [Int.cast_pow, Int.cast_ofNat, ← zpow_natCast, ← zpow_add₀ two_ne_zero]
    congr 1
    have hle := hord.exponent_le
    omega
  have hdiff : (orderedSum x y * 2 ^ y.exponent : ℚ) - datapathSum x y * 2 ^ (x.exponent - 3) =
      (8 * orderedSum x y - datapathSum x y * 2 ^ (x.exponent - y.exponent).toNat : ℤ) * 2 ^ (y.exponent - 3) := by
    rw [hy3, hx3]
    push_cast
    ring
  have hpos : (0 : ℤ) < 2 ^ (x.exponent - y.exponent).toNat := by positivity
  have hcases := datapathSum_cases hx hy hord
  rw [← sub_eq_zero] at hcases
  rw [← sub_eq_zero (b := _ * _), hdiff, hx3, abs_mul, abs_of_pos hpow, mul_lt_mul_iff_left₀ hpow, ← Int.cast_abs,
    Int.cast_lt]
  obtain hexact | ⟨hodd, hbig, hnear⟩ := hcases
  · rw [hexact]
    exact ⟨.inl (by simp), by simp⟩
  · exact ⟨.inr ⟨hodd, hbig⟩, hnear⟩

theorem roundsSum_addDatapathOrdered (hx : unpack a = .ok x) (hy : unpack b = .ok y) (hord : DatapathOrder x y) :
    RoundsSum (x.value + y.value) (addDatapathOrdered x y) := by
  rw [value_add_value hord.exponent_le, addDatapathOrdered_eq hy]
  obtain ⟨hexact, hnear⟩ := datapathSum_magnitude hx hy hord
  generalize (orderedSum x y * 2 ^ y.exponent : ℚ) = v at hexact hnear
  generalize datapathSum x y = t at hexact hnear
  have hpow : (0 : ℚ) < 2 ^ (x.exponent - 3) := by positivity
  by_cases hzero : t = 0
  · subst hzero
    have hv : v = 0 := by simpa using hexact
    rw [if_pos rfl, hv, mul_zero]
    exact roundsSum_zero
  · have hone : (1 : ℚ) ≤ t := by exact_mod_cast Nat.one_le_iff_ne_zero.2 hzero
    have hvpos : 0 < v := by nlinarith [(abs_lt.1 hnear).1]
    simp only [if_neg hzero, Nat.testBit_zero, decide_eq_true_eq]
    by_cases hodd : t % 2 = 1 ∧ 2 ^ 130 ≤ t
    · have hexp : x.exponent - 2 = x.exponent - 3 + 1 := by omega
      rw [if_pos hodd, hexp]
      exact roundsSum_of_standsFor hvpos (standsFor_of_odd hodd.1 hodd.2 (by simpa using cast_abs_sub_lt hnear))
    · have hv := hexact.resolve_right hodd
      rw [if_neg hodd]
      refine roundsSum_of_standsFor hvpos ?_
      rw [hv, cast_mul_zpow]
      exact standsFor_exact ..

/-- The datapath orders its operands and rounds their exact sum once (R144). -/
theorem roundsSum_addDatapath (hx : unpack a = .ok x) (hy : unpack b = .ok y) :
    RoundsSum (x.value + y.value) (addDatapath x y) := by
  unfold addDatapath
  split_ifs with hord
  · exact roundsSum_addDatapathOrdered hx hy hord
  · rw [add_comm]
    exact roundsSum_addDatapathOrdered hy hx (by unfold DatapathOrder; omega)

end

/-- Settles O23: both paths round the exact sum once, and so give one quad. -/
theorem addDatapathAgrees : Obligations.AddDatapathAgrees := by
  intro a b x y hx hy hxz _
  exact (roundsSum_addDatapath hx hy).unique (roundsSum_addFinite hx hy fun hz => hxz hz.1)

end Sys2Proof.Machine
end

section
/-! SUPPORT. The special values of QMUL, and its finite path, which rounds the exact product once, zeros included
(spec/42_multiply.md R170 to R173). -/

namespace Sys2Proof.Machine

section
variable {a b r : Quad}

theorem exec_qmul_of_eq (h : qmul a b = .ok r) (s : State) : exec (.qmul a b) s = .next (s.respond (okResponse r)) :=
  exec_eq_next_iff.2 ⟨r, h, rfl⟩

/-! The special values of QMUL (R171) -/

theorem qmul_of_nan (h : classOf a = .nan ∨ classOf b = .nan) : qmul a b = .ok nanQuad := if_pos h

theorem qmul_of_infinity_and_zero
    (h : (classOf a = .infinity ∧ classOf b = .zero) ∨ (classOf a = .zero ∧ classOf b = .infinity)) :
    qmul a b = .ok nanQuad := by
  simp only [qmul, if_pos h, ite_self]

theorem qmul_of_left_infinity (ha : classOf a = .infinity) (hz : classOf b ≠ .zero) (hn : classOf b ≠ .nan) :
    qmul a b = .ok (infQuad (signOf a ^^ signOf b)) := by
  simp [qmul, ha, hz, hn]

theorem qmul_of_right_infinity (hb : classOf b = .infinity) (hz : classOf a ≠ .zero) (hn : classOf a ≠ .nan) :
    qmul a b = .ok (infQuad (signOf a ^^ signOf b)) := by
  rw [qmul_comm, qmul_of_left_infinity hb hz hn, Bool.xor_comm]

end

/-- Settles O25: each clause is one of the cases that QMUL tells apart before it unpacks. -/
theorem qmulSpecialValues : Obligations.QmulSpecialValues := by
  intro a b s
  refine ⟨fun h => ?_, fun h => ?_, fun ha hz hn => ?_, fun hb hz hn => ?_⟩
  · exact exec_qmul_of_eq (qmul_of_nan h) s
  · exact exec_qmul_of_eq (qmul_of_infinity_and_zero h) s
  · exact exec_qmul_of_eq (qmul_of_left_infinity ha hz hn) s
  · exact exec_qmul_of_eq (qmul_of_right_infinity hb hz hn) s

/-! The finite path of QMUL (R170 step 2) -/

section
variable {a b : Quad} {x y : Unpacked}

theorem qmul_of_unpack (hx : unpack a = .ok x) (hy : unpack b = .ok y) :
    qmul a b = mulFinite (signOf a ^^ signOf b) a b := by
  simp [qmul, classOf_ne_nan_of_unpack hx, classOf_ne_nan_of_unpack hy, classOf_ne_infinity_of_unpack hx,
    classOf_ne_infinity_of_unpack hy]

theorem roundPack_zero (s : Bool) (k : ℤ) : roundPack s 0 k false = .ok (zeroQuad s) := by
  simp [roundPack, roundPackValue]

/-- RoundPack gives the signed zero of a zero product as well (R172). -/
theorem mulFinite_of_unpack (hx : unpack a = .ok x) (hy : unpack b = .ok y) (s : Bool) :
    mulFinite s a b = roundPack s (x.significand * y.significand) (x.exponent + y.exponent) false := by
  rw [mulFinite, hx, hy]
  dsimp only [bind, Except.bind]
  split_ifs with hz
  · rw [mul_eq_zero.2 hz, roundPack_zero]
  · rfl

/-- The magnitude of a product is the product of the significands, at the sum of the weight exponents (R173). -/
theorem abs_value_mul_value (x y : Unpacked) :
    |x.value * y.value| = (x.significand * y.significand : ℕ) * 2 ^ (x.exponent + y.exponent) := by
  rw [abs_mul, Unpacked.value, Unpacked.value, abs_signFactor_mul _ (by positivity), abs_signFactor_mul _ (by positivity),
    zpow_add₀ two_ne_zero]
  push_cast
  ring

end

/-- Settles O26: the finite path is RoundPack of the exact magnitude, with the XOR of the signs. -/
theorem qmulIsCorrectlyRounded : Obligations.QmulIsCorrectlyRounded := by
  intro a b s p r ha hb
  obtain ⟨x, hx, rfl⟩ := exists_unpack_of_valueOf ha
  obtain ⟨y, hy, rfl⟩ := exists_unpack_of_valueOf hb
  obtain ⟨q, l, hround, hpack⟩ := (standsFor_exact (x.significand * y.significand) (x.exponent + y.exponent)).roundsTo
  refine ⟨packRounded (signOf a ^^ signOf b) q l, exec_qmul_of_eq ?_ s, signOf_packRounded .., ?_⟩
  · rw [qmul_of_unpack hx hy, mulFinite_of_unpack hx hy, hpack]
  · rw [abs_value_mul_value, cast_mul_zpow]
    exact hround.nearestEven _

end Sys2Proof.Machine
end

section
/-! SUPPORT. The schoolbook limb product: the columns of two buffers carry the product of their values, and the carry chain
writes that value into slots of 32 bits (spec/42_multiply.md R174). -/

namespace Sys2Proof.Machine

/-! Columns before the carries -/

/-- The value of `n` columns, the most significant first, each 2^32 times the next one's weight; a column may hold more than
32 bits (R174). -/
def columnsValue (f : ℕ → ℕ) : ℕ → ℕ
  | 0 => 0
  | n + 1 => columnsValue f n * 2 ^ 32 + f n

section
variable (f g : ℕ → ℕ) (c n : ℕ)

theorem columnsValue_succ : columnsValue f (n + 1) = columnsValue f n * 2 ^ 32 + f n := rfl

/-- The first column apart from those after it. -/
theorem columnsValue_succ_left :
    columnsValue f (n + 1) = f 0 * 2 ^ (32 * n) + columnsValue (fun i => f (i + 1)) n := by
  induction n with
  | zero => simp [columnsValue]
  | succ n ih =>
    rw [columnsValue_succ, ih, columnsValue_succ, Nat.mul_succ, pow_add]
    ring

theorem columnsValue_mul_add :
    columnsValue (fun i => c * f i + g i) n = c * columnsValue f n + columnsValue g n := by
  induction n with
  | zero => rfl
  | succ n ih =>
    rw [columnsValue_succ, ih, columnsValue_succ, columnsValue_succ]
    ring

theorem columnsValue_zero : columnsValue (fun _ => 0) n = 0 := by
  induction n with
  | zero => rfl
  | succ n ih => rw [columnsValue_succ, ih, Nat.zero_mul]

end

theorem limbAt_cons_zero (x : Slot) (l : Limbs) : limbAt (x :: l) 0 = x.toNat := rfl

theorem limbAt_cons_succ (x : Slot) (l : Limbs) (i : ℕ) : limbAt (x :: l) (i + 1) = limbAt l i := rfl

theorem limbAt_of_length_le {l : Limbs} {i : ℕ} (h : l.length ≤ i) : limbAt l i = 0 := by
  rw [limbAt, List.getD_eq_default _ _ h]
  rfl

/-- The slots of a buffer as columns, and columns of 0 beyond its end (R102). -/
theorem columnsValue_limbAt (l : Limbs) (k : ℕ) : columnsValue (limbAt l) (l.length + k) = intVal l * 2 ^ (32 * k) := by
  induction k with
  | zero =>
    rw [Nat.add_zero, Nat.mul_zero, pow_zero, mul_one]
    induction l with
    | nil => rfl
    | cons x l ih =>
      simp only [List.length_cons, columnsValue_succ_left, limbAt_cons_zero, limbAt_cons_succ, ih, intVal_cons]
  | succ k ih =>
    rw [← Nat.add_assoc, columnsValue_succ, ih, limbAt_of_length_le (Nat.le_add_right ..), Nat.mul_succ, pow_add]
    ring

theorem mulColumn_nil (b : Limbs) (i : ℕ) : mulColumn [] b i = 0 := by
  simp [mulColumn, limbAt]

theorem mulColumn_cons_zero (x : Slot) (l b : Limbs) : mulColumn (x :: l) b 0 = x.toNat * limbAt b 0 := by
  simp [mulColumn, limbAt_cons_zero]

/-- A slot put in front adds its own partial product to a column and moves the others one column down. -/
theorem mulColumn_cons_succ (x : Slot) (l b : Limbs) (i : ℕ) :
    mulColumn (x :: l) b (i + 1) = x.toNat * limbAt b (i + 1) + mulColumn l b i := by
  simp [mulColumn, List.range_succ_eq_map (n := i + 1), Function.comp_def, limbAt_cons_zero, limbAt_cons_succ]

theorem columnsValue_mulColumn_cons (x : Slot) (l b : Limbs) (n : ℕ) :
    columnsValue (mulColumn (x :: l) b) (n + 1) =
      x.toNat * columnsValue (limbAt b) (n + 1) + columnsValue (mulColumn l b) n := by
  simp only [columnsValue_succ_left, mulColumn_cons_zero, mulColumn_cons_succ, columnsValue_mul_add]
  ring

/-- Buffers of `m` and `k + 1` slots have `m + k` columns, whose value is the product of the buffers' values (R174). -/
theorem columnsValue_mulColumn (a : Limbs) {b : Limbs} {k : ℕ} (hb : b.length = k + 1) :
    columnsValue (mulColumn a b) (a.length + k) = intVal a * intVal b := by
  induction a with
  | nil =>
    rw [funext (mulColumn_nil b), columnsValue_zero, intVal_nil, Nat.zero_mul]
  | cons x a ih =>
    have hslots : a.length + k + 1 = b.length + a.length := by omega
    rw [List.length_cons, Nat.add_right_comm, columnsValue_mulColumn_cons, ih, hslots, columnsValue_limbAt, intVal_cons]
    ring

/-! The carry chain -/

section
variable (a b : Limbs)

theorem toNat_ofNat_mod (m : ℕ) : (BitVec.ofNat 64 (m % 2 ^ 32)).toNat = m % 2 ^ 32 := by
  rw [BitVec.toNat_ofNat]
  omega

theorem length_mulColumns (n carry : ℕ) (done : Limbs) : (mulColumns a b n carry done).length = n + done.length := by
  induction n generalizing carry done with
  | zero => rw [mulColumns, Nat.zero_add]
  | succ n ih => rw [mulColumns, ih, List.length_cons, Nat.add_right_comm, Nat.add_assoc]

theorem wellFormed_mulColumns (n carry : ℕ) {done : Limbs} (h : Limbs.wellFormed done = true) :
    Limbs.wellFormed (mulColumns a b n carry done) = true := by
  induction n generalizing carry done with
  | zero => exact h
  | succ n ih =>
    refine ih _ (wellFormed_cons.2 ⟨?_, h⟩)
    rw [toNat_ofNat_mod]
    exact Nat.mod_lt _ (Nat.two_pow_pos 32)

/-- The slots made, the carry and the columns to come keep their value, as far as the slots reach: a column splits into the
32 bits of its slot and the carry into the next (R174). -/
theorem intVal_mulColumns (n carry : ℕ) (done : Limbs) :
    intVal (mulColumns a b n carry done) ≡
      (carry + columnsValue (mulColumn a b) n) * 2 ^ (32 * done.length) + intVal done
      [MOD 2 ^ (32 * (n + done.length))] := by
  induction n generalizing carry done with
  | zero =>
    rw [mulColumns, Nat.zero_add]
    exact (Nat.mul_add_mod' ..).symm
  | succ n ih =>
    have hstep := ih ((carry + mulColumn a b n) / 2 ^ 32) (BitVec.ofNat 64 ((carry + mulColumn a b n) % 2 ^ 32) :: done)
    have hsplit := Nat.div_add_mod' (carry + mulColumn a b n) (2 ^ 32)
    have hvalue : (carry + columnsValue (mulColumn a b) (n + 1)) * 2 ^ (32 * done.length) + intVal done =
        ((carry + mulColumn a b n) / 2 ^ 32 + columnsValue (mulColumn a b) n) * 2 ^ (32 * (done.length + 1)) +
          ((carry + mulColumn a b n) % 2 ^ 32 * 2 ^ (32 * done.length) + intVal done) := by
      rw [columnsValue_succ, Nat.mul_succ, pow_add]
      linear_combination 2 ^ (32 * done.length) * hsplit.symm
    rw [intVal_cons, toNat_ofNat_mod, List.length_cons, ← hvalue, ← Nat.add_assoc, Nat.add_right_comm] at hstep
    rwa [mulColumns, Nat.shiftRight_eq_div_pow]

end

/-- MulLimbs of two 5-slot buffers whose product fits the 9 slots is their exact product (R174). -/
theorem intVal_mulLimbs {a b : Limbs} (ha : a.length = 5) (hb : b.length = 5)
    (hfits : intVal a * intVal b < 2 ^ (32 * 9)) : intVal (mulLimbs a b) = intVal a * intVal b := by
  have hlen : (mulLimbs a b).length = 9 := length_mulColumns ..
  have hlt : intVal (mulLimbs a b) < 2 ^ (32 * 9) := hlen ▸ intVal_lt (wellFormed_mulColumns a b 9 0 rfl)
  have hcolumns : columnsValue (mulColumn a b) 9 = intVal a * intVal b := by
    rw [← columnsValue_mulColumn a hb, ha]
  have hmod : intVal (mulLimbs a b) ≡ intVal a * intVal b [MOD 2 ^ (32 * 9)] := by
    have hcarries := intVal_mulColumns a b 9 0 []
    simp only [hcolumns, intVal_nil, List.length_nil, Nat.zero_add, Nat.add_zero, Nat.mul_zero, pow_zero,
      mul_one] at hcarries
    exact hcarries
  exact hmod.eq_of_lt_of_lt hlt hfits

/-- Settles O27: 5 slots hold each significand and 9 their product, so no carry is lost. -/
theorem mulLimbsIsTheExactProduct : Obligations.MulLimbsIsTheExactProduct := by
  intro a b _ ha _ hb
  have hvalueA : intVal (toLimbs 5 a) = a := intVal_toLimbs_of_lt (ha.trans (by decide))
  have hvalueB : intVal (toLimbs 5 b) = b := intVal_toLimbs_of_lt (hb.trans (by decide))
  have hfits : a * b < 2 ^ (32 * 9) :=
    (Nat.mul_lt_mul'' ha hb).trans_le (two_pow_mul_self_le (by decide))
  refine ⟨?_, wellFormed_mulColumns _ _ _ _ rfl⟩
  rw [intVal_mulLimbs (length_toLimbs ..) (length_toLimbs ..) (by rwa [hvalueA, hvalueB]), hvalueA, hvalueB]

/-! The datapath -/

/-- RoundPack sees the exact magnitude alone, not how it is split into a significand and a weight exponent (R113). -/
theorem roundPack_eq_of_magnitude_eq {m n : ℕ} {j k : ℤ} (h : (m : ℚ) * 2 ^ j = n * 2 ^ k) (s : Bool) :
    roundPack s m j false = roundPack s n k false := by
  obtain ⟨q, l, hround, hpack⟩ := (standsFor_exact m j).roundsTo
  obtain ⟨q', l', hround', hpack'⟩ := (standsFor_exact n k).roundsTo
  rw [← cast_mul_zpow, h, cast_mul_zpow] at hround
  rw [hpack, hpack', hround.packRounded_unique hround']

/-- Settles O28: normalizing keeps each operand's magnitude, and the limb product is exact. -/
theorem mulDatapathAgrees : Obligations.MulDatapathAgrees := by
  intro s a b x y hx hy hxz hyz
  obtain ⟨-, hxlt, -⟩ := unpack_eq_ok hx
  obtain ⟨-, hylt, -⟩ := unpack_eq_ok hy
  obtain ⟨hxlow, hxhigh, hxvalue⟩ := normalizeKeepsTheValue _ x.exponent (Nat.pos_of_ne_zero hxz) hxlt
  obtain ⟨hylow, hyhigh, hyvalue⟩ := normalizeKeepsTheValue _ y.exponent (Nat.pos_of_ne_zero hyz) hylt
  obtain ⟨hproduct, -⟩ := mulLimbsIsTheExactProduct _ _ hxlow hxhigh hylow hyhigh
  rw [mulFinite_of_unpack hx hy, mulDatapath, hproduct]
  refine roundPack_eq_of_magnitude_eq ?_ s
  rw [Nat.cast_mul, Nat.cast_mul, zpow_add₀ two_ne_zero, zpow_add₀ two_ne_zero, mul_mul_mul_comm, hxvalue, hyvalue,
    mul_mul_mul_comm]

end Sys2Proof.Machine
end

section
/-! SUPPORT. The division kernel on integers: one limb, the four limbs, and the exact division they carry out
(spec/43_divide.md R194 to R200). -/

namespace Sys2Proof.Machine

/-! One limb (R195 steps 2 to 4, R196) -/

section
variable {d r : ℕ}

/-- A remainder below the divisor leaves a limb of 32 bits. -/
theorem limb_lt (hr : r < d) : (r <<< 32) / d < 2 ^ 32 := by
  rw [Nat.shiftLeft_eq, Nat.div_lt_iff_lt_mul (Nat.zero_lt_of_lt hr), mul_comm (2 ^ 32)]
  exact Nat.mul_lt_mul_of_pos_right hr (Nat.two_pow_pos 32)

/-- The trial limb divides by the divisor with its low 65 bits cleared. -/
theorem trial_eq_div (n d : ℕ) : (n >>> 65) / (d >>> 65) = n / (2 ^ 65 * (d >>> 65)) := by
  rw [Nat.shiftRight_eq_div_pow n, Nat.div_div_eq_div_mul]

/-- The low 65 bits of the divisor add less to `q + 1` divisors than one cleared divisor holds, where `q` is a limb, so the
trial limb exceeds the true one by at most one (R196). -/
theorem trial_bounds (hd : 2 ^ 128 ≤ d) (hr : r < d) :
    (r <<< 32) / d ≤ ((r <<< 32) >>> 65) / (d >>> 65) ∧ ((r <<< 32) >>> 65) / (d >>> 65) ≤ (r <<< 32) / d + 1 := by
  have hlimb := limb_lt hr
  have hnext : r <<< 32 < ((r <<< 32) / d + 1) * d :=
    (Nat.div_lt_iff_lt_mul (Nat.zero_lt_of_lt hr)).1 (Nat.lt_succ_self _)
  have hsplit : d = 2 ^ 65 * (d >>> 65) + d % 2 ^ 65 := by
    rw [Nat.shiftRight_eq_div_pow, Nat.div_add_mod]
  have hlow : d % 2 ^ 65 < 2 ^ 65 := Nat.mod_lt _ (Nat.two_pow_pos 65)
  rw [trial_eq_div]
  generalize d % 2 ^ 65 = low at hsplit hlow
  generalize 2 ^ 65 * (d >>> 65) = cleared at hsplit ⊢
  have hpos : 0 < cleared := by omega
  refine ⟨Nat.div_le_div_left (by omega) hpos, Nat.le_of_lt_succ ?_⟩
  have hrest : ((r <<< 32) / d + 1) * low ≤ 2 ^ 32 * 2 ^ 65 := Nat.mul_le_mul hlimb hlow.le
  rw [Nat.div_lt_iff_lt_mul hpos]
  calc r <<< 32 < ((r <<< 32) / d + 1) * d := hnext
    _ = ((r <<< 32) / d + 1) * cleared + ((r <<< 32) / d + 1) * low := by rw [← Nat.mul_add, ← hsplit]
    _ ≤ ((r <<< 32) / d + 1) * cleared + cleared := by omega
    _ = ((r <<< 32) / d).succ.succ * cleared := (Nat.succ_mul ..).symm

/-- The limb step is one step of long division: the add-back mends a trial limb that is one too large (R195, R196). -/
theorem divLimb_eq (hd : 2 ^ 128 ≤ d) (hr : r < d) :
    divLimb d r = ((r <<< 32) / d, (((r <<< 32) % d : ℕ) : ℤ)) := by
  obtain ⟨hlow, hhigh⟩ := trial_bounds hd hr
  have hdiv := Nat.div_add_mod' (r <<< 32) d
  have hmod : (r <<< 32) % d < d := Nat.mod_lt _ (Nat.zero_lt_of_lt hr)
  unfold divLimb
  dsimp only
  obtain htrial | htrial : ((r <<< 32) >>> 65) / (d >>> 65) = (r <<< 32) / d ∨
      ((r <<< 32) >>> 65) / (d >>> 65) = (r <<< 32) / d + 1 := by omega
  · rw [htrial, if_neg (by omega)]
    exact Prod.ext rfl (by dsimp only; omega)
  · rw [htrial, Nat.succ_mul, if_pos (by omega)]
    exact Prod.ext rfl (by dsimp only; omega)

end

/-- Settles O31: the trial limb is the true one or one more, and the limb step is exact. -/
theorem trialLimbNeedsAtMostOneCorrection : Obligations.TrialLimbNeedsAtMostOneCorrection := by
  intro d r hd _ hr
  obtain ⟨hlow, hhigh⟩ := trial_bounds hd hr
  exact ⟨hlow, hhigh, divLimb_eq hd hr, limb_lt hr⟩

/-! The limbs (R195 step 5, R198) -/

/-- The limbs still to come keep `q * d + r` at its weight and leave a remainder below the divisor; the early stop makes the
same division (R195, R198). -/
theorem divLimbs_spec {d : ℕ} (hd : 2 ^ 128 ≤ d) (n q : ℕ) {r : ℕ} (hr : r < d) :
    (q * d + r) * 2 ^ (32 * n) = (divLimbs d n q r).1 * d + (divLimbs d n q r).2 ∧ (divLimbs d n q r).2 < d := by
  induction n generalizing q r with
  | zero => exact ⟨by simp [divLimbs], hr⟩
  | succ n ih =>
    unfold divLimbs
    split_ifs with hz
    · refine ⟨?_, by omega⟩
      rw [hz, Nat.shiftLeft_eq]
      ring
    · obtain ⟨hvalue, hlt⟩ := ih ((q <<< 32) + (r <<< 32) / d) (Nat.mod_lt (r <<< 32) (Nat.zero_lt_of_lt hr))
      rw [divLimb_eq hd hr, Int.toNat_natCast]
      refine ⟨?_, hlt⟩
      have hdiv := Nat.div_add_mod' (r <<< 32) d
      rw [← hvalue, Nat.mul_succ, pow_add, Nat.shiftLeft_eq q]
      rw [Nat.shiftLeft_eq] at hdiv ⊢
      linear_combination 2 ^ (32 * n) * hdiv.symm

/-! The kernel (R195, R199, R200) -/

section
variable {ma mb : ℕ}

/-- The significand that the kernel divides, doubled where it is below the divisor (R200). -/
theorem divPreShift_fst (ma mb : ℕ) (k : ℤ) : (divPreShift ma mb k).1 = if ma < mb then 2 * ma else ma := by
  unfold divPreShift
  split_ifs
  · rw [Nat.shiftLeft_eq, pow_one, mul_comm]
  · rfl

theorem divPreShift_snd (ma mb : ℕ) (k : ℤ) : (divPreShift ma mb k).2 = k - if ma < mb then 1 else 0 := by
  unfold divPreShift
  split_ifs
  · rfl
  · rw [sub_zero]

/-- The pre-shifted dividend starts with the digit 1: it is the divisor or more, and less than twice as much (R200). -/
theorem divPreShift_bounds (hma : 2 ^ 128 ≤ ma) (hma' : ma < 2 ^ 129) (hmb : 2 ^ 128 ≤ mb) (hmb' : mb < 2 ^ 129)
    (k : ℤ) :
    mb ≤ (divPreShift ma mb k).1 ∧ (divPreShift ma mb k).1 < 2 * mb := by
  rw [divPreShift_fst]
  split_ifs <;> omega

/-- The pre-shift keeps the magnitude (R200). -/
theorem divPreShift_value (ma mb : ℕ) (k : ℤ) :
    ((divPreShift ma mb k).1 : ℚ) * 2 ^ (divPreShift ma mb k).2 = ma * 2 ^ k := by
  unfold divPreShift
  split_ifs
  · exact shiftLeft_mul_zpow_sub ma 1 k
  · rfl

/-- The kernel divides the pre-shifted dividend, extended by 128 bits, with remainder (R195). -/
theorem divKernel_spec (hma : 2 ^ 128 ≤ ma) (hma' : ma < 2 ^ 129) (hmb : 2 ^ 128 ≤ mb) (hmb' : mb < 2 ^ 129)
    (ka kb : ℤ) :
    (if ma < mb then 2 * ma else ma) * 2 ^ 128 =
        (divKernel ma ka mb kb).quotient * mb + (divKernel ma ka mb kb).remainder ∧
      (divKernel ma ka mb kb).remainder < mb := by
  obtain ⟨hle, hlt⟩ := divPreShift_bounds hma hma' hmb hmb' (ka - kb - 128)
  obtain ⟨hvalue, hrem⟩ := divLimbs_spec hmb 4 1 (r := (divPreShift ma mb (ka - kb - 128)).1 - mb) (by omega)
  rw [Nat.one_mul, Nat.add_sub_cancel' hle] at hvalue
  rw [← divPreShift_fst ma mb (ka - kb - 128)]
  exact ⟨hvalue, hrem⟩

/-- Settles O32: the quotient lies between 1 and 2, at 128 extended bits, because its first digit is 1. -/
theorem divKernelInvariants : Obligations.DivKernelInvariants := by
  intro ma mb ka kb hma hma' hmb hmb'
  obtain ⟨hvalue, hrem⟩ := divKernel_spec hma hma' hmb hmb' ka kb
  obtain ⟨hle, hlt⟩ := divPreShift_bounds hma hma' hmb hmb' 0
  rw [divPreShift_fst] at hle hlt
  refine ⟨hvalue, hrem, ?_, ?_, divPreShift_snd ..⟩
  · refine Nat.le_of_lt_succ (Nat.lt_of_mul_lt_mul_right (a := mb) ?_)
    rw [Nat.succ_mul]
    omega
  · refine Nat.lt_of_mul_lt_mul_right (a := mb) ?_
    omega

/-- Settles O33: a tie would make 2^129 a divisor of the odd `2 * Q + 1` times the divisor, which is below 2^129. -/
theorem divKernelNeverMeetsATie : Obligations.DivKernelNeverMeetsATie := by
  intro ma mb ka kb hma hma' hmb hmb' htie
  obtain ⟨hvalue, -⟩ := divKernel_spec hma hma' hmb hmb' ka kb
  generalize (divKernel ma ka mb kb).quotient = q at hvalue
  generalize (divKernel ma ka mb kb).remainder = r at hvalue htie
  have hodd : (if ma < mb then 2 * ma else ma) * 2 ^ 129 = (2 * q + 1) * mb := by
    linear_combination 2 * hvalue + htie
  have hcoprime : Nat.Coprime (2 ^ 129) (2 * q + 1) := Nat.Coprime.pow_left _ (by simp)
  have hdvd : 2 ^ 129 ∣ mb := hcoprime.dvd_of_dvd_mul_left (hodd ▸ Nat.dvd_mul_left ..)
  exact absurd (Nat.le_of_dvd (by omega) hdvd) (not_le.2 hmb')

end

end Sys2Proof.Machine
end

section
/-! SUPPORT. The special values of QDIV, and its finite path and datapath, which both round the exact quotient once
(spec/43_divide.md R191 to R193, R201). -/

namespace Sys2Proof.Machine

/-! The special values of QDIV (R191, R192) -/

section
variable {a b r : Quad}

theorem exec_qdiv_of_eq (h : qdiv a b = .ok r) (s : State) : exec (.qdiv a b) s = .next (s.respond (okResponse r)) :=
  exec_eq_next_iff.2 ⟨r, h, rfl⟩

theorem qdiv_of_nan (h : classOf a = .nan ∨ classOf b = .nan) : qdiv a b = .ok nanQuad := if_pos h

theorem qdiv_of_infinities (ha : classOf a = .infinity) (hb : classOf b = .infinity) : qdiv a b = .ok nanQuad := by
  simp [qdiv, ha, hb]

theorem qdiv_of_infinite_dividend (ha : classOf a = .infinity) (hb : classOf b ≠ .infinity) (hn : classOf b ≠ .nan) :
    qdiv a b = .ok (infQuad (signOf a ^^ signOf b)) := by
  simp [qdiv, ha, hb, hn]

theorem qdiv_of_infinite_divisor (hb : classOf b = .infinity) (ha : classOf a ≠ .infinity) (hn : classOf a ≠ .nan) :
    qdiv a b = .ok (zeroQuad (signOf a ^^ signOf b)) := by
  simp [qdiv, ha, hb, hn]

theorem qdiv_of_zeros (ha : classOf a = .zero) (hb : classOf b = .zero) : qdiv a b = .ok nanQuad := by
  simp [qdiv, ha, hb]

/-- An infinite dividend gives the same Infinity as a finite one (R191). -/
theorem qdiv_of_zero_divisor (hb : classOf b = .zero) (ha : classOf a ≠ .zero) (hn : classOf a ≠ .nan) :
    qdiv a b = .ok (infQuad (signOf a ^^ signOf b)) := by
  simp [qdiv, ha, hb, hn]

end

/-- The exact quotient of 1 by MINS is beyond the overflow threshold (R191). -/
theorem qdiv_one_minSubnormal :
    qdiv 0x0_7FFFFFFF_0000000000000000_0000000000000000#161 0x0_00000000_0000000000000000_0000000000000001#161 =
      .ok (infQuad false) := by
  decide +kernel

/-- Settles O29: each clause is one of the cases that QDIV tells apart before it unpacks, but for the last, which
overflows. -/
theorem qdivSpecialValues : Obligations.QdivSpecialValues := by
  intro a b s
  refine ⟨fun h => ?_, fun ha hb => ?_, fun ha hb hn => ?_, fun hb ha hn => ⟨signOf a ^^ signOf b, ?_⟩,
    fun hb ha => ?_, fun hb ha hn => ?_, ?_⟩
  · exact exec_qdiv_of_eq (qdiv_of_nan h) s
  · exact exec_qdiv_of_eq (qdiv_of_infinities ha hb) s
  · exact exec_qdiv_of_eq (qdiv_of_infinite_dividend ha hb hn) s
  · exact exec_qdiv_of_eq (qdiv_of_infinite_divisor hb ha hn) s
  · exact exec_qdiv_of_eq (qdiv_of_zeros ha hb) s
  · exact exec_qdiv_of_eq (qdiv_of_zero_divisor hb ha hn) s
  · exact exec_qdiv_of_eq qdiv_one_minSubnormal s

/-! Quotients with a remainder as the sticky -/

/-- A quotient of integers, its remainder the sticky, is a call of RoundPack for the exact quotient, where an inexact one
leaves at least 130 bits (R193). -/
theorem standsFor_quotient {n d : ℕ} (k : ℤ) (hd : 0 < d) (hpre : n % d ≠ 0 → 2 ^ 129 ≤ n / d) :
    StandsFor (n / d) k (n % d != 0) (n / d * 2 ^ k) := by
  have hk : (0 : ℝ) < 2 ^ k := by positivity
  have hd' : (0 : ℝ) < d := by exact_mod_cast hd
  have hmod : (n % d : ℕ) < (d : ℝ) := by exact_mod_cast Nat.mod_lt n hd
  have hdiv : (n : ℝ) / d = (n / d : ℕ) + (n % d : ℕ) / d := by
    have h : ((n / d : ℕ) : ℝ) * d + (n % d : ℕ) = n := by exact_mod_cast Nat.div_add_mod' n d
    field_simp
    linarith
  have hrest : ((n % d : ℕ) : ℝ) / d < 1 := (div_lt_one hd').2 hmod
  have hnonneg : 0 ≤ ((n % d : ℕ) : ℝ) / d := by positivity
  rw [hdiv]
  refine ⟨fun h => hpre (bne_iff_ne.1 h), by gcongr; linarith, by gcongr, ?_⟩
  rw [mul_left_inj' hk.ne', add_eq_left, div_eq_zero_iff, or_iff_left hd'.ne', Nat.cast_eq_zero]
  simp

/-- RoundPack sees the magnitude that a call stands for alone (R113). -/
theorem StandsFor.roundPack_eq {m m' : ℕ} {k k' : ℤ} {st st' : Bool} {v : ℝ} (h : StandsFor m k st v)
    (h' : StandsFor m' k' st' v) (s : Bool) : roundPack s m k st = roundPack s m' k' st' := by
  obtain ⟨q, l, hround, hpack⟩ := h.roundsTo
  obtain ⟨q', l', hround', hpack'⟩ := h'.roundsTo
  rw [hpack, hpack', hround.packRounded_unique hround']

/-! The finite path of QDIV (R190 step 2) -/

section
variable {a b : Quad} {x y : Unpacked}

theorem divFinite_of_unpack (hx : unpack a = .ok x) (hy : unpack b = .ok y) (s : Bool) :
    divFinite s a b =
      roundPack s (x.significand <<< Config.divisionExtension / y.significand)
        (x.exponent - y.exponent - Config.divisionExtension)
        (x.significand <<< Config.divisionExtension % y.significand != 0) := by
  rw [divFinite, hx, hy]
  dsimp only [bind, Except.bind]

/-- RoundPack gives the signed zero of a zero dividend as well (R192). -/
theorem qdiv_of_nonzero_divisor (hx : unpack a = .ok x) (hy : unpack b = .ok y) (hyz : y.significand ≠ 0) :
    qdiv a b = divFinite (signOf a ^^ signOf b) a b := by
  by_cases hxz : x.significand = 0
  · obtain ⟨-, -, -, hzero, -⟩ := unpack_eq_ok hx
    have hdiv : divFinite (signOf a ^^ signOf b) a b = .ok (zeroQuad (signOf a ^^ signOf b)) := by
      simp [divFinite_of_unpack hx hy, hxz, roundPack_zero]
    simp [qdiv, hdiv, hzero.1 hxz, classOf_ne_nan_of_unpack hy, classOf_ne_infinity_of_unpack hy,
      classOf_ne_zero_of_unpack hy hyz]
  · exact qdiv_of_unpack hx hy hxz hyz

/-- The magnitude of the exact quotient of two operands (R193). -/
noncomputable def quotientMagnitude (x y : Unpacked) : ℝ :=
  x.significand * 2 ^ x.exponent / (y.significand * 2 ^ y.exponent)

theorem cast_abs_value_div_value (x y : Unpacked) : ((|x.value / y.value| : ℚ) : ℝ) = quotientMagnitude x y := by
  rw [abs_div, Unpacked.value, Unpacked.value, abs_signFactor_mul _ (by positivity), abs_signFactor_mul _ (by positivity),
    quotientMagnitude]
  push_cast
  rfl

/-- The finite path is RoundPack of a call for the exact quotient (R193). -/
theorem divFinite_standsFor (hx : unpack a = .ok x) (hy : unpack b = .ok y) (hyz : y.significand ≠ 0) :
    ∃ m k st, StandsFor m k st (quotientMagnitude x y) ∧ ∀ s, divFinite s a b = roundPack s m k st := by
  obtain ⟨-, hylt, -⟩ := unpack_eq_ok hy
  have hcall := standsFor_quotient (n := x.significand <<< Config.divisionExtension)
    (x.exponent - y.exponent - Config.divisionExtension) (Nat.pos_of_ne_zero hyz) fun hmod =>
      le_extended_quotient (fun hxz => hmod (by simp [hxz])) hyz hylt
  refine ⟨_, _, _, ?_, divFinite_of_unpack hx hy⟩
  convert hcall using 1
  have hy' : (y.significand : ℝ) ≠ 0 := by exact_mod_cast hyz
  rw [quotientMagnitude, Nat.shiftLeft_eq, zpow_sub₀ two_ne_zero, zpow_sub₀ two_ne_zero, zpow_natCast]
  push_cast
  field_simp

end

/-- Settles O30: the finite path is RoundPack of a call for the exact quotient, with the XOR of the signs. -/
theorem qdivIsCorrectlyRounded : Obligations.QdivIsCorrectlyRounded := by
  intro a b s p ha
  obtain ⟨x, hx, rfl⟩ := exists_unpack_of_valueOf ha
  refine ⟨fun r hb hr => ?_, fun hb => ?_⟩
  · obtain ⟨y, hy, rfl⟩ := exists_unpack_of_valueOf hb
    have hyz : y.significand ≠ 0 := mt Unpacked.value_of_significand_eq_zero hr
    obtain ⟨m, k, st, hcall, hdiv⟩ := divFinite_standsFor hx hy hyz
    obtain ⟨q, l, hround, hpack⟩ := hcall.roundsTo
    refine ⟨packRounded (signOf a ^^ signOf b) q l, exec_qdiv_of_eq ?_ s, signOf_packRounded .., ?_⟩
    · rw [qdiv_of_nonzero_divisor hx hy hyz, hdiv, hpack]
    · rw [cast_abs_value_div_value]
      exact hround.nearestEven _
  · exact exec_qdiv_of_eq
      (qdiv_of_infinite_divisor hb (classOf_ne_infinity_of_unpack hx) (classOf_ne_nan_of_unpack hx)) s

/-! The datapath (R201) -/

/-- One bit more of a quotient is 1 where the doubled remainder reaches the divisor, and takes one divisor off it (R199). -/
theorem two_mul_div_mod {n d q r : ℕ} (hn : n = q * d + r) (hr : r < d) :
    2 * q + (decide (d ≤ 2 * r)).toNat = 2 * n / d ∧ 2 * r - (decide (d ≤ 2 * r)).toNat * d = 2 * n % d := by
  have hle : (decide (d ≤ 2 * r)).toNat * d ≤ 2 * r := by
    by_cases hbit : d ≤ 2 * r <;> simp [hbit]
  have hlt : 2 * r - (decide (d ≤ 2 * r)).toNat * d < d := by
    by_cases hbit : d ≤ 2 * r <;> simp [hbit] <;> omega
  generalize (decide (d ≤ 2 * r)).toNat = b at hle hlt
  obtain ⟨t, ht⟩ := Nat.exists_eq_add_of_le hle
  rw [ht, Nat.add_sub_cancel_left] at hlt ⊢
  obtain ⟨hdiv, hmod⟩ := (Nat.div_mod_unique (a := 2 * n) (c := t) (d := 2 * q + b) (Nat.zero_lt_of_lt hr)).2
    ⟨by subst hn; linear_combination ht.symm, hlt⟩
  exact ⟨hdiv.symm, hmod.symm⟩

/-- What the caller makes of the kernel's output is a call for the exact quotient (R201). -/
theorem divAssemble_standsFor {ma mb : ℕ} (hma : 2 ^ 128 ≤ ma) (hma' : ma < 2 ^ 129) (hmb : 2 ^ 128 ≤ mb)
    (hmb' : mb < 2 ^ 129) (ka kb : ℤ) :
    ∃ m k st, StandsFor m k st (ma * 2 ^ ka / (mb * 2 ^ kb)) ∧
      ∀ s, divAssemble s mb (divKernel ma ka mb kb) = roundPack s m k st := by
  obtain ⟨hvalue, hrem, hlow, -, hexp⟩ := divKernelInvariants ma mb ka kb hma hma' hmb hmb'
  obtain ⟨hdiv, hmod⟩ := two_mul_div_mod hvalue hrem
  have hshift := divPreShift_value ma mb (ka - kb - 128)
  rw [divPreShift_fst, divPreShift_snd, ← hexp, ← Rat.cast_inj (α := ℝ), cast_mul_zpow, cast_mul_zpow,
    zpow_sub₀ two_ne_zero, zpow_sub₀ two_ne_zero] at hshift
  have hcall := standsFor_quotient (n := 2 * ((if ma < mb then 2 * ma else ma) * 2 ^ 128))
    ((divKernel ma ka mb kb).exponent - 1) (d := mb) (by omega) fun _ => by omega
  have hmag : (ma * 2 ^ ka / (mb * 2 ^ kb) : ℝ) =
      (2 * ((if ma < mb then 2 * ma else ma) * 2 ^ 128) : ℕ) / mb * 2 ^ ((divKernel ma ka mb kb).exponent - 1) := by
    rw [zpow_sub_one₀ two_ne_zero, Nat.cast_mul, Nat.cast_mul _ (2 ^ 128)]
    generalize (((if ma < mb then 2 * ma else ma) : ℕ) : ℝ) = dividend at hshift ⊢
    push_cast
    linear_combination -(2 ^ 128 / mb) * hshift
  rw [← hdiv, ← hmod] at hcall
  exact ⟨_, _, _, hmag ▸ hcall, fun s => rfl⟩

/-- Settles O34: normalizing keeps each operand's magnitude, and the kernel's quotient is exact up to its sticky. -/
theorem divDatapathAgrees : Obligations.DivDatapathAgrees := by
  intro s a b x y hx hy hxz hyz
  obtain ⟨-, hxlt, -⟩ := unpack_eq_ok hx
  obtain ⟨-, hylt, -⟩ := unpack_eq_ok hy
  obtain ⟨hxlow, hxhigh, hxvalue⟩ := normalizeKeepsTheValue _ x.exponent (Nat.pos_of_ne_zero hxz) hxlt
  obtain ⟨hylow, hyhigh, hyvalue⟩ := normalizeKeepsTheValue _ y.exponent (Nat.pos_of_ne_zero hyz) hylt
  obtain ⟨m, k, st, hcall, hdiv⟩ := divFinite_standsFor hx hy hyz
  obtain ⟨m', k', st', hcall', hdiv'⟩ := divAssemble_standsFor hxlow hxhigh hylow hyhigh
    (normalize x.significand x.exponent).2 (normalize y.significand y.exponent).2
  rw [← cast_mul_zpow, ← cast_mul_zpow, hxvalue, hyvalue, cast_mul_zpow, cast_mul_zpow] at hcall'
  rw [hdiv, divDatapath, hdiv', hcall'.roundPack_eq hcall]

end Sys2Proof.Machine
end

section
/-! SUPPORT. The division kernel on limb buffers: each step keeps the remainder of the kernel on integers, at the weight of
the limb's offset (spec/43_divide.md R197 to R199, log 17). -/

namespace Sys2Proof.Machine

/-! Buffers of a length and a value -/

/-- A buffer of `n` slots, each below 2^32, whose value is `v` (spec/40_limbs_and_rounding.md R102, R109). -/
structure IsBuffer (l : Limbs) (n v : ℕ) : Prop where
  length_eq : l.length = n
  wellFormed : Limbs.wellFormed l = true
  intVal_eq : intVal l = v

theorem isBuffer_toLimbs {n v : ℕ} (h : v < 2 ^ (32 * n)) : IsBuffer (toLimbs n v) n v :=
  ⟨length_toLimbs .., wellFormed_toLimbs .., intVal_toLimbs_of_lt h⟩

section
variable {m s : Limbs} {j k o e u v : ℕ}

/-- A buffer aligned with `e` slots on its right is subtracted from the digits left of those; a difference that is not
negative leaves no borrow (R105). -/
theorem IsBuffer.subtractAligned_of_le (hm : IsBuffer m j (u * 2 ^ (32 * e))) (hs : IsBuffer s k v) (he : o + k + e = j)
    (h : v ≤ u) : ∃ d, subtractAligned m s o = .ok (d, false) ∧ IsBuffer d j ((u - v) * 2 ^ (32 * e)) := by
  obtain ⟨rfl, mwf, mval⟩ := hm
  obtain ⟨rfl, swf, rfl⟩ := hs
  obtain ⟨d, b, hd, hlen, hwf, hval, hb⟩ := subtractAlignedSubtracts m s o mwf swf (by omega)
  rw [show m.length - s.length - o = e by omega, mval] at hval hb
  obtain rfl : b = false := Bool.eq_false_iff.2 fun hb' => absurd (hb.1 hb') (not_lt.2 (Nat.mul_le_mul_right _ h))
  rw [if_neg Bool.false_ne_true] at hval
  exact ⟨d, hd, hlen, hwf, by rw [Nat.sub_mul]; omega⟩

/-- A negative difference borrows, and addAligned of a buffer that makes it not negative takes the borrow back; the carry
is dropped (R105, R106). -/
theorem IsBuffer.addBack_of_lt (hm : IsBuffer m j (u * 2 ^ (32 * e))) (hs : IsBuffer s k v) (he : o + k + e = j)
    (h : u < v) {t : Limbs} {w : ℕ} (ht : IsBuffer t k w) (hback : v ≤ u + w) :
    ∃ d d' c, subtractAligned m s o = .ok (d, true) ∧ addAligned d t o = .ok (d', c) ∧
      IsBuffer d' j ((u + w - v) * 2 ^ (32 * e)) := by
  obtain ⟨rfl, mwf, mval⟩ := hm
  obtain ⟨rfl, swf, rfl⟩ := hs
  obtain ⟨htlen, twf, rfl⟩ := ht
  obtain ⟨d, b, hd, hlen, hwf, hval, hb⟩ := subtractAlignedSubtracts m s o mwf swf (by omega)
  obtain ⟨d', c, hd', hlen', hwf', hval', -⟩ := addAlignedAdds d t o hwf twf (by omega)
  rw [show m.length - s.length - o = e by omega, mval] at hval hb
  rw [show d.length - t.length - o = e by omega, hlen] at hval'
  obtain rfl : b = true := hb.2 (Nat.mul_lt_mul_of_pos_right h (Nat.two_pow_pos _))
  refine ⟨d, d', c, hd, hd', hlen'.trans hlen, hwf', ?_⟩
  have hfits : intVal t * 2 ^ (32 * e) < 2 ^ (32 * m.length) :=
    calc intVal t * 2 ^ (32 * e) < 2 ^ (32 * t.length) * 2 ^ (32 * e) :=
          Nat.mul_lt_mul_of_pos_right (intVal_lt twf) (Nat.two_pow_pos _)
      _ ≤ 2 ^ (32 * m.length) := by
          rw [← pow_add]
          exact Nat.pow_le_pow_right (by decide) (by omega)
  have hmove : (u + intVal t - intVal s) * 2 ^ (32 * e) + intVal s * 2 ^ (32 * e) =
      u * 2 ^ (32 * e) + intVal t * 2 ^ (32 * e) := by
    rw [← Nat.add_mul, ← Nat.add_mul, Nat.sub_add_cancel hback]
  have hlt := Nat.mul_lt_mul_of_pos_right h (Nat.two_pow_pos (32 * e))
  rw [if_pos rfl] at hval
  have hsum : intVal d + intVal t * 2 ^ (32 * e) =
      (u + intVal t - intVal s) * 2 ^ (32 * e) + 2 ^ (32 * m.length) := by omega
  rw [hval', hsum, Nat.add_mod_right, Nat.mod_eq_of_lt (by omega)]

end

/-! One limb (R197) -/

section
variable {d : ℕ}

theorem mul_two_pow_succ_limb (r n : ℕ) : r * 2 ^ (32 * (n + 1)) = (r <<< 32) * 2 ^ (32 * n) := by
  rw [Nat.shiftLeft_eq, Nat.mul_succ, pow_add]
  ring

/-- The limb at the offset `o` takes the buffer of the remainder `r`, `e + 1` slots from the right, to that of the next
remainder, `e` slots from the right (R197). -/
theorem divLimbBuffers_spec (hd : 2 ^ 128 ≤ d) (hd' : d < 2 ^ 129) {o e r : ℕ} (he : o + 6 + e = 10) (hr : r < d)
    {w : Limbs} (hw : IsBuffer w 10 (r * 2 ^ (32 * (e + 1)))) :
    ∃ w', divLimbBuffers d w o = .ok ((divLimb d r).1, w') ∧
      IsBuffer w' 10 ((divLimb d r).2.toNat * 2 ^ (32 * e)) := by
  obtain ⟨hlow, hhigh⟩ := trial_bounds hd hr
  have hlimb := limb_lt hr
  have hdiv := Nat.div_add_mod' (r <<< 32) d
  have hmod : (r <<< 32) % d < d := Nat.mod_lt _ (Nat.zero_lt_of_lt hr)
  have hdivisor : IsBuffer (toLimbs 6 d) 6 d := isBuffer_toLimbs (hd'.trans (by decide))
  have hproduct (t : ℕ) (ht : t ≤ 2 ^ 32) : IsBuffer (toLimbs 6 (t * d)) 6 (t * d) :=
    isBuffer_toLimbs ((Nat.mul_le_mul ht hd'.le).trans_lt (by decide))
  rw [mul_two_pow_succ_limb] at hw
  have hchunk : intVal w / 2 ^ (32 * (4 - o)) = r <<< 32 := by
    rw [hw.intVal_eq, show 4 - o = e by omega, Nat.mul_div_cancel _ (Nat.two_pow_pos _)]
  rw [divLimb_eq hd hr, Int.toNat_natCast, divLimbBuffers, hchunk]
  generalize ((r <<< 32) >>> 65) / (d >>> 65) = trial at hlow hhigh ⊢
  obtain rfl | rfl : trial = (r <<< 32) / d ∨ trial = (r <<< 32) / d + 1 := by omega
  · obtain ⟨w', hsub, hbuf⟩ := hw.subtractAligned_of_le (hproduct _ hlimb.le) he (Nat.div_mul_le_self ..)
    rw [show r <<< 32 - (r <<< 32) / d * d = (r <<< 32) % d by omega] at hbuf
    refine ⟨w', ?_, hbuf⟩
    rw [hsub]
    rfl
  · rw [Nat.succ_mul]
    have hprod := hproduct _ (Nat.succ_le_of_lt hlimb)
    rw [Nat.succ_mul] at hprod
    obtain ⟨w', w'', c, hsub, hadd, hbuf⟩ := hw.addBack_of_lt hprod he (by omega) hdivisor (by omega)
    rw [show r <<< 32 + d - ((r <<< 32) / d * d + d) = (r <<< 32) % d by omega] at hbuf
    refine ⟨w'', ?_, hbuf⟩
    rw [hsub]
    dsimp only [bind, Except.bind]
    rw [if_pos rfl, hadd, Nat.add_sub_cancel]

/-- The limbs still to come, with the same early stop: a buffer is empty exactly where its remainder is 0 (R197, R198). -/
theorem divBuffers_spec (hd : 2 ^ 128 ≤ d) (hd' : d < 2 ^ 129) {n : ℕ} (hn : n ≤ 4) (q : ℕ) {r : ℕ} (hr : r < d)
    {w : Limbs} (hw : IsBuffer w 10 (r * 2 ^ (32 * (n + 1)))) :
    ∃ w', divBuffers d n q w = .ok ((divLimbs d n q r).1, w') ∧ IsBuffer w' 10 ((divLimbs d n q r).2 * 2 ^ 32) := by
  induction n generalizing q r w with
  | zero => exact ⟨w, rfl, hw⟩
  | succ n ih =>
    have hempty : limbsEmpty w = true ↔ r = 0 := by
      rw [limbsEmpty_iff, hw.intVal_eq, Nat.mul_eq_zero, or_iff_left (Nat.two_pow_pos _).ne']
    rw [divBuffers, divLimbs]
    by_cases hz : r = 0
    · rw [if_pos (hempty.2 hz), if_pos hz]
      refine ⟨w, rfl, ?_⟩
      rw [hz, Nat.zero_mul] at hw
      rwa [Nat.zero_mul]
    · rw [if_neg (mt hempty.1 hz), if_neg hz]
      obtain ⟨w', hlimb, hw'⟩ := divLimbBuffers_spec hd hd' (o := 3 - n) (by omega) hr hw
      have hr' : (divLimb d r).2.toNat < d := by
        rw [divLimb_eq hd hr, Int.toNat_natCast]
        exact Nat.mod_lt _ (Nat.zero_lt_of_lt hr)
      obtain ⟨w'', hrest, hw''⟩ := ih (by omega) ((q <<< 32) + (divLimb d r).1) hr' hw'
      refine ⟨w'', ?_, hw''⟩
      rw [hlimb]
      exact hrest

end

/-! The kernel (R195, R197, R199) -/

/-- Step 1 on buffers: the divisor from the pre-shifted dividend, which leaves no borrow (R195, R200). -/
theorem exists_firstRemainder {a d : ℕ} (hle : d ≤ a) (ha : a < 2 ^ 130) (hd : d < 2 ^ 129) :
    ∃ w, subtractAligned (toLimbs 10 (a * 2 ^ 160)) (toLimbs 5 d) 0 = .ok (w, false) ∧
      IsBuffer w 10 ((a - d) * 2 ^ (32 * 5)) := by
  have hfits : a * 2 ^ 160 < 2 ^ (32 * 10) :=
    (Nat.mul_lt_mul_of_pos_right (ha.trans (by decide)) (Nat.two_pow_pos _)).trans_le
      (two_pow_mul_self_le (a := 160) (by decide))
  exact (isBuffer_toLimbs hfits).subtractAligned_of_le (e := 5) (isBuffer_toLimbs (hd.trans (by decide))) rfl hle

/-- The round-up bit is compare of the doubled remainder and the divisor, both moved one slot left (R199). -/
theorem exists_roundUpOrder {w : Limbs} {d r : ℕ} (hd : d < 2 ^ 129) (hr : r < d) (hw : IsBuffer w 10 (r * 2 ^ 32)) :
    ∃ l o, shiftLeftLimbs w 1 = .ok l ∧ compareLimbs l (toLimbs 10 (d * 2 ^ 32)) = .ok o ∧
      (o != .lt) = decide (d ≤ 2 * r) := by
  have hdivisor : IsBuffer (toLimbs 10 (d * 2 ^ 32)) 10 (d * 2 ^ 32) := isBuffer_toLimbs (by omega)
  obtain ⟨-, -, -, -, hshift, -⟩ := shiftLimbsShiftValues w 1 hw.wellFormed
  obtain ⟨l, hl, hval, hlen, hwf⟩ := hshift (by rw [hw.intVal_eq, hw.length_eq]; omega)
  obtain ⟨hcompare, -⟩ := compareLimbsComparesValues l _ hwf hdivisor.wellFormed
    (hlen.trans (hw.length_eq.trans hdivisor.length_eq.symm))
  refine ⟨l, _, hl, hcompare, ?_⟩
  rw [Bool.eq_iff_iff, bne_iff_ne, Ne, compare_lt_iff_lt, hval, hw.intVal_eq, hdivisor.intVal_eq, decide_eq_true_eq]
  omega

/-- The kernel's limbs, from a first remainder that does not depend on the weight exponents. -/
theorem divKernel_eq (ma mb : ℕ) (ka kb : ℤ) :
    divKernel ma ka mb kb =
      ⟨(divLimbs mb 4 1 ((divPreShift ma mb 0).1 - mb)).1, (divLimbs mb 4 1 ((divPreShift ma mb 0).1 - mb)).2,
        decide (mb ≤ 2 * (divLimbs mb 4 1 ((divPreShift ma mb 0).1 - mb)).2),
        (divPreShift ma mb (ka - kb - 128)).2⟩ := by
  rw [divKernel, divPreShift_fst, divPreShift_fst]

/-- Settles O35: each step on buffers is the kernel's step on their values. -/
theorem divKernelBuffersAgree : Obligations.DivKernelBuffersAgree := by
  intro ma mb ka kb hma hma' hmb hmb'
  obtain ⟨hle, hlt⟩ := divPreShift_bounds hma hma' hmb hmb' 0
  obtain ⟨first, hfirst, hbuf⟩ := exists_firstRemainder hle (by omega) hmb'
  obtain ⟨w, hloop, hw⟩ := divBuffers_spec hmb hmb' le_rfl 1 (by omega) hbuf
  obtain ⟨-, hrem⟩ := divLimbs_spec hmb 4 1 (r := (divPreShift ma mb 0).1 - mb) (by omega)
  obtain ⟨doubled, order, hdoubled, horder, hbit⟩ := exists_roundUpOrder hmb' hrem hw
  rw [divKernel_eq]
  refine ⟨⟨_, w, order != .lt⟩, ?_, rfl, hw.intVal_eq, hbit, hw.length_eq, hw.wellFormed⟩
  rw [divKernelBuffers, hfirst]
  simp only [bind, Except.bind, hloop, hdoubled, horder]

end Sys2Proof.Machine
end

section
/-! SUPPORT. The square-root kernel on integers: the bits of the root, and the integer root with remainder that they make up
(spec/44_sqrt.md R222, R225, R226). -/

namespace Sys2Proof.Machine

/-! The integer root (spec/00_scope.md R10) -/

theorem isqrt_eq_sqrt (x : ℕ) : isqrt x = Nat.sqrt x := Nat.eq_sqrt.2 (isqrt_spec x)

/-- A root is the integer root where the rest does not reach the next square. -/
theorem eq_isqrt_of_remainder {x root rem : ℕ} (h : root ^ 2 + rem = x) (hrem : rem ≤ 2 * root) : root = isqrt x := by
  rw [isqrt_eq_sqrt]
  exact Nat.eq_sqrt.2 ⟨by nlinarith, by nlinarith⟩

/-! Exponent halving (R222) -/

theorem evenExponent_fst (m : ℕ) (k : ℤ) : (evenExponent m k).1 = if k % 2 = 1 then 2 * m else m := by
  unfold evenExponent
  split_ifs
  · rw [Nat.shiftLeft_eq, pow_one, mul_comm]
  · rfl

theorem evenExponent_snd (m : ℕ) (k : ℤ) : (evenExponent m k).2 = k - k % 2 := by
  unfold evenExponent
  split_ifs <;> dsimp only <;> omega

theorem evenExponent_value (m : ℕ) (k : ℤ) : ((evenExponent m k).1 : ℚ) * 2 ^ (evenExponent m k).2 = m * 2 ^ k := by
  unfold evenExponent
  split_ifs
  · exact shiftLeft_mul_zpow_sub m 1 k
  · rfl

/-! The bits of the root (R225) -/

/-- Bringing down a bit pair. -/
theorem shiftRight_bit_pair (x i : ℕ) : x >>> (2 * i) = 4 * (x >>> (2 * (i + 1))) + x >>> (2 * i) % 4 := by
  have hdiv : x >>> (2 * (i + 1)) = x >>> (2 * i) / 4 :=
    (Nat.shiftRight_add x (2 * i) 2).trans (Nat.shiftRight_eq_div_pow ..)
  rw [hdiv]
  omega

theorem shiftRight_two_mul_eq_zero {x n : ℕ} (h : x < 2 ^ n * 2 ^ n) : x >>> (2 * n) = 0 := by
  rw [two_mul]
  exact Nat.shiftRight_eq_zero _ _ (h.trans_eq (pow_add ..).symm)

/-- The bits still to come keep a root of the bits brought down, with a remainder that does not reach the next square. -/
theorem sqrtBits_spec (x : ℕ) : ∀ i root rem, root ^ 2 + rem = x >>> (2 * i) → rem ≤ 2 * root →
    (sqrtBits x i root rem).1 ^ 2 + (sqrtBits x i root rem).2 = x ∧
      (sqrtBits x i root rem).2 ≤ 2 * (sqrtBits x i root rem).1 := by
  intro i
  induction i with
  | zero => exact fun root rem hvalue hrem => ⟨hvalue, hrem⟩
  | succ i ih =>
    intro root rem hvalue hrem
    have hpair := shiftRight_bit_pair x i
    have hlt : x >>> (2 * i) % 4 < 4 := Nat.mod_lt _ (by decide)
    rw [← hvalue] at hpair
    rw [sqrtBits]
    simp only [Nat.shiftLeft_eq]
    generalize x >>> (2 * i) % 4 = pair at hpair hlt ⊢
    split_ifs with hfits
    · obtain ⟨rest, hrest⟩ := Nat.exists_eq_add_of_le hfits
      rw [hrest, Nat.add_sub_cancel_left]
      exact ih _ _ (by linear_combination -hrest - hpair) (by omega)
    · exact ih _ _ (by linear_combination -hpair) (by omega)

/-! The kernel (R225, R226) -/

/-- The radicand of the kernel: the significand, doubled where the weight exponent is odd, extended by 128 bits (R225). -/
def kernelRadicand (m : ℕ) (k : ℤ) : ℕ := (if k % 2 = 1 then 2 * m else m) * 2 ^ 128

section
variable {m : ℕ}

theorem kernelRadicand_bounds (hlow : 2 ^ 128 ≤ m) (hhigh : m < 2 ^ 129) (k : ℤ) :
    2 ^ 128 * 2 ^ 128 ≤ kernelRadicand m k ∧ kernelRadicand m k < 2 ^ 129 * 2 ^ 129 := by
  unfold kernelRadicand
  split_ifs <;> omega

/-- The kernel takes the integer root of its radicand, with remainder (R225). -/
theorem sqrtKernel_spec (hlow : 2 ^ 128 ≤ m) (hhigh : m < 2 ^ 129) (k : ℤ) :
    (sqrtKernel m k).root ^ 2 + (sqrtKernel m k).remainder = kernelRadicand m k ∧
      (sqrtKernel m k).remainder ≤ 2 * (sqrtKernel m k).root := by
  obtain ⟨-, hlt⟩ := kernelRadicand_bounds hlow hhigh k
  have hstart := shiftRight_two_mul_eq_zero hlt
  have hradicand : (evenExponent m k).1 <<< 128 = kernelRadicand m k := by
    rw [evenExponent_fst, Nat.shiftLeft_eq, kernelRadicand]
  have hbits := sqrtBits_spec (kernelRadicand m k) 129 0 0 hstart.symm le_rfl
  rwa [← hradicand] at hbits ⊢

/-- A root of a 257-bit or 258-bit radicand has 129 bits (R225). -/
theorem sqrtKernel_root_bounds (hlow : 2 ^ 128 ≤ m) (hhigh : m < 2 ^ 129) (k : ℤ) :
    2 ^ 128 ≤ (sqrtKernel m k).root ∧ (sqrtKernel m k).root < 2 ^ 129 := by
  obtain ⟨hvalue, hrem⟩ := sqrtKernel_spec hlow hhigh k
  obtain ⟨hge, hlt⟩ := kernelRadicand_bounds hlow hhigh k
  constructor
  · by_contra hroot
    nlinarith
  · by_contra hroot
    nlinarith [Nat.mul_le_mul (not_lt.1 hroot) (not_lt.1 hroot)]

/-- The remainder exceeds the root exactly where the radicand exceeds the square of the root and a half (R226). -/
theorem remainder_gt_iff {x root rem : ℕ} (h : root ^ 2 + rem = x) : root < rem ↔ (2 * root + 1) ^ 2 < 4 * x := by
  have hsquare : (2 * root + 1) ^ 2 + 4 * rem = 4 * x + 4 * root + 1 := by
    subst h
    ring
  omega

/-- Settles O41: the bits make up the root with its remainder, and a remainder of at most twice the root fixes the integer
root. -/
theorem sqrtKernelInvariants : Obligations.SqrtKernelInvariants := by
  intro m k hlow hhigh
  obtain ⟨hvalue, hrem⟩ := sqrtKernel_spec hlow hhigh k
  obtain ⟨hge, hlt⟩ := sqrtKernel_root_bounds hlow hhigh k
  have hup : (sqrtKernel m k).roundUp = true ↔ (sqrtKernel m k).root < (sqrtKernel m k).remainder := decide_eq_true_iff
  exact ⟨eq_isqrt_of_remainder hvalue hrem, hvalue, hrem, hge, hlt, hup.trans (remainder_gt_iff hvalue),
    evenExponent_snd m k⟩

end

end Sys2Proof.Machine
end

section
/-! SUPPORT. The special values of QSQRT, and its finite path and datapath, which both round the exact root once
(spec/44_sqrt.md R220, R221, R223, R227). -/

namespace Sys2Proof.Machine

/-! The special values of QSQRT (R221) -/

section
variable {a r : Quad}

theorem exec_qsqrt_of_eq (h : qsqrt a = .ok r) (b : Quad) (s : State) :
    exec (.qsqrt a b) s = .next (s.respond (okResponse r)) :=
  exec_eq_next_iff.2 ⟨r, h, rfl⟩

theorem qsqrt_of_nan (h : classOf a = .nan) : qsqrt a = .ok nanQuad := if_pos h

theorem qsqrt_of_zero (h : classOf a = .zero) : qsqrt a = .ok a := by
  simp [qsqrt, h]

theorem qsqrt_of_sign (hz : classOf a ≠ .zero) (hs : signOf a = true) : qsqrt a = .ok nanQuad := by
  simp [qsqrt, hz, hs]

theorem qsqrt_of_infinity (hi : classOf a = .infinity) (hs : signOf a = false) : qsqrt a = .ok (infQuad false) := by
  simp [qsqrt, hi, hs]

end

/-- Settles O36: each value is one of the cases that QSQRT tells apart before it unpacks, and none reads the second
operand. -/
theorem qsqrtSpecialValues : Obligations.QsqrtSpecialValues := by
  intro a b s
  exact ⟨fun hn => exec_qsqrt_of_eq (qsqrt_of_nan hn) b s, fun hz => exec_qsqrt_of_eq (qsqrt_of_zero hz) b s,
    fun hz hs => exec_qsqrt_of_eq (qsqrt_of_sign hz hs) b s, fun hi hs => exec_qsqrt_of_eq (qsqrt_of_infinity hi hs) b s,
    fun _ => rfl⟩

/-! Roots with the inexactness as the sticky -/

/-- An integer root, its inexactness the sticky, is a call of RoundPack for the exact root, where an inexact one has at least
130 bits (R223). -/
theorem standsFor_isqrt {x : ℕ} (k : ℤ) (hpre : 2 ^ 129 ≤ isqrt x) :
    StandsFor (isqrt x) k (isqrt x * isqrt x != x) (√x * 2 ^ k) := by
  have hk : (0 : ℝ) < 2 ^ k := by positivity
  refine ⟨fun _ => hpre, ?_, ?_, ?_⟩
  · gcongr
    rw [isqrt_eq_sqrt]
    exact Real.nat_sqrt_le_real_sqrt
  · gcongr
    rw [isqrt_eq_sqrt]
    exact Real.real_sqrt_lt_nat_sqrt_succ
  · rw [mul_left_inj' hk.ne', Real.sqrt_eq_iff_mul_self_eq (by positivity) (by positivity), bne_eq_false_iff_eq]
    norm_cast
    exact eq_comm

/-- A root takes half of an even weight exponent out. -/
theorem sqrt_mul_zpow (v : ℝ) (j : ℤ) : √(v * 2 ^ (2 * j)) = √v * 2 ^ j := by
  have hj : (0 : ℝ) ≤ 2 ^ j := by positivity
  rw [mul_comm 2 j, zpow_mul, zpow_ofNat, Real.sqrt_mul' _ (by positivity), Real.sqrt_sq hj]

/-! The finite path of QSQRT (R220 step 2) -/

/-- The exact root of a magnitude is that of the halved exponent's radicand, extended by `2 * n` bits (R222, R223). -/
theorem sqrt_magnitude (m : ℕ) (k : ℤ) (n : ℕ) :
    √((m : ℝ) * 2 ^ k) = √((evenExponent m k).1 <<< (2 * n) : ℕ) * 2 ^ ((evenExponent m k).2 / 2 - n) := by
  have hvalue := evenExponent_value m k
  have heven : (evenExponent m k).2 = 2 * n + 2 * ((evenExponent m k).2 / 2 - n) := by
    rw [evenExponent_snd]
    omega
  rw [← Rat.cast_inj (α := ℝ), cast_mul_zpow, cast_mul_zpow, heven, zpow_add₀ two_ne_zero, ← mul_assoc] at hvalue
  rw [← hvalue, sqrt_mul_zpow, Nat.shiftLeft_eq]
  norm_cast

section
variable {a : Quad} {u : Unpacked} {x : ℚ}

/-- The finite path is RoundPack of a call for the exact root (R223). -/
theorem sqrtFinite_standsFor (hu : unpack a = .ok u) (hz : u.significand ≠ 0) :
    ∃ m k st, StandsFor m k st (√(u.significand * 2 ^ u.exponent)) ∧ sqrtFinite a = roundPack false m k st := by
  have hcall := standsFor_isqrt ((evenExponent u.significand u.exponent).2 / 2 - 131)
    (le_extended_isqrt (evenExponent_ne_zero hz u.exponent))
  have hmag := sqrt_magnitude u.significand u.exponent 131
  refine ⟨_, _, _, hmag ▸ hcall, ?_⟩
  rw [sqrtFinite, hu]
  rfl

theorem qsqrt_of_unpack (hu : unpack a = .ok u) (hz : u.significand ≠ 0) (hs : u.sign = false) :
    qsqrt a = sqrtFinite a := by
  obtain ⟨hsign, -⟩ := unpack_eq_ok hu
  simp [qsqrt, classOf_ne_nan_of_unpack hu, classOf_ne_infinity_of_unpack hu, classOf_ne_zero_of_unpack hu hz, ← hsign, hs]

/-- A positive value has sign 0 and is its own magnitude. -/
theorem exists_unpack_of_pos (ha : valueOf a = some x) (hx : 0 < x) :
    ∃ u, unpack a = .ok u ∧ u.significand ≠ 0 ∧ u.sign = false ∧ x = u.significand * 2 ^ u.exponent := by
  obtain ⟨u, hu, rfl⟩ := exists_unpack_of_valueOf ha
  obtain ⟨hsign, -⟩ := unpack_eq_ok hu
  have hs : u.sign = false := by
    rw [hsign, signOf_eq_decide ha hx.ne', decide_eq_false (not_lt.2 hx.le)]
  exact ⟨u, hu, mt Unpacked.value_of_significand_eq_zero hx.ne', hs, by simp [Unpacked.value, hs, signFactor]⟩

/-- The root of a positive finite operand is packed, with sign 0, from what the exact root rounds to (R223). -/
theorem qsqrt_roundsTo (ha : valueOf a = some x) (hx : 0 < x) :
    ∃ q l, RoundsTo (√x) q l ∧ qsqrt a = .ok (packRounded false q l) := by
  obtain ⟨u, hu, hz, hs, rfl⟩ := exists_unpack_of_pos ha hx
  obtain ⟨m, k, st, hcall, hsqrt⟩ := sqrtFinite_standsFor hu hz
  obtain ⟨q, l, hround, hpack⟩ := hcall.roundsTo
  rw [cast_mul_zpow]
  exact ⟨q, l, hround, by rw [qsqrt_of_unpack hu hz hs, hsqrt, hpack]⟩

end

/-- Settles O37: the quad packed from what the exact root rounds to stands for the nearest point. -/
theorem qsqrtIsCorrectlyRounded : Obligations.QsqrtIsCorrectlyRounded := by
  intro a b s x ha hx
  obtain ⟨q, l, hround, hsqrt⟩ := qsqrt_roundsTo ha hx
  exact ⟨_, exec_qsqrt_of_eq hsqrt b s, signOf_packRounded .., hround.nearestEven _⟩

/-! The datapath (R227) -/

/-- The round-up bit is one bit more of the integer root, and a remainder makes that root inexact (R226, R227). -/
theorem isqrt_four_mul {x root rem : ℕ} (h : root ^ 2 + rem = x) (hrem : rem ≤ 2 * root) :
    2 * root + (decide (root < rem)).toNat = isqrt (4 * x) ∧
      (rem != 0) = (isqrt (4 * x) * isqrt (4 * x) != 4 * x) := by
  by_cases hup : root < rem
  · obtain ⟨t, rfl⟩ := Nat.exists_eq_add_of_lt hup
    have hroot : 2 * root + 1 = isqrt (4 * x) :=
      eq_isqrt_of_remainder (rem := 4 * t + 3) (by subst h; ring) (by omega)
    rw [decide_eq_true hup, Bool.toNat_true, ← hroot]
    refine ⟨rfl, ?_⟩
    rw [bne_iff_ne.2 (by omega), eq_comm, bne_iff_ne]
    intro hexact
    nlinarith
  · have hroot : 2 * root = isqrt (4 * x) :=
      eq_isqrt_of_remainder (rem := 4 * rem) (by subst h; ring) (by omega)
    rw [decide_eq_false hup, Bool.toNat_false, ← hroot]
    refine ⟨rfl, ?_⟩
    rw [Bool.eq_iff_iff, bne_iff_ne, bne_iff_ne, not_iff_not, ← h]
    constructor
    · rintro rfl
      ring
    · intro hexact
      nlinarith

/-- What the caller makes of the kernel's output is a call for the exact root (R227). -/
theorem sqrtKernel_standsFor {m : ℕ} (hlow : 2 ^ 128 ≤ m) (hhigh : m < 2 ^ 129) (k : ℤ) :
    StandsFor (2 * (sqrtKernel m k).root + (sqrtKernel m k).roundUp.toNat) ((sqrtKernel m k).exponent / 2 - 65)
      ((sqrtKernel m k).remainder != 0) (√(m * 2 ^ k)) := by
  obtain ⟨hvalue, hrem⟩ := sqrtKernel_spec hlow hhigh k
  obtain ⟨hge, -⟩ := sqrtKernel_root_bounds hlow hhigh k
  obtain ⟨hroot, hsticky⟩ := isqrt_four_mul hvalue hrem
  have hradicand : 4 * kernelRadicand m k = (evenExponent m k).1 <<< (2 * 65) := by
    rw [kernelRadicand, evenExponent_fst, Nat.shiftLeft_eq]
    ring
  have hcall := standsFor_isqrt (x := 4 * kernelRadicand m k) ((evenExponent m k).2 / 2 - 65) (by omega)
  have hmag := sqrt_magnitude m k 65
  rw [← hsticky, ← hroot, hradicand] at hcall
  rw [hmag]
  exact hcall

/-- Settles O42: normalizing keeps the operand's magnitude, and the kernel's root is exact up to its sticky. -/
theorem sqrtDatapathAgrees : Obligations.SqrtDatapathAgrees := by
  intro a u hu hz
  obtain ⟨-, hlt, -⟩ := unpack_eq_ok hu
  obtain ⟨hlow, hhigh, hvalue⟩ := normalizeKeepsTheValue _ u.exponent (Nat.pos_of_ne_zero hz) hlt
  obtain ⟨m, k, st, hcall, hsqrt⟩ := sqrtFinite_standsFor hu hz
  have hkernel := sqrtKernel_standsFor hlow hhigh (normalize u.significand u.exponent).2
  rw [← cast_mul_zpow, hvalue, cast_mul_zpow] at hkernel
  rw [hsqrt, sqrtDatapath]
  exact hkernel.roundPack_eq hcall false

end Sys2Proof.Machine
end

section
/-! SUPPORT. What the rounded root says of QSQRT: the range of roots, exact roots, and that rounding, and so the root, is
monotone (spec/44_sqrt.md R223, R227, R228). -/

namespace Sys2Proof.Machine

/-! Rounding keeps order (R113) -/

/-- What is nearest to the larger of two magnitudes stands for no smaller point. -/
theorem NearestEven.gridPoint_le {v w : ℝ} {r t : Quad} {g p : ℚ} (hr : NearestEven v r) (ht : NearestEven w t)
    (hlt : v < w) (hg : gridPoint r = some g) (hp : gridPoint t = some p) : g ≤ p := by
  obtain ⟨g', hg', hnear⟩ := hr
  obtain ⟨p', hp', hnear'⟩ := ht
  obtain rfl := Option.some.inj (hg.symm.trans hg')
  obtain rfl := Option.some.inj (hp.symm.trans hp')
  have hle := sq_le_sq.2 (hnear t p hp).1
  have hle' := sq_le_sq.2 (hnear' r g hg).1
  by_contra hgt
  have hgt' : (p : ℝ) < g := by exact_mod_cast not_le.1 hgt
  nlinarith

theorem RoundsTo.exists_gridPoint {v : ℝ} {q : ℕ} {l : ℤ} (h : RoundsTo v q l) (s : Bool) :
    ∃ g, gridPoint (packRounded s q l) = some g := by
  obtain ⟨g, hg, -⟩ := h.nearestEven s
  exact ⟨g, hg⟩

/-- Of two magnitudes the larger packs to no smaller point. -/
theorem RoundsTo.gridPoint_le {v w : ℝ} {q n : ℕ} {l j : ℤ} {s : Bool} {g p : ℚ} (h : RoundsTo v q l)
    (h' : RoundsTo w n j) (hle : v ≤ w) (hg : gridPoint (packRounded s q l) = some g)
    (hp : gridPoint (packRounded s n j) = some p) : g ≤ p := by
  obtain rfl | hlt := hle.eq_or_lt
  · rw [h.packRounded_unique h' s] at hg
    exact (Option.some.inj (hg.symm.trans hp)).le
  · exact (h.nearestEven s).gridPoint_le (h'.nearestEven s) hlt hg hp

/-- A magnitude that reaches a point of the grid rounds to no less. -/
theorem RoundsTo.le_of_onGrid {v p : ℝ} {q : ℕ} {l : ℤ} (h : RoundsTo v q l) (hp : OnGrid p) (hle : p ≤ v) :
    p ≤ q * 2 ^ l := by
  have hnear := (le_abs_self _).trans (h.nearest hp).1
  rw [abs_of_nonneg (sub_nonneg.2 hle)] at hnear
  linarith

/-! The range of roots (R227) -/

/-- A finite quad of MIN_NORMAL or more is normal. -/
theorem classOf_eq_normal_of_le {x : Quad} {u : Unpacked} (hu : unpack x = .ok u)
    (h : minNormal ≤ u.significand * 2 ^ u.exponent) : classOf x = .normal := by
  have hmin : Config.lsbMin = 1 - Config.bias - 128 := rfl
  have hlead : 2 ^ 128 ≤ u.significand := by
    by_contra hsub
    rw [(leading_bit_or_lsbMin_of_unpack hu).resolve_left hsub, minNormal_eq_mul] at h
    exact hsub (by exact_mod_cast le_of_mul_le_mul_right h (by positivity))
  obtain ⟨-, -, hexp, -, -⟩ := unpack_eq_ok hu
  obtain ⟨-, -, hfield⟩ := fields_of_unpack hu
  rw [if_pos hlead] at hfield
  exact classOf_eq_normal_iff.2 ⟨by omega, exponentOf_lt_expInf_of_unpack hu⟩

theorem onGrid_minNormal : OnGrid (2 ^ (1 - Config.bias)) :=
  ⟨2 ^ 128, Config.lsbMin, by decide, le_rfl, by rw [minNormal_eq]; norm_cast⟩

/-- Between MIN_NORMAL and the overflow threshold a magnitude rounds to a normal quad. -/
theorem RoundsTo.classOf_normal {v : ℝ} {q : ℕ} {l : ℤ} (h : RoundsTo v q l) (s : Bool)
    (hlow : 2 ^ (1 - Config.bias) ≤ v) (hhigh : v < overflowThreshold) : classOf (packRounded s q l) = .normal := by
  obtain ⟨u, hu, -, hmag⟩ := h.packed_of_lt s hhigh
  refine classOf_eq_normal_of_le hu ?_
  have hle := h.le_of_onGrid onGrid_minNormal hlow
  rw [← cast_mul_zpow, ← hmag] at hle
  rw [← Rat.cast_le (K := ℝ), minNormal, Rat.cast_zpow]
  exact hle

theorem two_zpow_emax_lt_threshold : (2 : ℝ) ^ ((Config.emaxField : ℤ) - Config.bias) < overflowThreshold := by
  have hulp : (0 : ℝ) < 2 ^ ((Config.emaxField : ℤ) - Config.bias - 128) := by positivity
  have hsplit := two_zpow_add_128 ((Config.emaxField : ℤ) - Config.bias - 128)
  rw [sub_add_cancel] at hsplit
  rw [hsplit, overflowThreshold]
  gcongr
  norm_num

/-- Halving the exponent brings every finite non-zero magnitude into the normal range (R227). -/
theorem sqrt_magnitude_bounds {a : Quad} {u : Unpacked} (hu : unpack a = .ok u) (hz : u.significand ≠ 0) :
    2 ^ (1 - Config.bias) ≤ √((u.significand : ℝ) * 2 ^ u.exponent) ∧
      √((u.significand : ℝ) * 2 ^ u.exponent) < overflowThreshold := by
  have hpos : (0 : ℝ) < 2 ^ ((Config.emaxField : ℤ) - Config.bias) := by positivity
  obtain ⟨-, -, hexp, -, -⟩ := unpack_eq_ok hu
  constructor
  · rw [Real.le_sqrt (by positivity) (by positivity)]
    have hone : (1 : ℝ) ≤ u.significand := by exact_mod_cast Nat.one_le_iff_ne_zero.2 hz
    calc ((2 : ℝ) ^ (1 - Config.bias)) ^ 2 = 2 ^ ((1 - Config.bias) * 2) := by rw [zpow_mul, zpow_ofNat]
      _ ≤ 2 ^ u.exponent := zpow_le_zpow_right₀ one_le_two (le_trans (by decide) hexp)
      _ ≤ u.significand * 2 ^ u.exponent := le_mul_of_one_le_left (by positivity) hone
  · refine lt_trans ((Real.sqrt_lt' hpos).2 ?_) two_zpow_emax_lt_threshold
    have hlt := (Rat.cast_lt (K := ℝ)).2 (magnitude_lt_overflowPoint hu)
    rw [cast_mul_zpow, overflowPoint, Rat.cast_zpow, Rat.cast_ofNat] at hlt
    calc (u.significand : ℝ) * 2 ^ u.exponent < 2 ^ ((Config.emaxField : ℤ) - Config.bias + 1) := hlt
      _ ≤ 2 ^ (((Config.emaxField : ℤ) - Config.bias) * 2) := zpow_le_zpow_right₀ one_le_two (by decide)
      _ = (2 ^ ((Config.emaxField : ℤ) - Config.bias)) ^ 2 := by rw [zpow_mul, zpow_ofNat]

/-- Settles O38: the exact root lies in the normal range, so what it rounds to does. -/
theorem qsqrtIsAlwaysNormal : Obligations.QsqrtIsAlwaysNormal := by
  intro a b s x ha hx
  obtain ⟨q, l, hround, hsqrt⟩ := qsqrt_roundsTo ha hx
  obtain ⟨u, hu, hz, -, rfl⟩ := exists_unpack_of_pos ha hx
  rw [cast_mul_zpow] at hround
  obtain ⟨hlow, hhigh⟩ := sqrt_magnitude_bounds hu hz
  have hclass := hround.classOf_normal false hlow hhigh
  have hexec := exec_qsqrt_of_eq hsqrt b s
  rw [okResponse, hclass] at hexec
  exact ⟨_, hexec, hclass⟩

/-! Exact roots (R228) -/

/-- A positive quad is what its own magnitude rounds to, so it is the root of its square. -/
theorem qsqrt_of_sq {a c : Quad} {z : ℚ} (hc : valueOf c = some z) (ha : valueOf a = some (z ^ 2)) (hz : 0 < z) :
    qsqrt a = .ok c := by
  obtain ⟨q, l, hround, hsqrt⟩ := qsqrt_roundsTo ha (by positivity)
  obtain ⟨w, hw, hwz, hs, rfl⟩ := exists_unpack_of_pos hc hz
  rw [Rat.cast_pow, Real.sqrt_sq (by exact_mod_cast hz.le), cast_mul_zpow] at hround
  rw [hsqrt, hround.packRounded_unique (roundsTo_of_unpack hw), ← hs, packRounded_of_unpack hw hwz]

/-- Settles O39: the exact root is the quad or its flip, whichever is positive, and a zero is its own root. -/
theorem qsqrtOfASquareIsExact : Obligations.QsqrtOfASquareIsExact := by
  intro a b c s z hc ha
  refine ⟨fun hz => ?_, fun hz => ?_, fun hz => ?_⟩
  · exact exec_qsqrt_of_eq (qsqrt_of_zero ((valueOf_eq_zero_iff ha).1 (by simp [hz]))) b s
  · exact exec_qsqrt_of_eq (qsqrt_of_sq hc ha hz) b s
  · exact exec_qsqrt_of_eq (qsqrt_of_sq (valueOf_flipSign hc) (by rwa [neg_sq]) (neg_pos.2 hz)) b s

/-! Monotonicity (R228) -/

theorem packRounded_zero (s : Bool) (l : ℤ) : packRounded s 0 l = zeroQuad s := by
  rw [packRounded, if_neg (by decide), packSignificand, if_pos rfl]

section
variable {a : Quad} {x : ℚ}

theorem exists_unpack_of_gridPoint (hi : classOf a ≠ .infinity) (ha : gridPoint a = some x) :
    ∃ u, unpack a = .ok u ∧ x = u.significand * 2 ^ u.exponent := by
  have hn : classOf a ≠ .nan := fun hn => by simp [gridPoint, hn] at ha
  obtain ⟨u, hu⟩ := unpack_of_finite hi hn
  exact ⟨u, hu, Option.some.inj (ha.symm.trans (gridPoint_of_unpack hu))⟩

theorem gridPoint_lt_overflowPoint (hi : classOf a ≠ .infinity) (ha : gridPoint a = some x) : x < overflowPoint := by
  obtain ⟨u, hu, rfl⟩ := exists_unpack_of_gridPoint hi ha
  exact magnitude_lt_overflowPoint hu

/-- The root of a finite operand of sign 0 is packed from what the exact root of its point rounds to, also for the zero. -/
theorem qsqrt_roundsTo_of_gridPoint (hs : signOf a = false) (hi : classOf a ≠ .infinity) (ha : gridPoint a = some x) :
    ∃ q l, RoundsTo (√x) q l ∧ qsqrt a = .ok (packRounded false q l) := by
  obtain ⟨u, hu, rfl⟩ := exists_unpack_of_gridPoint hi ha
  obtain ⟨hsign, -, -, hzero, -⟩ := unpack_eq_ok hu
  by_cases hz : u.significand = 0
  · have hclass := hzero.1 hz
    have hround := roundsTo_of_unpack hu
    refine ⟨0, u.exponent, by simpa [hz] using hround, ?_⟩
    rw [qsqrt_of_zero hclass, packRounded_zero, ← hs, ← eq_zeroQuad_of_classOf hclass]
  · refine qsqrt_roundsTo ?_ (by positivity)
    rw [valueOf_of_unpack hu, hsign, hs, signFactor, if_neg (by decide), one_mul]

/-- An operand of sign 0 that is no NaN has a root that is none. -/
theorem exists_gridPoint_qsqrt (hs : signOf a = false) (ha : gridPoint a = some x) :
    ∃ r u, qsqrt a = .ok r ∧ gridPoint r = some u := by
  by_cases hi : classOf a = .infinity
  · exact ⟨_, _, qsqrt_of_infinity hi hs, gridPoint_of_infinity (classOf_infQuad false)⟩
  · obtain ⟨q, l, hround, hsqrt⟩ := qsqrt_roundsTo_of_gridPoint hs hi ha
    obtain ⟨u, hu⟩ := hround.exists_gridPoint false
    exact ⟨_, u, hsqrt, hu⟩

end

/-- Settles O40: rounding keeps the order of the exact roots, and no point lies above +Infinity's. -/
theorem qsqrtIsMonotone : Obligations.QsqrtIsMonotone := by
  intro a b c d s x y hsa hsb ha hb hle
  by_cases hbi : classOf b = .infinity
  · obtain ⟨r, u, hsqrt, hu⟩ := exists_gridPoint_qsqrt hsa ha
    exact ⟨r, infQuad false, u, overflowPoint, exec_qsqrt_of_eq hsqrt c s, exec_qsqrt_of_eq (qsqrt_of_infinity hbi hsb) d s,
      hu, gridPoint_of_infinity (classOf_infQuad false), (onGrid_of_gridPoint hu).2⟩
  · have hai : classOf a ≠ .infinity := fun hai => by
      obtain rfl := Option.some.inj ((gridPoint_of_infinity hai).symm.trans ha)
      exact absurd hle (not_le.2 (gridPoint_lt_overflowPoint hbi hb))
    obtain ⟨q, l, hround, hsqrt⟩ := qsqrt_roundsTo_of_gridPoint hsa hai ha
    obtain ⟨q', l', hround', hsqrt'⟩ := qsqrt_roundsTo_of_gridPoint hsb hbi hb
    obtain ⟨u, hu⟩ := hround.exists_gridPoint false
    obtain ⟨v, hv⟩ := hround'.exists_gridPoint false
    have hroots : √(x : ℝ) ≤ √(y : ℝ) := Real.sqrt_le_sqrt (by exact_mod_cast hle)
    exact ⟨_, _, u, v, exec_qsqrt_of_eq hsqrt c s, exec_qsqrt_of_eq hsqrt' d s, hu, hv,
      hround.gridPoint_le hround' hroots hu hv⟩

end Sys2Proof.Machine
end

section
/-! SUPPORT. No command traps: each completes with an OK response, and a NaN operand gives the canonical NaN
(spec/60_exceptions.md R250, R254). -/

namespace Sys2Proof.Machine

/-- Every command completes with an OK response of its result's class, in every state (R250, R42). -/
theorem exec_completes_ok (i : Instr) (s : State) :
    ∃ r, exec i s = .next (s.respond ⟨.ok, classCode (classOf r), r⟩) := by
  obtain ⟨r, hr⟩ := exists_commandResult i
  exact ⟨r, exec_eq_next_iff.2 ⟨r, hr, rfl⟩⟩

/-- Settles O15: every command has a result, and COMPLETE answers it. -/
theorem everyCommandCompletesWithOk : Obligations.EveryCommandCompletesWithOk := fun a b s =>
  ⟨exec_completes_ok (.qadd a b) s, exec_completes_ok (.qsub a b) s, exec_completes_ok (.qmul a b) s,
    exec_completes_ok (.qdiv a b) s, exec_completes_ok (.qsqrt a b) s⟩

theorem okResponse_nanQuad : okResponse nanQuad = ⟨.ok, 0b100#3, nanQuad⟩ := by
  rw [okResponse, classOf_nanQuad]
  rfl

/-- Settles O17: a NaN operand is the first case that each command tells apart; the flip of QSUB keeps a NaN a NaN. -/
theorem nanOperandGivesCanonicalNan : Obligations.NanOperandGivesCanonicalNan := by
  intro a b s
  rw [← okResponse_nanQuad]
  refine ⟨fun h => ⟨?qadd, ?qsub, ?qmul, ?qdiv⟩, fun h => ?qsqrt⟩
  case qadd => exact exec_qadd_of_eq (qadd_of_nan h) s
  case qsub => exact exec_qsub_of_eq (qadd_of_nan (by rwa [classOf_flipSign])) s
  case qmul => exact exec_qmul_of_eq (qmul_of_nan h) s
  case qdiv => exact exec_qdiv_of_eq (qdiv_of_nan h) s
  case qsqrt => exact exec_qsqrt_of_eq (qsqrt_of_nan h) b s

end Sys2Proof.Machine
end

section
/-! SUPPORT. From a coherent block every transaction step, and every look at a response that is held, goes on
(spec/60_exceptions.md R250, R252, spec/70_reset_and_hazards.md R284, R286, R287). -/

namespace Sys2Proof.Machine

/-- In BUSY the request is at hand and has an answer; in DONE the response held is one that can be taken. -/
theorem State.exists_transact_of_coherent {s : State} (h : s.block.coherent = true) (e : Edge) :
    ∃ t, s.transact e = .next t := by
  cases hst : s.block.st with
  | idle =>
    cases hv : e.reqValid with
    | false => exact ⟨_, State.transact_of_idle_quiet hst hv⟩
    | true => exact ⟨_, State.transact_of_idle_offer hst hv⟩
  | busy =>
    cases hc : e.completes with
    | false => exact ⟨_, State.transact_of_busy_waiting hst hc⟩
    | true =>
      obtain ⟨hcmd, -⟩ := (Block.coherent_of_busy hst).1 h
      obtain ⟨q, hq⟩ := Option.isSome_iff_exists.1 hcmd
      obtain ⟨p, hp, -⟩ := State.completeCommand_answers hst hq
      exact ⟨_, (State.transact_of_busy_completing hst hc).trans hp⟩
  | done =>
    cases hr : e.rspReady with
    | false => exact ⟨_, State.transact_of_done_waiting hst hr⟩
    | true =>
      obtain ⟨-, p, hres, hp⟩ := (Block.coherent_of_done hst).1 h
      exact ⟨_, State.transact_of_done_taking hst hres (codesProduced_of_wellFormed hp) hr⟩

theorem State.readResponse_of_done {s : State} (h : s.block.coherent = true) (hst : s.block.st = .done) :
    s.readResponse = .next s := by
  obtain ⟨-, p, hres, hp⟩ := (Block.coherent_of_done hst).1 h
  have hread : s.block.readResult = .ok p := Block.readResult_eq_ok_iff.2 ⟨hst, hres⟩
  simp [State.readResponse, hread, codesProduced_of_wellFormed hp]

/-- An edge without reset or request before the first reset (R284). -/
theorem State.clockEdge_of_quiet_before_reset {s : State} {e : Edge} (hrst : e.rst = false)
    (hseen : s.resetSeen = false) (hv : e.reqValid = false) : s.clockEdge e = .next s.drift := by
  simp [State.clockEdge, hrst, hseen, hv]

/-! What an obedient host does -/

/-- At an edge: a reset, no request before the first reset (R284), or the held request offered again (R286). -/
theorem State.hostObeys_edge_iff {s : State} {e : Edge} :
    s.hostObeys (.edge e) = true ↔
      e.rst = true ∨ (e.rst = false ∧ s.resetSeen = false ∧ e.reqValid = false) ∨
        (e.rst = false ∧ s.resetSeen = true ∧ s.keepsOffer e = true) := by
  cases hrst : e.rst <;> cases hseen : s.resetSeen <;> simp [State.hostObeys, hrst, hseen]

theorem State.hostObeys_readResponse_iff {s : State} :
    s.hostObeys .readResponse = true ↔ s.resetSeen = true ∧ s.block.st = .done := by
  simp [State.hostObeys, Block.rspValid]

/-- Settles O54: by the upcoming event. The host's obedience rules out the handshake faults, and the invariant, which makes
the block coherent from the first reset on, the faults of the latches. -/
theorem obedientHostIsNeverStopped : Obligations.ObedientHostIsNeverStopped := by
  intro s hinv hobeys
  obtain ⟨hcoh, -, -⟩ := State.inv_iff.1 hinv
  cases hup : s.upcoming with
  | edge e =>
    rw [hup, State.hostObeys_edge_iff] at hobeys
    obtain hrst | ⟨hrst, hseen, hv⟩ | ⟨hrst, hseen, hkeeps⟩ := hobeys
    · exact ⟨_, (step_of_edge hup).trans (State.clockEdge_of_reset hrst)⟩
    · exact ⟨_, (step_of_edge hup).trans (State.clockEdge_of_quiet_before_reset hrst hseen hv)⟩
    · have hedge : (s.atEdge e).block.coherent = true := hcoh hseen
      rw [State.Samples.step_eq ⟨hup, hrst, hseen, hkeeps⟩]
      exact State.exists_transact_of_coherent hedge e
  | readResponse =>
    rw [hup, State.hostObeys_readResponse_iff] at hobeys
    obtain ⟨hseen, hst⟩ := hobeys
    exact ⟨_, (step_of_readResponse hup).trans (State.readResponse_of_done (hcoh hseen) hst)⟩
  | losePower => exact ⟨_, step_of_losePower hup⟩

end Sys2Proof.Machine
end

section
/-! SUPPORT. A response is tied to its request alone: two answers to one request agree, in whatever states they are given
(spec/70_reset_and_hazards.md R292). -/

namespace Sys2Proof.Machine

theorem State.Answers.eq_of_legal {s₁ s₂ : State} {q : Request} {p₁ p₂ : Response} (h₁ : s₁.Answers q p₁)
    (h₂ : s₂.Answers q p₂) (hlegal : q.op.toNat < 5) : p₁ = p₂ := by
  obtain ⟨i, hi⟩ := exists_decodeRequest_iff_legal.2 hlegal
  obtain ⟨r₁, hr₁, rfl⟩ := h₁.of_decode hi
  obtain ⟨r₂, hr₂, rfl⟩ := h₂.of_decode hi
  obtain rfl : r₁ = r₂ := Except.ok.inj (hr₁.symm.trans hr₂)
  rfl

/-- A reserved opcode too gets the same status, though the other fields of its response are free values (R251). -/
theorem State.Answers.status_eq {s₁ s₂ : State} {q : Request} {p₁ p₂ : Response} (h₁ : s₁.Answers q p₁)
    (h₂ : s₂.Answers q p₂) : p₁.status = p₂.status := by
  obtain hlegal | hres := Nat.lt_or_ge q.op.toNat 5
  · rw [h₁.eq_of_legal h₂ hlegal]
  · rw [h₁.status_of_reserved hres, h₂.status_of_reserved hres]

/-- COMPLETE puts an answer to its request in `RES`, whatever the host offers at that edge (R41); `u` is the state at
that edge. -/
theorem step_of_completesNext {s : State} {q : Request} (h : s.completesNext q) :
    ∃ t p, step s = .next t ∧ t.block.st = .done ∧ t.block.res = some p ∧ ∃ u : State, u.Answers q p := by
  obtain ⟨e, hup, hrst, hc, hseen, hkeeps, hst, hcmd⟩ := h
  have hsamp : s.Samples e := ⟨hup, hrst, hseen, hkeeps⟩
  obtain ⟨p, hnext, hp⟩ := State.completeCommand_answers (s := s.atEdge e) hst hcmd
  have hstep : step s = .next ((s.atEdge e).respond p) :=
    calc step s = (s.atEdge e).transact e := hsamp.step_eq
      _ = (s.atEdge e).completeCommand := State.transact_of_busy_completing hst hc
      _ = .next ((s.atEdge e).respond p) := hnext
  exact ⟨_, p, hstep, rfl, rfl, _, hp⟩

/-- Settles O57: either way the two responses are answers to the one request. -/
theorem responseDependsOnTheRequestAlone : Obligations.ResponseDependsOnTheRequestAlone := by
  intro s₁ s₂ q
  refine ⟨fun h₁ h₂ => ?complete, fun n₁ m₁ n₂ m₂ hst₁ hseen₁ hoff₁ hst₂ hseen₂ hoff₂ => ?transaction⟩
  case complete =>
    obtain ⟨t₁, p₁, hstep₁, hdone₁, hres₁, _, hp₁⟩ := step_of_completesNext h₁
    obtain ⟨t₂, p₂, hstep₂, hdone₂, hres₂, _, hp₂⟩ := step_of_completesNext h₂
    exact ⟨t₁, t₂, p₁, p₂, hstep₁, hstep₂, hdone₁, hdone₂, hres₁, hres₂, hp₁.status_eq hp₂, hp₁.eq_of_legal hp₂⟩
  case transaction =>
    obtain ⟨t₁, p₁, hrun₁, ht₁, _, hp₁⟩ := runTransaction_delivers n₁ m₁ hst₁ hseen₁ hoff₁
    obtain ⟨t₂, p₂, hrun₂, ht₂, _, hp₂⟩ := runTransaction_delivers n₂ m₂ hst₂ hseen₂ hoff₂
    exact ⟨t₁, t₂, p₁, p₂, hrun₁, hrun₂, ht₁.delivered_eq, ht₂.delivered_eq, hp₁.status_eq hp₂, hp₁.eq_of_legal hp₂⟩

end Sys2Proof.Machine
end
